-- ==== Sys2Proof/Word.lean ====
section
/-! DEFINITION. The word types of the smol-range CORE (00_scope.md R11, 30_encoding.md R80, R84). -/

namespace Sys2Proof

/-- One byte of OBUF or IBUF (20_memory.md R60). -/
abbrev Byte := BitVec 8

/-- A 32-bit operand or register: element endpoints, byte counts, byte addresses (R11, R82). -/
abbrev Word32 := BitVec 32

/-- A 33-bit value: a flat value, `C.rem`, `C.lee` (signed), `C.cap`, `C.clen` (R11, R25, R28, R29). -/
abbrev Word33 := BitVec 33

/-- A 64-bit register, register view or result word (R29, R33, R36, R84). -/
abbrev Word64 := BitVec 64

/-- A status or error code (R23, R31, R84). -/
abbrev Code := BitVec 4

/-- A CIF1 command word W (R80). -/
abbrev CmdWord := BitVec 72

end Sys2Proof
end

