-- ==== Sys2Proof/Syntax.lean ====
section
/-! DEFINITION. The commands of CIF1, one constructor per row of spec/opcode_table.json (30_encoding.md R82, R86),
and above them the lines a host's assembler takes (R91, R92). -/

namespace Sys2Proof

/-- A CIF1 command with its operands at the widths of R82. -/
inductive Instr where
  /-- C.INIT `maxsize` (R200). -/
  | cInit (maxsize : Word32)
  /-- C.PUSH `start, end` (R202). -/
  | cPush (start stop : Word32)
  /-- C.FINISH (R206). -/
  | cFinish
  /-- C.RDBYTE `addr` (R208). -/
  | cRdbyte (addr : Word32)
  /-- NOP (R241). -/
  | nop
  /-- D.INIT `len` (R220). -/
  | dInit (len : Word32)
  /-- D.LOAD `addr, byte` (R221). -/
  | dLoad (addr : Word32) (byte : Byte)
  /-- D.NEXT (R224). -/
  | dNext
  /-- RDREG `index` (R240). -/
  | rdreg (index : Byte)
  deriving DecidableEq, Repr

/-- The register names of the map of 10_state.md R36, which RDREG takes as an operand (R91). -/
inductive RegName where
  | cStatus | cMaxsize | cBitlen | cLen | cCap | cPrevStart | cPrevEnd | cLastEnd | cRem | cQ0 | cQ1
  | cInfo0 | cInfo1 | dStatus | dLen | dBitpos | dPos | dOpenStart | dLastD | dNranges | dInfo0 | coreId
  deriving DecidableEq, Repr

/-- RDREG's operand in a line: a literal or a register name (R91). -/
inductive RegOperand where
  | literal (n : Nat)
  | name (r : RegName)
  deriving DecidableEq, Repr

/-- One assembler line (R91): a command of R86 or a pseudo-instruction of R92, with literals not yet checked
against their fields. -/
inductive AsmLine where
  /-- `C.INIT n`, and the pseudo-instruction `C.INIT` with no operand. -/
  | cInit (maxsize : Option Nat)
  | cPush (start stop : Nat)
  /-- The pseudo-instruction `C.PUSHN n`. -/
  | cPushN (n : Nat)
  | cFinish
  | cRdbyte (addr : Nat)
  | nop
  | dInit (len : Nat)
  | dLoad (addr byte : Nat)
  /-- The pseudo-instruction `D.BUF b0, b1, …`. -/
  | dBuf (bytes : List Nat)
  | dNext
  | rdreg (index : RegOperand)
  deriving DecidableEq, Repr

end Sys2Proof
end

