-- ==== Sys2Proof/WellFormed.lean ====
section
/-! DEFINITION. Well-formedness checks. A value of `Instr` holds its operands at their fields' widths, so no operand
of it can be out of range; the checks of the spec are on the command word (30_encoding.md R87, R88) and on the
literals of an assembler line (R91). -/

namespace Sys2Proof

/-- One row of spec/opcode_table.json: a word is the row's when its bits under `mask` are `pattern`. -/
structure OpcodeRow where
  mnemonic : String
  pattern : CmdWord
  mask : CmdWord
  deriving DecidableEq, Repr

/-- spec/opcode_table.json, row by row: the fixed bits are OP (R86) and the reserved operand bits (R88). -/
def opcodeTable : List OpcodeRow :=
  [ ⟨"C.INIT",   0x010000000000000000#72, 0xFF00000000FFFFFFFF#72⟩,
    ⟨"C.PUSH",   0x020000000000000000#72, 0xFF0000000000000000#72⟩,
    ⟨"C.FINISH", 0x030000000000000000#72, 0xFFFFFFFFFFFFFFFFFF#72⟩,
    ⟨"C.RDBYTE", 0x040000000000000000#72, 0xFF00000000FFFFFFFF#72⟩,
    ⟨"NOP",      0x0F0000000000000000#72, 0xFFFFFFFFFFFFFFFFFF#72⟩,
    ⟨"D.INIT",   0x110000000000000000#72, 0xFF00000000FFFFFFFF#72⟩,
    ⟨"D.LOAD",   0x120000000000000000#72, 0xFF00000000FFFFFF00#72⟩,
    ⟨"D.NEXT",   0x130000000000000000#72, 0xFFFFFFFFFFFFFFFFFF#72⟩,
    ⟨"RDREG",    0x200000000000000000#72, 0xFFFFFFFF00FFFFFFFF#72⟩ ]

/-- The word passes the checks of R87 and R88: its OP is defined and its reserved operand bits are zero. -/
def wordOk (w : CmdWord) : Bool := opcodeTable.any fun r => w &&& r.mask == r.pattern

/-- Every command is well formed: the operand types leave nothing to check (R82). -/
def Instr.wf : Instr → Bool
  | .cInit _ => true
  | .cPush _ _ => true
  | .cFinish => true
  | .cRdbyte _ => true
  | .nop => true
  | .dInit _ => true
  | .dLoad _ _ => true
  | .dNext => true
  | .rdreg _ => true

/-- The literal fits an n-bit field (R91: one that does not is an assembly error, not a command). -/
def fits (width n : Nat) : Bool := n < 2 ^ width

/-- Every literal of the line fits its field (R82, R91). -/
def AsmLine.wf : AsmLine → Bool
  | .cInit none => true
  | .cInit (some n) => fits 32 n
  | .cPush a b => fits 32 a && fits 32 b
  | .cPushN n => fits 32 n
  | .cFinish => true
  | .cRdbyte a => fits 32 a
  | .nop => true
  | .dInit n => fits 32 n
  | .dLoad a b => fits 32 a && fits 8 b
  | .dBuf bs => fits 32 bs.length && bs.all (fits 8)
  | .dNext => true
  | .rdreg (.literal n) => fits 8 n
  | .rdreg (.name _) => true

end Sys2Proof
end

