-- ==== Sys2Proof/Decode.lean ====
section
/-! DEFINITION. From command words to commands and back (30_encoding.md R80 to R82, R86 to R88). -/

namespace Sys2Proof

/-- OP, W[71:64] (R80). -/
def opField (w : CmdWord) : Byte := w.extractLsb' 64 8

/-- A, W[63:32] (R80). -/
def aField (w : CmdWord) : Word32 := w.extractLsb' 32 32

/-- B, W[31:0] (R80). -/
def bField (w : CmdWord) : Word32 := w.extractLsb' 0 32

/-- The command word with the given fields (R80). -/
def mkWord (op : Byte) (a b : Word32) : CmdWord := op ++ a ++ b

/-- The opcode of a command (R86). -/
def Instr.op : Instr → Byte
  | .cInit _ => 0x01
  | .cPush _ _ => 0x02
  | .cFinish => 0x03
  | .cRdbyte _ => 0x04
  | .nop => 0x0F
  | .dInit _ => 0x11
  | .dLoad _ _ => 0x12
  | .dNext => 0x13
  | .rdreg _ => 0x20

/-- Why a word is no command. Both are answered with IllegalCommand and V0 = OP (R87, R88). -/
inductive DecodeError where
  /-- OP is not in the table of R86 (R87). -/
  | reservedOpcode (op : Byte)
  /-- OP is defined and a reserved operand bit is not zero (R88). -/
  | reservedBits (op : Byte)
  deriving DecidableEq, Repr

/-- The opcode a rejected word carries, which the refusal reports. -/
def DecodeError.op : DecodeError → Byte
  | .reservedOpcode op => op
  | .reservedBits op => op

/-- The command `i`, if the reserved bits of its word are zero (R88). -/
def checked (ok : Bool) (op : Byte) (i : Instr) : Except DecodeError Instr :=
  if ok then .ok i else .error (.reservedBits op)

/-- The command a word stands for (R81, R82, R86), or why it is refused (R87, R88). -/
def decode (w : CmdWord) : Except DecodeError Instr :=
  if opField w = 0x01 then checked (bField w == 0) 0x01 (.cInit (aField w))
  else if opField w = 0x02 then .ok (.cPush (aField w) (bField w))
  else if opField w = 0x03 then checked (aField w == 0 && bField w == 0) 0x03 .cFinish
  else if opField w = 0x04 then checked (bField w == 0) 0x04 (.cRdbyte (aField w))
  else if opField w = 0x0F then checked (aField w == 0 && bField w == 0) 0x0F .nop
  else if opField w = 0x11 then checked (bField w == 0) 0x11 (.dInit (aField w))
  else if opField w = 0x12 then
    checked ((bField w).extractLsb' 8 24 == 0) 0x12 (.dLoad (aField w) ((bField w).extractLsb' 0 8))
  else if opField w = 0x13 then checked (aField w == 0 && bField w == 0) 0x13 .dNext
  else if opField w = 0x20 then
    checked ((aField w).extractLsb' 8 24 == 0 && bField w == 0) 0x20 (.rdreg ((aField w).extractLsb' 0 8))
  else .error (.reservedOpcode (opField w))

/-- The word of a command (R82, R86): OP, then the operands in A and B, every reserved bit 0. -/
def encode : Instr → CmdWord
  | .cInit n => mkWord 0x01 n 0
  | .cPush a b => mkWord 0x02 a b
  | .cFinish => mkWord 0x03 0 0
  | .cRdbyte a => mkWord 0x04 a 0
  | .nop => mkWord 0x0F 0 0
  | .dInit n => mkWord 0x11 n 0
  | .dLoad a v => mkWord 0x12 a (v.setWidth 32)
  | .dNext => mkWord 0x13 0 0
  | .rdreg r => mkWord 0x20 (r.setWidth 32) 0

/-- What the decoder reads from the word `w` of `nbits` bits, numbered as spec/opcode_table.json numbers them: a
command is ONE 72-bit word (R80), so bit 0 of `w` is W[0]. -/
def decodeTableWord (nbits w : Nat) : Option Instr :=
  match decode (BitVec.ofNat 72 (w % 2 ^ nbits)) with
  | .ok i => some i
  | .error _ => none

end Sys2Proof
end

