-- ==== Sys2Proof/Config.lean ====
section
/-! DEFINITION. What an implementation fixes: the constants and the parameters of 00_scope.md R10. The three
parameters the spec leaves to the implementation are a value of `Params`, which the machine's state carries
unchanged (log 1), so that every statement quantifies over them (93_implementation_defined.md U3, U6). -/

namespace Sys2Proof.Config

/-- `GAMMA_MAX`, the largest integer the encoder accepts: 2^32 - 1 (R10). -/
def gammaMax : Nat := 4294967295

/-- `DOMAIN_MAX`, the largest integer of the domain: 2^32 - 1 (R10). -/
def domainMax : Nat := 4294967295

/-- `WINDOW`, the width of the decoder's leading-zero window in bits (R10). -/
def window : Nat := 32

/-- `MAXSIZE_DEFAULT`, 16 MiB (R10, R24). -/
def maxsizeDefault : Nat := 16777216

/-- `FLATQ_DEPTH` (R10, R27). -/
def flatqDepth : Nat := 2

/-- CORE_ID, register index 0x1F (10_state.md R39). -/
def coreId : Word64 := 0x534D4F4C00010007#64

/-- `CAP_GRANULE`, the granule of the required size: 1 or 4 bytes (R10, 43_bitstream.md R182). -/
inductive Granule where
  | one
  | four
  deriving DecidableEq, Repr

/-- The granule in bytes. -/
def Granule.bytes : Granule → Nat
  | .one => 1
  | .four => 4

/-- The implementation parameters of R10 that are not fixed by the source. -/
structure Params where
  /-- `CAP_GRANULE`. -/
  granule : Granule
  /-- `OBUF_BYTES`. -/
  obufBytes : Nat
  /-- `IBUF_BYTES`. -/
  ibufBytes : Nat
  deriving DecidableEq, Repr

/-- The constraints R10 puts on the parameters. -/
abbrev Params.Wf (p : Params) : Prop :=
  16777216 ≤ p.obufBytes ∧ p.obufBytes ≤ 4294967295 ∧ 1 ≤ p.ibufBytes ∧ p.ibufBytes ≤ 2 ^ 29

/-- The defaults R10 gives. -/
def Params.default : Params := { granule := .one, obufBytes := 16777216, ibufBytes := 16777216 }

end Sys2Proof.Config
end

