-- ==== Sys2Proof/Machine/State.lean ====
section
/-! DEFINITION. The architectural state of the CORE (10_state.md), as plain data, and its reset value (R43, R280). -/

namespace Sys2Proof.Machine

/-- A byte memory: the bytes that differ from what an unlisted address reads as, by rising address
(20_memory.md R60; `Memory.Wf` is the form, `blankByte` what an unlisted address reads as). -/
abbrev Memory := List Host.Cell

/-- `C.cphase` (R22). -/
inductive CPhase where
  /-- After reset, no compression has begun. -/
  | idle
  /-- OPEN: C.INIT has run and elements may be pushed. -/
  | opened
  /-- C.FINISH has completed and the output may be read. -/
  | done
  /-- An error is latched. -/
  | error
  deriving DecidableEq, Repr

/-- `C.aphase`, where the encode automaton's loop stands (41_gap_run_automaton.md R131). -/
inductive APhase where
  | unseeded
  | run
  | pullTop
  | pullAfterEmit
  | done
  deriving DecidableEq, Repr

/-- `D.dphase` (R30). -/
inductive DPhase where
  | idle
  | ready
  | active
  | done
  | error
  deriving DecidableEq, Repr

/-- The status of a response (30_encoding.md R85, 60_exceptions.md R250). -/
inductive Status where
  | ok
  | endOfRanges
  | invalidRange
  | encodingRangeExceeded
  | bufferCapacityExceeded
  | longZeroRun
  | unwrittenInput
  | illegalCommand
  deriving DecidableEq, Repr

/-- The compression context `C` (R22 to R29) with the output buffer OBUF it owns (R40, 20_memory.md R61, R77). -/
structure CompContext where
  /-- `C.cphase` (R22). -/
  cphase : CPhase
  /-- `C.cerr` (R23). -/
  cerr : Code
  /-- `C.cinfo0` (R23). -/
  cinfo0 : Word64
  /-- `C.cinfo1` (R23). -/
  cinfo1 : Word64
  /-- `C.maxsize` (R24). -/
  maxsize : Word32
  /-- `C.nhave` (R25). -/
  nhave : Bool
  /-- `C.ps` (R25). -/
  ps : Word32
  /-- `C.pe` (R25). -/
  pe : Word32
  /-- `C.lee`, signed (R25). -/
  lee : Word33
  /-- `C.eoi` (R26). -/
  eoi : Bool
  /-- `C.flatq`, head first (R27). -/
  flatq : List Word33
  /-- `C.aphase` (R28). -/
  aphase : APhase
  /-- `C.async` (R28). -/
  async : Bool
  /-- `C.rem` (R28). -/
  rem : Word33
  /-- `C.bitlen` (R29). -/
  bitlen : Word64
  /-- `C.cap` (R29). -/
  cap : Word33
  /-- `C.clen` (R29). -/
  clen : Word33
  /-- OBUF, whose first `C.bitlen` stream bits are `C.cbits` (R29, R40, 20_memory.md R61). -/
  obuf : Memory
  deriving DecidableEq, Repr

/-- The decompression context `D` (R30 to R34, R41) with the input buffer IBUF and its `written` bits (R40,
20_memory.md R63, R64). -/
structure DecompContext where
  /-- `D.dphase` (R30). -/
  dphase : DPhase
  /-- `D.derr` (R31). -/
  derr : Code
  /-- `D.dinfo0` (R31). -/
  dinfo0 : Word64
  /-- `D.ilen` (R32). -/
  ilen : Word32
  /-- `D.bpos` (R41). -/
  bpos : Word64
  /-- `D.pos` (R33). -/
  pos : Word64
  /-- `D.sym` (R33). -/
  sym : Bool
  /-- `D.dopen` (R33). -/
  dopen : Bool
  /-- `D.dstart` (R33). -/
  dstart : Word64
  /-- `D.lastd` (R34). -/
  lastd : Word64
  /-- `D.nranges` (R34). -/
  nranges : Word64
  /-- IBUF (R40, 20_memory.md R63). -/
  ibuf : Memory
  /-- The IBUF addresses whose `written` bit is 1, rising (20_memory.md R64). -/
  written : List Nat
  deriving DecidableEq, Repr

/-- A response: STATUS, V0, V1 (30_encoding.md R84). -/
structure Response where
  status : Code
  v0 : Word64
  v1 : Word64
  deriving DecidableEq, Repr

/-- What the host can do to the CORE between commands: issue a command word (R8, R80), or reset it (R280). -/
inductive HostInput where
  | command (w : CmdWord)
  | reset
  deriving DecidableEq, Repr

/-- The whole machine. `c` and `d` are the spec's two contexts (00_scope.md R9); `params`, `pending` and `resp` are the
model's own fields (log 1, 2, 3). -/
structure State where
  /-- The implementation parameters, fixed when the CORE is built (R10, R282). -/
  params : Config.Params
  /-- The compression context. -/
  c : CompContext
  /-- The decompression context. -/
  d : DecompContext
  /-- The host's inputs that the CORE has not taken yet, oldest first (R8). -/
  pending : List HostInput
  /-- The response of the command completed last, none before the first (R83). -/
  resp : Option Response
  deriving DecidableEq, Repr

/-- Why a step can stop with a fault: for no reason. Every command returns a response in every state (30_encoding.md
R83), and the spec's errors are responses and latched state (60_exceptions.md R255), so there is no constructor; that
is neither safe nor unsafe, since nothing raises it (log 14). -/
inductive Fault where
  deriving DecidableEq, Repr

/-- Why a step can be refused by the MODEL. The spec's own refusal, IllegalCommand, is a response (R257) and so a next
state. -/
inductive Refusal where
  /-- Raised by an arm of `exec` whose instruction has no meaning yet, and by nothing else; safe, for the model then
  says nothing about the instruction. No arm raises it. -/
  | notModelled (mnemonic : String)
  deriving DecidableEq, Repr

/-- The compression context right after hardware reset (R43). -/
def CompContext.reset : CompContext :=
  { cphase := .idle, cerr := 0, cinfo0 := 0, cinfo1 := 0
    maxsize := BitVec.ofNat 32 Config.maxsizeDefault
    nhave := false, ps := 0, pe := 0, lee := BitVec.ofInt 33 (-1), eoi := false
    flatq := [], aphase := .unseeded, async := false, rem := 0
    bitlen := 0, cap := 0, clen := 0, obuf := [] }

/-- The decompression context right after hardware reset (R43). -/
def DecompContext.reset : DecompContext :=
  { dphase := .idle, derr := 0, dinfo0 := 0, ilen := 0, bpos := 0, pos := 0
    sym := false, dopen := false, dstart := 0, lastd := 0, nranges := 0
    ibuf := [], written := [] }

/-- The machine right after hardware reset (R43, R280), with the default parameters of R10, nothing issued by the host
and no response given. -/
def State.reset : State :=
  { params := Config.Params.default
    c := CompContext.reset
    d := DecompContext.reset
    pending := []
    resp := none }

end Sys2Proof.Machine
end

