-- ==== Sys2Proof/Machine/Flags.lean ====
section
/-! DEFINITION. The one-bit flags (10_state.md R35), the numbers of the phases (R22, R28, R30), the status codes
(30_encoding.md R85), and the two status words RDREG reads (R37, R38). -/

namespace Sys2Proof.Machine

/-- A flag as one bit of a status word. -/
def flagBit (b : Bool) : BitVec 1 := BitVec.ofBool b

/-- CPHASE (R22, R37). -/
def CPhase.code : CPhase → BitVec 3
  | .idle => 0
  | .opened => 1
  | .done => 2
  | .error => 3

/-- APHASE (R28, R37). -/
def APhase.code : APhase → BitVec 3
  | .unseeded => 0
  | .run => 1
  | .pullTop => 2
  | .pullAfterEmit => 3
  | .done => 4

/-- DPHASE (R30, R38). -/
def DPhase.code : DPhase → BitVec 3
  | .idle => 0
  | .ready => 1
  | .active => 2
  | .done => 3
  | .error => 4

/-- The code of a status (R85, R250). -/
def Status.code : Status → Code
  | .ok => 0x0
  | .endOfRanges => 0x1
  | .invalidRange => 0x8
  | .encodingRangeExceeded => 0x9
  | .bufferCapacityExceeded => 0xA
  | .longZeroRun => 0xB
  | .unwrittenInput => 0xC
  | .illegalCommand => 0xD

/-- The seed sets `C.async` when the leading gap is not empty (41_gap_run_automaton.md R132). -/
def seedSync (v : Word33) : Bool := v != 0

/-- An unsynchronized step sets `C.async` when the new `C.rem` is not 0 (R136). -/
def unsyncSync (rem : Word33) : Bool := rem != 0

/-- The pull after a synchronized emission sets `C.async` when the new `C.rem` is 0 (R138). -/
def pullSync (rem : Word33) : Bool := rem == 0

/-- `D.sym` flips if and only if the codeword is 1 (R152). -/
def nextSym (sym : Bool) (d : Nat) : Bool := if d = 1 then !sym else sym

/-- C_STATUS, index 0x00 (R37). Top to bottom: [63:18] reserved, QCOUNT, reserved, APHASE, reserved, ASYNC, EOI, NHAVE,
CERR, reserved, CPHASE. -/
def cStatusWord (c : CompContext) : Word64 :=
  0#46 ++ BitVec.ofNat 2 c.flatq.length ++ 0#1 ++ c.aphase.code ++ 0#1 ++ flagBit c.async ++ flagBit c.eoi
    ++ flagBit c.nhave ++ c.cerr ++ 0#1 ++ c.cphase.code

/-- D_STATUS, index 0x10 (R38). Top to bottom: [63:10] reserved, OPEN, SYM, DERR, reserved, DPHASE. -/
def dStatusWord (d : DecompContext) : Word64 :=
  0#54 ++ flagBit d.dopen ++ flagBit d.sym ++ d.derr ++ 0#1 ++ d.dphase.code

end Sys2Proof.Machine
end

