-- ==== Sys2Proof/Machine/Operands.lean ====
section
/-! DEFINITION. How operands and exact results become register values (00_scope.md R11, R12, 30_encoding.md R82): the
rules compute in exact integer arithmetic, and every result is narrowed to its register here (log 7). -/

namespace Sys2Proof.Machine

/-- A byte count operand: `zext_33(A)` (R82). -/
def byteCount (a : Word32) : Nat := (a.setWidth 33).toNat

/-- An OBUF or IBUF byte address operand (R82). -/
def byteAddr (a : Word32) : Nat := a.toNat

/-- An exact natural result narrowed to 64 bits (R11, R12). -/
def word64 (n : Nat) : Word64 := BitVec.ofNat 64 n

/-- An exact natural result narrowed to 33 bits (R11, R12). -/
def word33 (n : Nat) : Word33 := BitVec.ofNat 33 n

/-- An exact integer result narrowed to a 33-bit flat value (R11, R12). -/
def flatValue (z : Int) : Word33 := BitVec.ofInt 33 z

/-- `zext_64` of a 32-bit value. -/
def zext32 (v : Word32) : Word64 := v.setWidth 64

/-- `zext_64` of a 33-bit value. -/
def zext33 (v : Word33) : Word64 := v.setWidth 64

/-- `sext_64` of a signed 33-bit value (10_state.md R36, C_LAST_END). -/
def sext33 (v : Word33) : Word64 := v.signExtend 64

/-- `zext_64(OP)`, what a refusal reports (60_exceptions.md R257). -/
def zextOp (op : Byte) : Word64 := op.setWidth 64

/-- `ceil(a / b)` (R12). -/
def ceilDiv (a b : Nat) : Nat := (a + b - 1) / b

/-- `roundup(a, g)`: the least multiple of `g` that is at least `a` (R12). -/
def roundUp (a g : Nat) : Nat := ceilDiv a g * g

end Sys2Proof.Machine
end

