-- ==== Sys2Proof/Machine/Ops.lean ====
section
/-! DEFINITION. The shared operations: byte memories, stream bits, the `written` bits, responses, and the three ways a
command ends (00_scope.md R15): respond, refuse, and raise, which is this machine's taking of an exception
(60_exceptions.md R255, R257). There is no return from one: only C.INIT, D.INIT or reset clears a latch (R265). -/

namespace Sys2Proof.Machine

/-! ### Byte memories -/

/-- What an unlisted address of OBUF or IBUF reads as. The spec leaves the contents after reset unspecified (10_state.md
R43) and no command reads them before they are written (R44, 20_memory.md R62). DESIGN CHOICE, unsafe (log 5). -/
def blankByte : Byte := 0

/-- The canonical form: addresses strictly rise and no listed byte is the blank one. -/
abbrev Memory.Wf (m : Memory) : Prop :=
  m.Pairwise (fun x y => x.1 < y.1) ∧ ∀ x ∈ m, x.2 ≠ blankByte

/-- `MemRead(_, a, 1)` (00_scope.md R14). -/
def Memory.read : Memory → Nat → Byte
  | [], _ => blankByte
  | (a', b) :: m, a => if a = a' then b else Memory.read m a

/-- `MemWrite(_, a, 1, b)` (R14), keeping the canonical form. -/
def Memory.write : Memory → Nat → Byte → Memory
  | [], a, b => if b = blankByte then [] else [(a, b)]
  | (a', b') :: m, a, b =>
    if a < a' then (if b = blankByte then (a', b') :: m else (a, b) :: (a', b') :: m)
    else if a = a' then (if b = blankByte then m else (a, b) :: m)
    else (a', b') :: Memory.write m a b

/-- Stream bit `i` of a buffer: bit `7 - (i mod 8)` of byte `floor(i/8)` (R13). -/
def Memory.streamBit (m : Memory) (i : Nat) : Bool := (m.read (i / 8)).getLsbD (7 - i % 8)

/-- The byte with bit `n` set to `v`. -/
def setByteBit (b : Byte) (n : Nat) (v : Bool) : Byte :=
  (b &&& ~~~(1#8 <<< n)) ||| ((flagBit v).setWidth 8 <<< n)

/-- The buffer with stream bit `i` set to `v` (R13); the byte's other bits stay. -/
def Memory.writeStreamBit (m : Memory) (i : Nat) (v : Bool) : Memory :=
  m.write (i / 8) (setByteBit (m.read (i / 8)) (7 - i % 8) v)

/-! ### The `written` bits of IBUF (20_memory.md R64) -/

/-- The canonical form: addresses strictly rise. -/
abbrev WrittenWf (ws : List Nat) : Prop := ws.Pairwise (· < ·)

/-- `written[a] <- 1`. -/
def markWritten : List Nat → Nat → List Nat
  | [], a => [a]
  | w :: ws, a => if a < w then a :: w :: ws else if a = w then w :: ws else w :: markWritten ws a

/-- The lowest of the `n` addresses from `a` on whose `written` bit is 0, if there is one. -/
def firstUnwritten (ws : List Nat) : (n a : Nat) → Option Nat
  | 0, _ => none
  | n + 1, a => if ws.contains a then firstUnwritten ws n (a + 1) else some a

/-! ### Ending a command -/

/-- The 132-bit response word P: STATUS, V0, V1 (30_encoding.md R84). -/
def Response.toWord (r : Response) : BitVec 132 := r.status ++ r.v0 ++ r.v1

/-- `respond(status, v0, v1)` (R15). -/
def State.respond (s : State) (status : Code) (v0 v1 : Word64) : State :=
  { s with resp := some { status := status, v0 := v0, v1 := v1 } }

/-- `respond(OK, v0, v1)`. -/
def State.respondOk (s : State) (v0 v1 : Word64) : State := s.respond Status.ok.code v0 v1

/-- `refuse(zext_64(OP))`: IllegalCommand, and no state of either context changes (R257). -/
def State.refuse (s : State) (op : Byte) : State := s.respond Status.illegalCommand.code (zextOp op) 0

/-- An error to be raised: its status and information words (60_exceptions.md R250, R254). -/
structure Raised where
  status : Status
  info0 : Word64
  info1 : Word64
  deriving DecidableEq, Repr

/-- The latch a raise writes in the compression context: phase, code, information; nothing else (R255). -/
def CompContext.latch (c : CompContext) (e : Raised) : CompContext :=
  { c with cphase := .error, cerr := e.status.code, cinfo0 := e.info0, cinfo1 := e.info1 }

/-- The latch a raise writes in the decompression context (R255). -/
def DecompContext.latch (d : DecompContext) (e : Raised) : DecompContext :=
  { d with dphase := .error, derr := e.status.code, dinfo0 := e.info0 }

/-- `raise E(i0, i1)` in the compression context, which the steps before the raising one have left as `c` (R255,
R256). -/
def State.raiseC (s : State) (c : CompContext) (e : Raised) : State :=
  { s with c := c.latch e }.respond e.status.code e.info0 e.info1

/-- `raise E(i0, 0)` in the decompression context, left as `d` (R255, R256). -/
def State.raiseD (s : State) (d : DecompContext) (e : Raised) : State :=
  { s with d := d.latch e }.respond e.status.code e.info0 e.info1

/-- ERROR repeats the latched compression error and changes nothing (44_compress_commands.md R201). -/
def State.repeatC (s : State) : State := s.respond s.c.cerr s.c.cinfo0 s.c.cinfo1

/-- ERROR repeats the latched decompression error and changes nothing (45_decompress_commands.md R222, R223). -/
def State.repeatD (s : State) : State := s.respond s.d.derr s.d.dinfo0 0

/-- The phase gate of the compression commands: ERROR repeats the latched error, the one phase `want` executes `run`,
every other phase refuses (R201). -/
def State.gateC (s : State) (want : CPhase) (op : Byte) (run : State) : State :=
  if s.c.cphase = .error then s.repeatC
  else if s.c.cphase = want then run
  else s.refuse op

end Sys2Proof.Machine
end

