-- ==== Sys2Proof/Machine/Bitstream.lean ====
section
/-! DEFINITION. bitstream_packer and bitstream_unpacker (43_bitstream.md). -/

namespace Sys2Proof.Machine

/-! ### Packer -/

/-- `C.cbits[i]` (10_state.md R29, 20_memory.md R61): the stream bit OBUF holds at position `i`. -/
def CompContext.cbit (c : CompContext) (i : Nat) : Bool := c.obuf.streamBit i

/-- `RequiredBytes(b)` (R182). -/
def requiredBytes (g : Config.Granule) (b : Nat) : Nat := roundUp (ceilDiv b 8) g.bytes

/-- `Grow(cap, need)` (R184). -/
def grow (cap need maxsize : Nat) : Nat := min (roundUp (max (2 * cap) need) 4) maxsize

/-- BufferCapacityExceeded with the required size and the cap (R183, 60_exceptions.md R253, R254). -/
def bufferCapacityExceeded (need : Nat) (maxsize : Word32) : Raised :=
  { status := .bufferCapacityExceeded, info0 := word64 need, info1 := zext32 maxsize }

/-- Append one bit to `C.cbits` (00_scope.md R14, R181). -/
def CompContext.appendBit (c : CompContext) (b : Bool) : CompContext :=
  { c with obuf := c.obuf.writeStreamBit c.bitlen.toNat b, bitlen := word64 (c.bitlen.toNat + 1) }

/-- `BitAppend(v, n)`: append the n-bit value v, most significant bit first (R181). -/
def bitAppend (v : Nat) : (n : Nat) → CompContext → CompContext
  | 0, c => c
  | n + 1, c => bitAppend v n (c.appendBit (v.testBit n))

/-- `PackCodeword(v, n)` (R181, R183, R184). -/
def packCodeword (g : Config.Granule) (v n : Nat) (c : CompContext) : Except Raised CompContext :=
  let need := requiredBytes g (c.bitlen.toNat + n)
  if c.maxsize.toNat < need then .error (bufferCapacityExceeded need c.maxsize)
  else if c.cap.toNat < need then
    .ok (bitAppend v n { c with cap := word33 (grow c.cap.toNat need c.maxsize.toNat) })
  else .ok (bitAppend v n c)

/-- `Finalize()` (R185). -/
def finalize (c : CompContext) : CompContext :=
  { c with clen := word33 (ceilDiv c.bitlen.toNat 8), cap := word33 (ceilDiv c.bitlen.toNat 8) }

/-- `b(i)` of 20_memory.md R62: the stream bit, 0 at or beyond `C.bitlen`. -/
def CompContext.outBit (c : CompContext) (i : Nat) : Bool := if i < c.bitlen.toNat then c.cbit i else false

/-- `OutByte(j)` (20_memory.md R62). -/
def CompContext.outByte (c : CompContext) (j : Nat) : Byte :=
  (List.range 8).foldl (fun acc t => acc + ((flagBit (c.outBit (8 * j + t))).setWidth 8 <<< (7 - t))) 0

/-! ### Unpacker -/

/-- `InBit(i)` (R186). -/
def DecompContext.inBit (d : DecompContext) (i : Nat) : Bool :=
  if i < 8 * d.ilen.toNat then d.ibuf.streamBit i else false

/-- The `n` stream bits from position `b` as a number, first bit most significant (R187, 42_elias_gamma.md R166). -/
def DecompContext.inBits (d : DecompContext) (b : Nat) : (n : Nat) → Nat
  | 0 => 0
  | n + 1 => 2 * d.inBits b n + (d.inBit (b + n)).toNat

/-- `Window(b)` (R187). -/
def DecompContext.window (d : DecompContext) (b : Nat) : BitVec 32 := BitVec.ofNat 32 (d.inBits b Config.window)

end Sys2Proof.Machine
end

