-- ==== Sys2Proof/Machine/Gamma.lean ====
section
/-! DEFINITION. elias_gamma_encoder and elias_gamma_decoder (42_elias_gamma.md). -/

namespace Sys2Proof.Machine

/-! ### Encoder -/

/-- EncodingRangeExceeded with the integer (R161, 60_exceptions.md R252, R254). -/
def encodingRangeExceeded (x : Nat) : Raised :=
  { status := .encodingRangeExceeded, info0 := word64 x, info1 := 0 }

/-- The length of the codeword of `x`: `2k + 1` with `k = floor(log2(x))` (R162). -/
def codewordLength (x : Nat) : Nat := 2 * Nat.log2 x + 1

/-- `GammaEncode(x)` (R160, R161). -/
def gammaEncode (g : Config.Granule) (x : Nat) (c : CompContext) : Except Raised CompContext :=
  if Config.gammaMax < x then .error (encodingRangeExceeded x) else packCodeword g x (codewordLength x) c

/-! ### Decoder -/

/-- The leading zeros of the low `n` bits of `w`. -/
def leadingZeros (w : BitVec 32) : (n : Nat) → Nat
  | 0 => 0
  | n + 1 => if w.getLsbD n then 0 else leadingZeros w n + 1

/-- `CountLeadingZeros32` (R164). -/
def countLeadingZeros32 (w : BitVec 32) : Nat := leadingZeros w Config.window

/-- `k`, the leading zero bits at the cursor (R164). -/
def DecompContext.zeros (d : DecompContext) : Nat := countLeadingZeros32 (d.window d.bpos.toNat)

/-- The end-of-stream test (R165). -/
def DecompContext.atEnd (d : DecompContext) : Bool := 8 * d.ilen.toNat ≤ d.bpos.toNat + d.zeros

/-- LongZeroRun with the position of the window (R167, 60_exceptions.md R254, R259). -/
def longZeroRun (d : DecompContext) : Raised := { status := .longZeroRun, info0 := d.bpos, info1 := 0 }

/-- The value of the codeword at the cursor: the `k + 1` bits after the `k` zeros (R166). -/
def DecompContext.codewordValue (d : DecompContext) : Nat := d.inBits (d.bpos.toNat + d.zeros) (d.zeros + 1)

/-- Advance the cursor past the codeword and record its value (R166). -/
def DecompContext.advance (d : DecompContext) : DecompContext :=
  { d with bpos := word64 (d.bpos.toNat + 2 * d.zeros + 1), lastd := word64 d.codewordValue }

end Sys2Proof.Machine
end

