-- ==== Sys2Proof/Machine/GapRun.lean ====
section
/-! DEFINITION. gap_run_automaton (41_gap_run_automaton.md), encode and decode directions. -/

namespace Sys2Proof.Machine

/-! ### Encode direction -/

/-- The outcomes of a pull (R133). -/
inductive Pull where
  | value (v : Word33) (rest : List Word33)
  | exhausted
  | blocked
  deriving DecidableEq, Repr

/-- A pull (R133). -/
def CompContext.pull (c : CompContext) : Pull :=
  match c.flatq with
  | v :: rest => .value v rest
  | [] => if c.eoi then .exhausted else .blocked

/-- What one step of the automaton's loop does: a move, nothing (a blocked pull or phase DONE), or an error (R139). -/
inductive AutoStep where
  | moved (c : CompContext)
  | rests
  | raised (e : Raised)
  deriving DecidableEq, Repr

/-- `Emit(x)` and then, where no error is raised, `after` (R140). -/
def emitThen (g : Config.Granule) (x : Nat) (c : CompContext) (after : CompContext → CompContext) : AutoStep :=
  match gammaEncode g x c with
  | .ok c' => .moved (after c')
  | .error e => .raised e

/-- Exhausted: the automaton is DONE (R132, R134, R138). -/
def CompContext.autoDone (c : CompContext) : CompContext := { c with aphase := .done }

/-- The seed step (R132). -/
def seedStep (c : CompContext) : AutoStep :=
  match c.pull with
  | .value v rest => .moved { c with flatq := rest, rem := v, async := seedSync v, aphase := .run }
  | .exhausted => .moved c.autoDone
  | .blocked => .rests

/-- The refill in phase PULL_TOP (R134). -/
def refillStep (c : CompContext) : AutoStep :=
  match c.pull with
  | .value v rest => .moved { c with flatq := rest, rem := v, aphase := .run }
  | .exhausted => .moved c.autoDone
  | .blocked => .rests

/-- The pull after a synchronized emission, phase PULL_AFTER_EMIT (R138). -/
def pullAfterStep (c : CompContext) : AutoStep :=
  match c.pull with
  | .value v rest => .moved { c with flatq := rest, rem := v - 1, async := pullSync (v - 1), aphase := .run }
  | .exhausted => .moved c.autoDone
  | .blocked => .rests

/-- The step in phase RUN (R134 to R137). -/
def runStep (g : Config.Granule) (c : CompContext) : AutoStep :=
  if c.rem = 0 then .moved { c with aphase := .pullTop }
  else if c.async then emitThen g (c.rem.toNat + 1) c fun c' => { c' with aphase := .pullAfterEmit }
  else emitThen g 1 c fun c' => { c' with rem := c.rem - 1, async := unsyncSync (c.rem - 1) }

/-- One step of the automaton (R131 to R138). -/
def autoStep (g : Config.Granule) (c : CompContext) : AutoStep :=
  match c.aphase with
  | .unseeded => seedStep c
  | .run => runStep g c
  | .pullTop => refillStep c
  | .pullAfterEmit => pullAfterStep c
  | .done => .rests

/-- Steps one after another until one rests or raises, at most `n` of them. -/
def autoSteps (g : Config.Granule) : (n : Nat) → CompContext → CompContext × Option Raised
  | 0, c => (c, none)
  | n + 1, c =>
    match autoStep g c with
    | .moved c' => autoSteps g n c'
    | .rests => (c, none)
    | .raised e => (c, some e)

/-- More steps than the automaton can take: at most three for each flat value, and three before the first pull (R144,
log 10). -/
def autoBound (c : CompContext) : Nat := 3 * c.flatq.length + 4

/-- `RunAutomaton()` (R139): the context where the automaton stops, and the error if a step raised one. -/
def runAutomaton (g : Config.Granule) (c : CompContext) : CompContext × Option Raised :=
  autoSteps g (autoBound c) c

/-! ### Decode direction -/

/-- A range the decode direction has produced: start and end (R153). -/
abbrev Range := Word64 × Word64

/-- `Label(s, p)` (R153). -/
def DecompContext.label (d : DecompContext) (s : Bool) (p : Word64) : DecompContext × Option Range :=
  if s && !d.dopen then ({ d with dopen := true, dstart := p }, none)
  else if !s && d.dopen then ({ d with dopen := false }, some (d.dstart, p - 1))
  else (d, none)

/-- The span of a codeword `v > 1`: `v - 1` positions of the current symbol (R151). -/
def DecompContext.labelSpan (d : DecompContext) (v : Nat) : DecompContext × Option Range :=
  if 1 < v then
    ({ (d.label d.sym d.pos).1 with pos := word64 (d.pos.toNat + (v - 1)) }, (d.label d.sym d.pos).2)
  else (d, none)

/-- The single position, which carries the opposite symbol, and the toggle (R152, 90_conflicts.md C1). -/
def DecompContext.labelSingle (d : DecompContext) (v : Nat) : DecompContext × Option Range :=
  ({ (d.label (!d.sym) d.pos).1 with pos := word64 (d.pos.toNat + 1), sym := nextSym d.sym v },
    (d.label (!d.sym) d.pos).2)

/-- `DecodeValue(v)` and the range it produced, of which there is at most one (R150, R154). -/
def DecompContext.decodeValue (d : DecompContext) (v : Nat) : DecompContext × Option Range :=
  (((d.labelSpan v).1.labelSingle v).1, (d.labelSpan v).2.or ((d.labelSpan v).1.labelSingle v).2)

/-- `EndOfStream()` (R155). -/
def DecompContext.endOfStream (d : DecompContext) : DecompContext × Option Range :=
  if d.dopen then ({ d with dopen := false }, some (d.dstart, d.pos - 1)) else (d, none)

end Sys2Proof.Machine
end

