-- ==== Sys2Proof/Machine/RangeMerger.lean ====
section
/-! DEFINITION. range_merger (40_range_merger.md): elements in, flat values out into `C.flatq`. -/

namespace Sys2Proof.Machine

/-- `Push(C.flatq, v)` (00_scope.md R14). The FIFO is empty whenever range_merger pushes, so there is no overflow case
(41_gap_run_automaton.md R141, log 9). -/
def CompContext.push (c : CompContext) (v : Word33) : CompContext := { c with flatq := c.flatq ++ [v] }

/-- The gap before the open range: `C.ps - C.lee - 1`, exact (R116, R117). -/
def CompContext.gap (c : CompContext) : Word33 := flatValue (c.ps.toNat - c.lee.toInt - 1)

/-- The length of the open range: `C.pe - C.ps + 1`, exact (R116, R117). -/
def CompContext.runLength (c : CompContext) : Word33 := flatValue ((c.pe.toNat : Int) - c.ps.toNat + 1)

/-- Push the open range's gap and length and record its end (the lines R116 and R117 share). -/
def CompContext.closeRange (c : CompContext) : CompContext :=
  { (c.push c.gap).push c.runLength with lee := c.pe.setWidth 33 }

/-- InvalidRange with the offending element (60_exceptions.md R251, R254). -/
def invalidRange (start stop : Word32) : Raised :=
  { status := .invalidRange, info0 := zext32 start, info1 := zext32 stop }

/-- `MergerAccept(start, end)` (R111 to R116). -/
def mergerAccept (start stop : Word32) (c : CompContext) : Except Raised CompContext :=
  if stop < start then .error (invalidRange start stop)
  else if !c.nhave then .ok { c with ps := start, pe := stop, nhave := true }
  else if start ≤ c.pe then .error (invalidRange start stop)
  else if start.toNat = c.pe.toNat + 1 then .ok { c with pe := stop }
  else .ok { c.closeRange with ps := start, pe := stop }

/-- `MergerEnd()` (R117). -/
def mergerEnd (c : CompContext) : CompContext :=
  if c.nhave then { c.closeRange with eoi := true, nhave := false } else { c with eoi := true }

end Sys2Proof.Machine
end

