-- ==== Sys2Proof/Machine/Compress.lean ====
section
/-! DEFINITION. The meanings of the compression commands (44_compress_commands.md). Each answers a next state: the
response stands in `State.resp`. -/

namespace Sys2Proof.Machine

/-- The compression context C.INIT leaves: every register at a value given by the operand alone (R200). OBUF's bytes stay,
for `C.bitlen = 0` hides them (20_memory.md R62, log 11). -/
def CompContext.init (c : CompContext) (maxsize : Word32) : CompContext :=
  { CompContext.reset with cphase := .opened, maxsize := maxsize, obuf := c.obuf }

/-- C.INIT `maxsize` (R200). -/
def execCInit (maxsize : Word32) (s : State) : Host.Outcome State Fault Refusal :=
  .next (if s.params.obufBytes < byteCount maxsize then s.refuse (Instr.cInit maxsize).op
    else { s with c := s.c.init maxsize }.respondOk 0 0)

/-- C.PUSH `start, end` past its gate (R202): range_merger, then the automaton (R203). -/
def State.pushElement (s : State) (start stop : Word32) : State :=
  match mergerAccept start stop s.c with
  | .error e => s.raiseC s.c e
  | .ok c1 =>
    match runAutomaton s.params.granule c1 with
    | (c2, some e) => s.raiseC c2 e
    | (c2, none) => { s with c := c2 }.respondOk c2.bitlen 0

/-- C.PUSH `start, end` (R201, R202). -/
def execCPush (start stop : Word32) (s : State) : Host.Outcome State Fault Refusal :=
  .next (s.gateC .opened (Instr.cPush start stop).op (s.pushElement start stop))

/-- `Finalize()` and phase DONE (R206). -/
def CompContext.complete (c : CompContext) : CompContext := { finalize c with cphase := .done }

/-- C.FINISH past its gate (R206): the end of input, the automaton, then Finalize (R207). -/
def State.finish (s : State) : State :=
  match runAutomaton s.params.granule (mergerEnd s.c) with
  | (c2, some e) => s.raiseC c2 e
  | (c2, none) => { s with c := c2.complete }.respondOk (zext33 c2.complete.clen) c2.complete.bitlen

/-- C.FINISH (R201, R206). -/
def execCFinish (s : State) : Host.Outcome State Fault Refusal :=
  .next (s.gateC .opened Instr.cFinish.op s.finish)

/-- C.RDBYTE `addr` past its gate (R208). -/
def State.readOutput (s : State) (addr : Word32) : State :=
  if s.c.clen.toNat ≤ byteAddr addr then s.refuse (Instr.cRdbyte addr).op
  else s.respondOk ((s.c.outByte (byteAddr addr)).setWidth 64) 0

/-- C.RDBYTE `addr` (R201, R208). -/
def execCRdbyte (addr : Word32) (s : State) : Host.Outcome State Fault Refusal :=
  .next (s.gateC .done (Instr.cRdbyte addr).op (s.readOutput addr))

end Sys2Proof.Machine
end

