-- ==== Sys2Proof/Machine/Control.lean ====
section
/-! DEFINITION. The meanings of the control commands (46_control_commands.md) and the register map RDREG reads
(10_state.md R36). -/

namespace Sys2Proof.Machine

/-- An entry of `C.flatq` as a view: 0 where there is none (R36). -/
def flatqView (v : Option Word33) : Word64 := zext33 (v.getD 0)

/-- `View(index)`: the contents column of R36, none for an index not in the map. -/
def State.view (s : State) (index : Byte) : Option Word64 :=
  match index.toNat with
  | 0x00 => some (cStatusWord s.c)
  | 0x01 => some (zext32 s.c.maxsize)
  | 0x02 => some s.c.bitlen
  | 0x03 => some (zext33 s.c.clen)
  | 0x04 => some (zext33 s.c.cap)
  | 0x05 => some (zext32 s.c.ps)
  | 0x06 => some (zext32 s.c.pe)
  | 0x07 => some (sext33 s.c.lee)
  | 0x08 => some (zext33 s.c.rem)
  | 0x09 => some (flatqView s.c.flatq[0]?)
  | 0x0A => some (flatqView s.c.flatq[1]?)
  | 0x0B => some s.c.cinfo0
  | 0x0C => some s.c.cinfo1
  | 0x10 => some (dStatusWord s.d)
  | 0x11 => some (zext32 s.d.ilen)
  | 0x12 => some s.d.bpos
  | 0x13 => some s.d.pos
  | 0x14 => some s.d.dstart
  | 0x15 => some s.d.lastd
  | 0x16 => some s.d.nranges
  | 0x17 => some s.d.dinfo0
  | 0x1F => some Config.coreId
  | _ => none

/-- RDREG `index` (R240). -/
def execRdreg (index : Byte) (s : State) : Host.Outcome State Fault Refusal :=
  .next (match s.view index with
    | some v => s.respondOk v 0
    | none => s.refuse (Instr.rdreg index).op)

/-- NOP (R241). -/
def execNop (s : State) : Host.Outcome State Fault Refusal := .next (s.respondOk 0 0)

end Sys2Proof.Machine
end

