-- ==== Sys2Proof/Machine/Decompress.lean ====
section
/-! DEFINITION. The meanings of the decompression commands (45_decompress_commands.md). -/

namespace Sys2Proof.Machine

/-- The decompression context D.INIT leaves: every register at a value given by the operand alone, every `written` bit 0;
the IBUF byte values stay (R220). -/
def DecompContext.init (d : DecompContext) (len : Word32) : DecompContext :=
  { DecompContext.reset with dphase := .ready, ilen := len, ibuf := d.ibuf }

/-- D.INIT `len` (R220). -/
def execDInit (len : Word32) (s : State) : Host.Outcome State Fault Refusal :=
  .next (if s.params.ibufBytes < byteCount len then s.refuse (Instr.dInit len).op
    else { s with d := s.d.init len }.respondOk 0 0)

/-- One IBUF byte written, and its `written` bit set (R221). -/
def DecompContext.load (d : DecompContext) (addr : Nat) (byte : Byte) : DecompContext :=
  { d with ibuf := d.ibuf.write addr byte, written := markWritten d.written addr }

/-- D.LOAD `addr, byte` past its gate (R221). -/
def State.loadByte (s : State) (addr : Word32) (byte : Byte) : State :=
  if s.d.ilen.toNat ≤ byteAddr addr then s.refuse (Instr.dLoad addr byte).op
  else { s with d := s.d.load (byteAddr addr) byte }.respondOk 0 0

/-- D.LOAD `addr, byte` (R221) behind its phase gate (R222). -/
def execDLoad (addr : Word32) (byte : Byte) (s : State) : Host.Outcome State Fault Refusal :=
  .next (match s.d.dphase with
    | .ready => s.loadByte addr byte
    | .error => s.repeatD
    | .idle | .active | .done => s.refuse (Instr.dLoad addr byte).op)

/-- How the loop of D.NEXT ends: with a range, with the end of the stream and no range, or with LongZeroRun (R225). -/
inductive LoopEnd where
  | range (r : Range)
  | noRange
  | raised (e : Raised)
  deriving DecidableEq, Repr

/-- The end of the stream: the open run is closed and the phase is DONE (R224, 41_gap_run_automaton.md R155). -/
def DecompContext.finishStream (d : DecompContext) : DecompContext × LoopEnd :=
  match d.endOfStream with
  | (d', some r) => ({ d' with dphase := .done, nranges := d.nranges + 1 }, .range r)
  | (d', none) => ({ d' with dphase := .done }, .noRange)

/-- The loop of D.NEXT (R224, R225), at most `n` codewords: with `n` at least `8·D.ilen - D.bpos` the stream has ended
when none is left, since every codeword advances the cursor (log 10). -/
def decodeLoop : (n : Nat) → DecompContext → DecompContext × LoopEnd
  | 0, d => d.finishStream
  | n + 1, d =>
    if d.atEnd then d.finishStream
    else if d.zeros = Config.window then (d, .raised (longZeroRun d))
    else
      match d.advance.decodeValue d.codewordValue with
      | (d', some r) => ({ d' with nranges := d.nranges + 1 }, .range r)
      | (d', none) => decodeLoop n d'

/-- The loop from the cursor on. -/
def decodeNext (d : DecompContext) : DecompContext × LoopEnd := decodeLoop (8 * d.ilen.toNat - d.bpos.toNat) d

/-- UnwrittenInput with the lowest unwritten address (60_exceptions.md R254, R260). -/
def unwrittenInput (a : Nat) : Raised := { status := .unwrittenInput, info0 := word64 a, info1 := 0 }

/-- Decode and respond (R224). -/
def State.decodeRange (s : State) (d : DecompContext) : State :=
  match decodeNext d with
  | (d', .range r) => { s with d := d' }.respondOk r.1 r.2
  | (d', .noRange) => { s with d := d' }.respond Status.endOfRanges.code 0 0
  | (d', .raised e) => s.raiseD d' e

/-- The first D.NEXT after D.INIT: the input check, then decode (R224, 60_exceptions.md R260). -/
def State.startDecode (s : State) : State :=
  match firstUnwritten s.d.written s.d.ilen.toNat 0 with
  | some a => s.raiseD s.d (unwrittenInput a)
  | none => s.decodeRange { s.d with dphase := .active }

/-- D.NEXT (R224) behind its phase gate (R223, R228). -/
def execDNext (s : State) : Host.Outcome State Fault Refusal :=
  .next (match s.d.dphase with
    | .idle => s.refuse Instr.dNext.op
    | .ready => s.startDecode
    | .active => s.decodeRange s.d
    | .done => s.respond Status.endOfRanges.code 0 0
    | .error => s.repeatD)

end Sys2Proof.Machine
end

