-- ==== Sys2Proof/Machine/Dispatch.lean ====
section
/-! DEFINITION. One arm per command: the meaning of each. -/

namespace Sys2Proof.Machine

/-- The effect of one command (00_scope.md R8). -/
def exec (i : Instr) (s : State) : Host.Outcome State Fault Refusal :=
  match i with
  | .cInit maxsize => Sys2Proof.Machine.execCInit maxsize s
  | .cPush start stop => Sys2Proof.Machine.execCPush start stop s
  | .cFinish => Sys2Proof.Machine.execCFinish s
  | .cRdbyte addr => Sys2Proof.Machine.execCRdbyte addr s
  | .nop => Sys2Proof.Machine.execNop s
  | .dInit len => Sys2Proof.Machine.execDInit len s
  | .dLoad addr byte => Sys2Proof.Machine.execDLoad addr byte s
  | .dNext => Sys2Proof.Machine.execDNext s
  | .rdreg index => Sys2Proof.Machine.execRdreg index s

end Sys2Proof.Machine
end

