-- ==== Sys2Proof/Machine/Input.lean ====
section
/-! DEFINITION. What happens at the command port between commands: hardware reset (70_reset_and_hazards.md R280), and a
command word placed as the host's next input. -/

namespace Sys2Proof.Machine

/-- Hardware reset (R280): every register of both contexts at its value of 10_state.md R43; the parameters stay, and so do
the host's later inputs. The bytes of OBUF and IBUF, which R280 leaves unspecified and nothing can read, are those of
`State.reset`, and no response stands (log 6). -/
def State.hardwareReset (s : State) : State :=
  { State.reset with params := s.params, pending := s.pending }

/-- The command word `w` as the host's next input. -/
def State.issue (s : State) (w : CmdWord) : State := { s with pending := .command w :: s.pending }

end Sys2Proof.Machine
end

