-- ==== Sys2Proof/Machine/Step.lean ====
section
/-! DEFINITION. One step: the CORE takes the host's next input (00_scope.md R8). -/

namespace Sys2Proof.Machine

/-- One step. A command word that decodes runs its command; one that does not is refused with IllegalCommand and V0 = OP
(30_encoding.md R87, R88); a reset resets (70_reset_and_hazards.md R280); with nothing issued the CORE holds its state
(60_exceptions.md R272, log 4). -/
def step (s : State) : Host.Outcome State Fault Refusal :=
  match s.pending with
  | [] => .next s
  | .reset :: rest => .next { s with pending := rest }.hardwareReset
  | .command w :: rest =>
    match decode w with
    | .ok i => exec i { s with pending := rest }
    | .error e => .next ({ s with pending := rest }.refuse e.op)

/-- `s` with the word `w` of `nbits` bits issued as the host's next command, where `step` takes it (log 2). -/
def State.withFetchWord (s : State) (nbits w : Nat) : State := s.issue (BitVec.ofNat 72 (w % 2 ^ nbits))

end Sys2Proof.Machine
end

