-- ==== Sys2Proof/Machine/Assembler.lean ====
section
/-! DEFINITION. The assembler of 30_encoding.md R91 to R93: one line of text to a line, a line to commands, a command to
its word. It belongs to the host's side; the CORE sees only the words (log 13). -/

namespace Sys2Proof.Machine

/-! ### Lines to commands -/

/-- The index of a register name (10_state.md R36). -/
def regIndex : RegName → Byte
  | .cStatus => 0x00
  | .cMaxsize => 0x01
  | .cBitlen => 0x02
  | .cLen => 0x03
  | .cCap => 0x04
  | .cPrevStart => 0x05
  | .cPrevEnd => 0x06
  | .cLastEnd => 0x07
  | .cRem => 0x08
  | .cQ0 => 0x09
  | .cQ1 => 0x0A
  | .cInfo0 => 0x0B
  | .cInfo1 => 0x0C
  | .dStatus => 0x10
  | .dLen => 0x11
  | .dBitpos => 0x12
  | .dPos => 0x13
  | .dOpenStart => 0x14
  | .dLastD => 0x15
  | .dNranges => 0x16
  | .dInfo0 => 0x17
  | .coreId => 0x1F

/-- `D.LOAD a, b0`, `D.LOAD a + 1, b1`, … (R92). -/
def loadsFrom (a : Nat) : List Nat → List Instr
  | [] => []
  | b :: bs => .dLoad (BitVec.ofNat 32 a) (BitVec.ofNat 8 b) :: loadsFrom (a + 1) bs

/-- The commands of a line whose literals fit: a command is itself, a pseudo-instruction its expansion (R92). -/
def expand : AsmLine → List Instr
  | .cInit none => [.cInit (BitVec.ofNat 32 Config.maxsizeDefault)]
  | .cInit (some n) => [.cInit (BitVec.ofNat 32 n)]
  | .cPush a b => [.cPush (BitVec.ofNat 32 a) (BitVec.ofNat 32 b)]
  | .cPushN n => [.cPush (BitVec.ofNat 32 n) (BitVec.ofNat 32 n)]
  | .cFinish => [.cFinish]
  | .cRdbyte a => [.cRdbyte (BitVec.ofNat 32 a)]
  | .nop => [.nop]
  | .dInit n => [.dInit (BitVec.ofNat 32 n)]
  | .dLoad a b => [.dLoad (BitVec.ofNat 32 a) (BitVec.ofNat 8 b)]
  | .dBuf bs => .dInit (BitVec.ofNat 32 bs.length) :: loadsFrom 0 bs
  | .dNext => [.dNext]
  | .rdreg (.literal n) => [.rdreg (BitVec.ofNat 8 n)]
  | .rdreg (.name r) => [.rdreg (regIndex r)]

/-- The commands of a line, none where a literal does not fit its field: an assembly error (R91). -/
def assemble (l : AsmLine) : Option (List Instr) := if l.wf then some (expand l) else none

/-! ### Text to lines -/

/-- White space inside a line (log 13). -/
def isBlank (ch : Char) : Bool := ch == ' ' || ch == '\t' || ch == '\r'

/-- The text without white space at its ends. -/
def trim (t : List Char) : List Char := ((t.dropWhile isBlank).reverse.dropWhile isBlank).reverse

/-- The text before the comment, which runs from `;` to the end of the line (R91). -/
def withoutComment (t : List Char) : List Char := t.takeWhile (· != ';')

/-- The pieces of the text between commas. -/
def splitCommas : List Char → List (List Char)
  | [] => [[]]
  | ch :: t =>
    if ch == ',' then [] :: splitCommas t
    else
      match splitCommas t with
      | [] => [[ch]]
      | w :: ws => (ch :: w) :: ws

/-- The operands after the mnemonic. -/
def operandTexts (t : List Char) : List (List Char) :=
  if (trim t).isEmpty then [] else (splitCommas t).map trim

/-- The value of a digit in any base up to 16. -/
def digitValue (ch : Char) : Option Nat :=
  if '0' ≤ ch ∧ ch ≤ '9' then some (ch.toNat - '0'.toNat)
  else if 'a' ≤ ch ∧ ch ≤ 'f' then some (ch.toNat - 'a'.toNat + 10)
  else if 'A' ≤ ch ∧ ch ≤ 'F' then some (ch.toNat - 'A'.toNat + 10)
  else none

/-- The number the digits stand for in the base, with `acc` before them. -/
def digits (base acc : Nat) : List Char → Option Nat
  | [] => some acc
  | ch :: t =>
    match digitValue ch with
    | some v => if v < base then digits base (base * acc + v) t else none
    | none => none

/-- An integer literal: decimal, or hexadecimal with the prefix `0x` (R91). -/
def literal : List Char → Option Nat
  | [] => none
  | '0' :: 'x' :: [] => none
  | '0' :: 'x' :: t => digits 16 0 t
  | t => digits 10 0 t

/-- The register names as a line spells them (10_state.md R36, R91). -/
def regNames : List (String × RegName) :=
  [ ("C_STATUS", .cStatus), ("C_MAXSIZE", .cMaxsize), ("C_BITLEN", .cBitlen), ("C_LEN", .cLen), ("C_CAP", .cCap),
    ("C_PREV_START", .cPrevStart), ("C_PREV_END", .cPrevEnd), ("C_LAST_END", .cLastEnd), ("C_REM", .cRem),
    ("C_Q0", .cQ0), ("C_Q1", .cQ1), ("C_INFO0", .cInfo0), ("C_INFO1", .cInfo1), ("D_STATUS", .dStatus),
    ("D_LEN", .dLen), ("D_BITPOS", .dBitpos), ("D_POS", .dPos), ("D_OPEN_START", .dOpenStart),
    ("D_LAST_D", .dLastD), ("D_NRANGES", .dNranges), ("D_INFO0", .dInfo0), ("CORE_ID", .coreId) ]

/-- RDREG's operand: a literal or a register name (R91). -/
def regOperand (t : List Char) : Option RegOperand :=
  match literal t with
  | some n => some (.literal n)
  | none => (regNames.find? fun p => p.1.toList == t).map fun p => .name p.2

/-- The literals of all operands. -/
def literals : List (List Char) → Option (List Nat)
  | [] => some []
  | t :: ts =>
    match literal t, literals ts with
    | some n, some ns => some (n :: ns)
    | _, _ => none

/-- The command or pseudo-instruction with no operand. -/
def parseNone (mnemonic : List Char) : Option AsmLine :=
  if mnemonic == "C.INIT".toList then some (.cInit none)
  else if mnemonic == "C.FINISH".toList then some .cFinish
  else if mnemonic == "NOP".toList then some .nop
  else if mnemonic == "D.NEXT".toList then some .dNext
  else if mnemonic == "D.BUF".toList then some (.dBuf [])
  else none

/-- The command or pseudo-instruction with literal operands. -/
def parseLiterals (mnemonic : List Char) (ns : List Nat) : Option AsmLine :=
  if mnemonic == "D.BUF".toList then some (.dBuf ns)
  else
    match ns with
    | [n] =>
      if mnemonic == "C.INIT".toList then some (.cInit (some n))
      else if mnemonic == "C.PUSHN".toList then some (.cPushN n)
      else if mnemonic == "C.RDBYTE".toList then some (.cRdbyte n)
      else if mnemonic == "D.INIT".toList then some (.dInit n)
      else none
    | [a, b] =>
      if mnemonic == "C.PUSH".toList then some (.cPush a b)
      else if mnemonic == "D.LOAD".toList then some (.dLoad a b)
      else none
    | _ => none

/-- The line a mnemonic and its operands make. -/
def parseCommand (mnemonic : List Char) (operands : List (List Char)) : Option AsmLine :=
  if mnemonic == "RDREG".toList then
    match operands with
    | [t] => (regOperand t).map .rdreg
    | _ => none
  else if operands.isEmpty then parseNone mnemonic
  else (literals operands).bind (parseLiterals mnemonic)

/-- One line of text (R91): `some none` where it holds no command, `none` where it is an error. Mnemonics are
case-insensitive. -/
def parseLine (t : List Char) : Option (Option AsmLine) :=
  let body := trim (withoutComment t)
  if body.isEmpty then some none
  else
    let mnemonic := body.takeWhile fun ch => !isBlank ch
    (parseCommand (mnemonic.map Char.toUpper) (operandTexts (body.drop mnemonic.length))).map some

/-- The commands of one line of text, none where it is an assembly error (R91, R92). -/
def assembleText (t : List Char) : Option (List Instr) :=
  match parseLine t with
  | some (some l) => assemble l
  | some none => some []
  | none => none

/-! ### Commands to hexadecimal -/

/-- The `n` hexadecimal digits of a word, most significant first (R93). -/
def hexDigits (w : Nat) : (n : Nat) → List Char
  | 0 => []
  | n + 1 => Nat.digitChar (w / 16 ^ n % 16) :: hexDigits w n

/-- A command word in hexadecimal: 18 digits, OP, A, B (R93), with the capital letters of the spec's examples. -/
def hexWord (i : Instr) : List Char := (hexDigits (encode i).toNat 18).map Char.toUpper

end Sys2Proof.Machine
end

