-- ==== Sys2Proof/Safety.lean ====
section
/-! DEFINITION. What claims about the machine are said in: the state a command leaves, the invariant of the reachable
states, and what a context shows of its buffers. -/

namespace Sys2Proof.Machine

/-! ### What a command leaves -/

/-- The state command `i` leaves (every command answers a next state, so the other arms are never taken). -/
def State.after (s : State) (i : Instr) : State :=
  match exec i s with
  | .next t => t
  | .fault _ => s
  | .refused _ => s

/-- The state the commands leave, one after another. -/
def State.afterAll (s : State) (is : List Instr) : State := is.foldl State.after s

/-- The responses the commands give, in order (30_encoding.md R83). -/
def State.responses : State → List Instr → List (Option Response)
  | _, [] => []
  | s, i :: is => (s.after i).resp :: (s.after i).responses is

/-- The response of a command that completed: OK with the result words (30_encoding.md R84, R85). -/
def okResponse (v0 v1 : Word64) : Response := { status := Status.ok.code, v0 := v0, v1 := v1 }

/-- The response END (R85). -/
def endResponse : Response := { status := Status.endOfRanges.code, v0 := 0, v1 := 0 }

/-- The response of a refusal (60_exceptions.md R257). -/
def illegalResponse (op : Byte) : Response := { status := Status.illegalCommand.code, v0 := op.setWidth 64, v1 := 0 }

/-- The response of a raised error (60_exceptions.md R255). -/
def Raised.response (e : Raised) : Response := { status := e.status.code, v0 := e.info0, v1 := e.info1 }

/-! ### Streams -/

/-- The codeword of `x`: `k` zeros and then the `k + 1` bits of `x`, most significant first (30_encoding.md R96,
42_elias_gamma.md R160). -/
def codeword (x : Nat) : List Bool :=
  List.replicate (Nat.log2 x) false ++ (List.range (Nat.log2 x + 1)).map fun j => x.testBit (Nat.log2 x - j)

/-- The codewords of the integers, one after another (30_encoding.md R95). -/
def codewords (xs : List Nat) : List Bool := xs.flatMap codeword

/-- How many bits the codewords of the integers have together (42_elias_gamma.md R162). -/
def streamLength (xs : List Nat) : Nat := (xs.map codewordLength).sum

/-- `C.cbits` as the sequence of its bits (10_state.md R29). -/
def CompContext.bits (c : CompContext) : List Bool := (List.range c.bitlen.toNat).map c.cbit

/-- The stream in IBUF as the sequence of its bits (20_memory.md R63). -/
def DecompContext.bits (d : DecompContext) : List Bool := (List.range (8 * d.ilen.toNat)).map d.inBit

/-! ### The integers a flat sequence emits, in exact integers (41_gap_run_automaton.md R132 to R138) -/

/-- What phase RUN emits before its next pull: nothing at 0; the whole count, synchronized; the single 1 and then what is
left of the count, unsynchronized (R134 to R136). -/
def runEmits (async : Bool) (rem : Nat) : List Nat :=
  if rem = 0 then [] else if async then [rem + 1] else if rem = 1 then [1] else [1, rem]

/-- What phase RUN emits, with flat values still to come (R134 to R138). -/
def emitsFrom : (async : Bool) → (rem : Nat) → List Nat → List Nat
  | a, rem, [] => runEmits a rem
  | a, rem, v :: vs =>
    if rem = 0 then emitsFrom a v vs
    else if a = false ∧ rem = 1 then 1 :: emitsFrom false v vs
    else runEmits a rem ++ emitsFrom (v - 1 == 0) (v - 1) vs

/-- What the automaton emits from where it stands, given the flat values still to come (R132 to R138). -/
def CompContext.emits (c : CompContext) (vs : List Nat) : List Nat :=
  match c.aphase, vs with
  | .unseeded, v :: vs => emitsFrom (v != 0) v vs
  | .run, vs => emitsFrom c.async c.rem.toNat vs
  | .pullTop, v :: vs => emitsFrom c.async v vs
  | .pullAfterEmit, v :: vs => emitsFrom (v - 1 == 0) (v - 1) vs
  | _, _ => []

/-- The flat values of the open range: the gap before it and its length (40_range_merger.md R116). -/
def CompContext.openFlat (c : CompContext) : List Nat :=
  [((c.ps.toNat : Int) - c.lee.toInt - 1).toNat, c.pe.toNat - c.ps.toNat + 1]

/-- The flat values the end of the input adds (R117). -/
def CompContext.finalFlat (c : CompContext) : List Nat := if c.nhave then c.openFlat else []

/-- The codewords of the integers can all be packed from here: each is in range, and the required size stays within the
cap (42_elias_gamma.md R161, 43_bitstream.md R183). -/
def CompContext.Packs (g : Config.Granule) (c : CompContext) (xs : List Nat) : Prop :=
  (∀ x ∈ xs, x ≤ Config.gammaMax) ∧
  (xs = [] ∨ requiredBytes g (c.bitlen.toNat + streamLength xs) ≤ c.maxsize.toNat)

/-- The error that packing `x` raises, where it raises one: the range check first (R161, R183, 60_exceptions.md R261). -/
def CompContext.PackFails (g : Config.Granule) (c : CompContext) (x : Nat) (e : Raised) : Prop :=
  (Config.gammaMax < x ∧ e = encodingRangeExceeded x) ∨
  (x ≤ Config.gammaMax ∧ c.maxsize.toNat < requiredBytes g (c.bitlen.toNat + codewordLength x) ∧
    e = bufferCapacityExceeded (requiredBytes g (c.bitlen.toNat + codewordLength x)) c.maxsize)

/-- The count of leading zeros at the cursor is `k`: 32 when 32 zeros follow (42_elias_gamma.md R164). -/
def DecompContext.ZerosAt (d : DecompContext) (k : Nat) : Prop :=
  k ≤ 32 ∧ (∀ j < k, d.inBit (d.bpos.toNat + j) = false) ∧ (k < 32 → d.inBit (d.bpos.toNat + k) = true)

/-! ### Whole compressions and decompressions (00_scope.md R19) -/

/-- A range of the domain, both ends inclusive. -/
abbrev Span := Nat × Nat

/-- The position is in one of the ranges. -/
def covers (rs : List Span) (n : Nat) : Prop := ∃ r ∈ rs, r.1 ≤ n ∧ n ≤ r.2

/-- A canonical run sequence: disjoint, non-adjacent, ascending inclusive ranges (00_scope.md R17). -/
def Canonical (rs : List Span) : Prop := (∀ r ∈ rs, r.1 ≤ r.2) ∧ rs.Pairwise fun r q => r.2 + 1 < q.1

/-- The commands of one compression of the elements. -/
def compression (maxsize : Word32) (elements : List (Word32 × Word32)) : List Instr :=
  .cInit maxsize :: elements.map (fun e => .cPush e.1 e.2) ++ [.cFinish]

/-- The commands that load the output of a compression as the input of a decompression. -/
def CompContext.reload (c : CompContext) : List Instr :=
  .dInit (c.clen.setWidth 32) :: (List.range c.clen.toNat).map fun j => .dLoad (BitVec.ofNat 32 j) (c.outByte j)

/-- The response of a D.NEXT that returns the range. -/
def spanResponse (r : Span) : Response := okResponse (word64 r.1) (word64 r.2)

/-- The ranges that the D.NEXT commands among the commands return with status OK, in order. -/
def State.ranges : State → List Instr → List Span
  | _, [] => []
  | s, i :: is =>
    match i, (s.after i).resp with
    | .dNext, some r =>
      if r.status = Status.ok.code then (r.v0.toNat, r.v1.toNat) :: (s.after i).ranges is else (s.after i).ranges is
    | _, _ => (s.after i).ranges is

/-! ### The invariant -/

/-- The automaton stands at a pull: its next step needs a flat value (41_gap_run_automaton.md R131). -/
abbrev APhase.Pulls (a : APhase) : Prop := a = .unseeded ∨ a = .pullTop ∨ a = .pullAfterEmit

/-- Nothing is queued and more input may come: what an accepted C.PUSH or C.INIT leaves (R139, R141). -/
abbrev CompContext.Waiting (c : CompContext) : Prop := c.flatq = [] ∧ c.eoi = false ∧ c.aphase.Pulls

/-- The error latch of the compression context (10_state.md R23, R37). -/
abbrev CompContext.LatchInv (c : CompContext) : Prop :=
  (c.cphase = .error ↔ c.cerr ≠ 0) ∧
  (c.cerr = 0 → c.cinfo0 = 0 ∧ c.cinfo1 = 0) ∧
  (c.cerr = 0x0 ∨ c.cerr = 0x8 ∨ c.cerr = 0x9 ∨ c.cerr = 0xA)

/-- range_merger's registers (40_range_merger.md R113, R116, R118). -/
abbrev CompContext.MergerInv (c : CompContext) : Prop :=
  -1 ≤ c.lee.toInt ∧
  (c.nhave = true → c.ps ≤ c.pe ∧ (c.lee.toInt = -1 ∨ c.lee.toInt + 2 ≤ c.ps.toNat)) ∧
  (c.cphase = .opened → c.Waiting ∧ c.clen = 0 ∧ (c.aphase = .unseeded ↔ c.lee.toInt = -1) ∧
    (c.nhave = false → c.lee.toInt = -1))

/-- The automaton's registers hold values of the sizes R11 gives, and the FIFO at most two (R118, R141). -/
abbrev CompContext.AutoInv (c : CompContext) : Prop :=
  c.rem.toNat ≤ 2 ^ 32 ∧ c.flatq.length ≤ Config.flatqDepth ∧ ∀ n ∈ c.flatq.map BitVec.toNat, n ≤ 2 ^ 32

/-- The packer's registers: no output beyond the cap, no capacity beyond it, no byte outside OBUF (43_bitstream.md R183 to
R185, 20_memory.md R60, R61). -/
abbrev CompContext.BufferInv (p : Config.Params) (c : CompContext) : Prop :=
  c.maxsize.toNat ≤ p.obufBytes ∧
  c.bitlen.toNat ≤ 8 * c.cap.toNat ∧
  c.cap.toNat ≤ c.maxsize.toNat ∧
  c.clen.toNat ≤ c.cap.toNat ∧
  c.obuf.Wf ∧
  ∀ x ∈ c.obuf, x.1 < p.obufBytes

/-- DONE: the input has ended, the automaton has drained it, and the output has its exact size (R185, R206, R207). -/
abbrev CompContext.DoneInv (c : CompContext) : Prop :=
  c.cphase = .done → c.eoi = true ∧ c.nhave = false ∧ c.flatq = [] ∧ c.aphase = .done ∧
    c.clen.toNat = ceilDiv c.bitlen.toNat 8 ∧ c.cap = c.clen

/-- The invariant of the compression context. -/
abbrev CompContext.Inv (p : Config.Params) (c : CompContext) : Prop :=
  c.LatchInv ∧ c.MergerInv ∧ c.AutoInv ∧ c.BufferInv p ∧ c.DoneInv

/-- The error latch of the decompression context (10_state.md R31, R38). -/
abbrev DecompContext.LatchInv (d : DecompContext) : Prop :=
  (d.dphase = .error ↔ d.derr ≠ 0) ∧ (d.derr = 0 → d.dinfo0 = 0) ∧
  (d.derr = 0x0 ∨ d.derr = 0xB ∨ d.derr = 0xC)

/-- The cursors: the bit cursor passes the end by less than a codeword, and `D.pos` stays in proportion to it, so that no
64-bit register overflows (45_decompress_commands.md R226). -/
abbrev DecompContext.CursorInv (d : DecompContext) : Prop :=
  d.bpos.toNat ≤ 8 * d.ilen.toNat + 62 ∧
  63 * d.pos.toNat ≤ (2 ^ 32 - 1) * d.bpos.toNat ∧
  d.nranges.toNat ≤ d.bpos.toNat + 1 ∧
  (d.dphase ≠ .done → d.nranges.toNat ≤ d.bpos.toNat) ∧
  (d.dopen = true → d.dstart.toNat < d.pos.toNat)

/-- The phases: READY has decoded nothing; once decoding has begun every byte of the stream is written (10_state.md R44,
45_decompress_commands.md R220, R224). -/
abbrev DecompContext.PhaseInv (d : DecompContext) : Prop :=
  (d.dphase = .idle ∨ d.dphase = .ready → d.bpos = 0 ∧ d.pos = 0 ∧ d.sym = false ∧ d.dopen = false ∧ d.lastd = 0 ∧ d.nranges = 0) ∧
  (d.dphase = .active ∨ d.dphase = .done → ∀ a < d.ilen.toNat, a ∈ d.written) ∧
  (d.dphase = .done → d.dopen = false)

/-- IBUF: the stream fits, `written` bits only below `D.ilen`, no byte outside IBUF (20_memory.md R60, R63, R64). -/
abbrev DecompContext.BufferInv (p : Config.Params) (d : DecompContext) : Prop :=
  d.ilen.toNat ≤ p.ibufBytes ∧ WrittenWf d.written ∧ (∀ a ∈ d.written, a < d.ilen.toNat) ∧
  d.ibuf.Wf ∧ ∀ x ∈ d.ibuf, x.1 < p.ibufBytes

/-- The invariant of the decompression context. -/
abbrev DecompContext.Inv (p : Config.Params) (d : DecompContext) : Prop :=
  d.LatchInv ∧ d.CursorInv ∧ d.PhaseInv ∧ d.BufferInv p

/-- The invariant of the machine: the parameters are legal, and both contexts are in order. -/
abbrev State.Inv (s : State) : Prop := s.params.Wf ∧ s.c.Inv s.params ∧ s.d.Inv s.params

end Sys2Proof.Machine
end

