-- ==== Sys2Proof/Certificates/Slice0/Obligations.lean ====
section
/-! DEFINITION. The statements for the provers. Each docstring names the rules of spec/ it rests on; OBLIGATIONS.json holds
their titles, tiers and quotes. -/

open Sys2Proof
open Sys2Proof.Machine

/-! ### Encoding -/

/-- Decoding and encoding are inverse: a word decodes to a command exactly if it is that command's word (R80 to R82, R86,
R88). -/
def Obligations.EncodeAndDecodeAgree : Prop :=
  ∀ (w : CmdWord) (i : Instr), decode w = .ok i ↔ i.wf = true ∧ w = encode i

/-- The decoder accepts a word exactly if a row of spec/opcode_table.json matches it: its fixed bits and its reserved bits
(R86 to R88). -/
def Obligations.DecoderAcceptsExactlyTheTable : Prop :=
  ∀ w : CmdWord, (∃ i, decode w = .ok i) ↔ ∃ r ∈ opcodeTable, w &&& r.mask = r.pattern

/-- Words that the spec writes out decode to the commands it writes them for (R93, 44_compress_commands.md,
45_decompress_commands.md, 46_control_commands.md, 95_test_vectors.md). -/
def Obligations.SpecWordsDecode : Prop :=
  decode 0x010100000000000000#72 = .ok (.cInit 16777216#32) ∧
  decode 0x020000000300000007#72 = .ok (.cPush 3#32 7#32) ∧
  decode 0x030000000000000000#72 = .ok .cFinish ∧
  decode 0x040000000200000000#72 = .ok (.cRdbyte 2#32) ∧
  decode 0x0F0000000000000000#72 = .ok .nop ∧
  decode 0x110000000900000000#72 = .ok (.dInit 9#32) ∧
  decode 0x12000000040000007F#72 = .ok (.dLoad 4#32 0x7F#8) ∧
  decode 0x130000000000000000#72 = .ok .dNext ∧
  decode 0x200000001F00000000#72 = .ok (.rdreg 0x1F#8)

/-! ### Steps -/

/-- R87: a command word with a reserved OP is refused, whatever the state, and nothing else changes. (The word the host
issues stands first in `pending`, log 2.) -/
def Obligations.ReservedOpcodeIsRefused : Prop :=
  ∀ (s : State) (w : CmdWord) (rest : List HostInput), s.pending = .command w :: rest →
    ((opField w).toNat = 0x00 ∨ (0x05 ≤ (opField w).toNat ∧ (opField w).toNat ≤ 0x0E) ∨ (opField w).toNat = 0x10 ∨
      (0x14 ≤ (opField w).toNat ∧ (opField w).toNat ≤ 0x1F) ∨ 0x21 ≤ (opField w).toNat) →
    step s = .next { s with pending := rest, resp := some { status := 0xD, v0 := (opField w).setWidth 64, v1 := 0 } }

/-- R88: a command word whose OP is defined and whose reserved operand bits are not all zero is refused before anything
else is looked at, and nothing else changes. (The word the host issues stands first in `pending`, log 2.) -/
def Obligations.ReservedBitsAreRefused : Prop :=
  ∀ (s : State) (w : CmdWord) (rest : List HostInput), s.pending = .command w :: rest →
    ((opField w ∈ ([0x01, 0x04, 0x11] : List Byte) ∧ bField w ≠ 0) ∨
      (opField w ∈ ([0x03, 0x0F, 0x13] : List Byte) ∧ (aField w ≠ 0 ∨ bField w ≠ 0)) ∨
      (opField w = 0x12 ∧ (bField w).extractLsb' 8 24 ≠ 0) ∨
      (opField w = 0x20 ∧ ((aField w).extractLsb' 8 24 ≠ 0 ∨ bField w ≠ 0))) →
    step s = .next { s with pending := rest, resp := some { status := 0xD, v0 := (opField w).setWidth 64, v1 := 0 } }

/-- A step takes the host's next command word, which leaves `pending` (log 2), and runs the command it decodes to (R8, R81). -/
def Obligations.StepRunsTheDecodedCommand : Prop :=
  ∀ (s : State) (w : CmdWord) (rest : List HostInput) (i : Instr), s.pending = .command w :: rest → decode w = .ok i →
    i.wf = true ∧ step s = exec i { s with pending := rest }

/-- R83: every command word, in every state, is answered by one response; the step takes that word alone from the host's
inputs (log 2), and no command changes a parameter (R282). -/
def Obligations.EveryCommandWordIsAnswered : Prop :=
  ∀ (s : State) (w : CmdWord) (rest : List HostInput), s.pending = .command w :: rest →
    ∃ t r, step s = .next t ∧ t.resp = some r ∧ t.pending = rest ∧ t.params = s.params

/-- R272: with nothing issued (log 2) the CORE holds its state (log 4). -/
def Obligations.IdleStepHoldsTheState : Prop :=
  ∀ s : State, s.pending = [] → step s = .next s

/-- Hardware reset puts every register of both contexts at the value of R43 and changes no parameter (R280). The bytes of
OBUF and IBUF, which R280 leaves unspecified, are not spoken of; that `resp` is cleared and the later inputs stay is the
model's choice (log 6). -/
def Obligations.HardwareResetSetsEveryRegister : Prop :=
  ∀ (s : State) (rest : List HostInput), s.pending = .reset :: rest →
    ∃ t, step s = .next t ∧ t.params = s.params ∧ t.pending = rest ∧ t.resp = none ∧
      t.c.cphase = .idle ∧ t.c.cerr = 0 ∧ t.c.cinfo0 = 0 ∧ t.c.cinfo1 = 0 ∧ t.c.maxsize = 16777216 ∧
      t.c.nhave = false ∧ t.c.ps = 0 ∧ t.c.pe = 0 ∧ t.c.lee.toInt = -1 ∧ t.c.eoi = false ∧ t.c.flatq = [] ∧
      t.c.aphase = .unseeded ∧ t.c.async = false ∧ t.c.rem = 0 ∧ t.c.bitlen = 0 ∧ t.c.cap = 0 ∧ t.c.clen = 0 ∧
      t.d.dphase = .idle ∧ t.d.derr = 0 ∧ t.d.dinfo0 = 0 ∧ t.d.ilen = 0 ∧ t.d.written = [] ∧ t.d.bpos = 0 ∧
      t.d.pos = 0 ∧ t.d.sym = false ∧ t.d.dopen = false ∧ t.d.dstart = 0 ∧ t.d.lastd = 0 ∧ t.d.nranges = 0

/-- The state after reset has every register at the value of R43. That it has the default parameters of R10 and that nothing
is issued or answered in it are the model's choices (log 1, 2, 3). -/
def Obligations.StateAfterResetIsTheSpecs : Prop :=
  State.reset.params = { granule := .one, obufBytes := 16777216, ibufBytes := 16777216 } ∧
  State.reset.pending = [] ∧ State.reset.resp = none ∧
  State.reset.c = {
    cphase := .idle, cerr := 0, cinfo0 := 0, cinfo1 := 0, maxsize := 16777216, nhave := false, ps := 0, pe := 0
    lee := BitVec.ofInt 33 (-1), eoi := false, flatq := [], aphase := .unseeded, async := false, rem := 0, bitlen := 0
    cap := 0, clen := 0, obuf := State.reset.c.obuf } ∧
  State.reset.d = {
    dphase := .idle, derr := 0, dinfo0 := 0, ilen := 0, bpos := 0, pos := 0, sym := false, dopen := false, dstart := 0
    lastd := 0, nranges := 0, ibuf := State.reset.d.ibuf, written := [] }

/-! ### Control commands -/

/-- R240: RDREG of an index of the map of R36 answers the view of the contents column, and of any other index is refused;
nothing but the response changes. -/
def Obligations.RdregReadsTheViews : Prop :=
  ∀ s : State,
    (∀ v ∈ ([ (0x00, cStatusWord s.c), (0x01, s.c.maxsize.setWidth 64), (0x02, s.c.bitlen), (0x03, s.c.clen.setWidth 64),
        (0x04, s.c.cap.setWidth 64), (0x05, s.c.ps.setWidth 64), (0x06, s.c.pe.setWidth 64),
        (0x07, s.c.lee.signExtend 64), (0x08, s.c.rem.setWidth 64), (0x09, (s.c.flatq.getD 0 0).setWidth 64),
        (0x0A, (s.c.flatq.getD 1 0).setWidth 64), (0x0B, s.c.cinfo0), (0x0C, s.c.cinfo1),
        (0x10, dStatusWord s.d), (0x11, s.d.ilen.setWidth 64), (0x12, s.d.bpos), (0x13, s.d.pos), (0x14, s.d.dstart),
        (0x15, s.d.lastd), (0x16, s.d.nranges), (0x17, s.d.dinfo0), (0x1F, 0x534D4F4C00010007) ] : List (Byte × Word64)),
      exec (.rdreg v.1) s = .next { s with resp := some { status := 0x0, v0 := v.2, v1 := 0 } }) ∧
    (∀ index : Byte,
      ((0x0D ≤ index.toNat ∧ index.toNat ≤ 0x0F) ∨ (0x18 ≤ index.toNat ∧ index.toNat ≤ 0x1E) ∨ 0x20 ≤ index.toNat) →
      exec (.rdreg index) s = .next { s with resp := some { status := 0xD, v0 := 0x20, v1 := 0 } })

/-- R37: the fields of C_STATUS, and which of their values are never read. -/
def Obligations.CStatusHasItsFields : Prop :=
  ∀ s : State, s.Inv →
    (cStatusWord s.c).extractLsb' 0 3 =
      (match s.c.cphase with | .idle => 0 | .opened => 1 | .done => 2 | .error => 3) ∧
    (cStatusWord s.c).getLsbD 3 = false ∧
    (cStatusWord s.c).extractLsb' 4 4 = s.c.cerr ∧
    (s.c.cerr = 0 ∨ s.c.cerr = 0x8 ∨ s.c.cerr = 0x9 ∨ s.c.cerr = 0xA) ∧
    (cStatusWord s.c).getLsbD 8 = s.c.nhave ∧
    (cStatusWord s.c).getLsbD 9 = s.c.eoi ∧
    (cStatusWord s.c).getLsbD 10 = s.c.async ∧
    (cStatusWord s.c).getLsbD 11 = false ∧
    (cStatusWord s.c).extractLsb' 12 3 =
      (match s.c.aphase with | .unseeded => 0 | .run => 1 | .pullTop => 2 | .pullAfterEmit => 3 | .done => 4) ∧
    (cStatusWord s.c).getLsbD 15 = false ∧
    ((cStatusWord s.c).extractLsb' 16 2).toNat = s.c.flatq.length ∧
    s.c.flatq.length ≤ 2 ∧
    (cStatusWord s.c).extractLsb' 18 46 = 0

/-- R38: the fields of D_STATUS, and which of their values are never read. -/
def Obligations.DStatusHasItsFields : Prop :=
  ∀ s : State, s.Inv →
    (dStatusWord s.d).extractLsb' 0 3 =
      (match s.d.dphase with | .idle => 0 | .ready => 1 | .active => 2 | .done => 3 | .error => 4) ∧
    (dStatusWord s.d).getLsbD 3 = false ∧
    (dStatusWord s.d).extractLsb' 4 4 = s.d.derr ∧
    (s.d.derr = 0 ∨ s.d.derr = 0xB ∨ s.d.derr = 0xC) ∧
    (dStatusWord s.d).getLsbD 8 = s.d.sym ∧
    (dStatusWord s.d).getLsbD 9 = s.d.dopen ∧
    (dStatusWord s.d).extractLsb' 10 54 = 0

/-- R241: NOP answers OK, 0, 0 and changes nothing. -/
def Obligations.NopDoesNothing : Prop :=
  ∀ s : State, exec .nop s = .next { s with resp := some { status := 0x0, v0 := 0, v1 := 0 } }

/-! ### Compression commands -/

/-- R200: C.INIT, in every phase, is refused with no change where its operand exceeds OBUF_BYTES, and otherwise leaves every
register of the compression context at a value its operand alone gives; the rest of the machine stays. The bytes of OBUF are
not spoken of. -/
def Obligations.CInitStartsAnew : Prop :=
  ∀ (s : State) (maxsize : Word32),
    (s.params.obufBytes < maxsize.toNat →
      exec (.cInit maxsize) s = .next { s with resp := some { status := 0xD, v0 := 0x01, v1 := 0 } }) ∧
    (maxsize.toNat ≤ s.params.obufBytes →
      ∃ obuf, exec (.cInit maxsize) s = .next { s with
        c := {
          cphase := .opened, cerr := 0, cinfo0 := 0, cinfo1 := 0, maxsize := maxsize, nhave := false, ps := 0, pe := 0
          lee := BitVec.ofInt 33 (-1), eoi := false, flatq := [], aphase := .unseeded, async := false, rem := 0
          bitlen := 0, cap := 0, clen := 0, obuf := obuf }
        resp := some { status := 0x0, v0 := 0, v1 := 0 } })

/-- R201: the phase gate of C.PUSH, C.FINISH and C.RDBYTE. -/
def Obligations.CompressionPhaseGate : Prop :=
  ∀ (s : State) (start stop addr : Word32),
    (s.c.cphase = .idle →
      exec (.cPush start stop) s = .next { s with resp := some { status := 0xD, v0 := 0x02, v1 := 0 } } ∧
      exec .cFinish s = .next { s with resp := some { status := 0xD, v0 := 0x03, v1 := 0 } } ∧
      exec (.cRdbyte addr) s = .next { s with resp := some { status := 0xD, v0 := 0x04, v1 := 0 } }) ∧
    (s.c.cphase = .opened →
      exec (.cPush start stop) s = .next (s.pushElement start stop) ∧
      exec .cFinish s = .next s.finish ∧
      exec (.cRdbyte addr) s = .next { s with resp := some { status := 0xD, v0 := 0x04, v1 := 0 } }) ∧
    (s.c.cphase = .done →
      exec (.cPush start stop) s = .next { s with resp := some { status := 0xD, v0 := 0x02, v1 := 0 } } ∧
      exec .cFinish s = .next { s with resp := some { status := 0xD, v0 := 0x03, v1 := 0 } } ∧
      exec (.cRdbyte addr) s = .next (s.readOutput addr)) ∧
    (s.c.cphase = .error →
      exec (.cPush start stop) s = .next { s with resp := some { status := s.c.cerr, v0 := s.c.cinfo0, v1 := s.c.cinfo1 } } ∧
      exec .cFinish s = .next { s with resp := some { status := s.c.cerr, v0 := s.c.cinfo0, v1 := s.c.cinfo1 } } ∧
      exec (.cRdbyte addr) s =
        .next { s with resp := some { status := s.c.cerr, v0 := s.c.cinfo0, v1 := s.c.cinfo1 } })

/-- R112, R114: in OPEN, an element that is backwards, or that begins at or before the end of the open range, raises
InvalidRange with the element; the merger, the automaton and the packer stay as they were. -/
def Obligations.InvalidElementIsLatched : Prop :=
  ∀ (s : State) (start stop : Word32), s.c.cphase = .opened →
    (stop.toNat < start.toNat ∨ (s.c.nhave = true ∧ start.toNat ≤ s.c.pe.toNat)) →
    exec (.cPush start stop) s = .next { s with
      c := { s.c with cphase := .error, cerr := 0x8, cinfo0 := start.setWidth 64, cinfo1 := stop.setWidth 64 }
      resp := some { status := 0x8, v0 := start.setWidth 64, v1 := stop.setWidth 64 } }

/-- R113: in OPEN, the first element opens a range and emits nothing; the response carries `C.bitlen`. -/
def Obligations.FirstElementOpensARange : Prop :=
  ∀ (s : State) (start stop : Word32), s.Inv → s.c.cphase = .opened → s.c.nhave = false → start.toNat ≤ stop.toNat →
    exec (.cPush start stop) s = .next { s with
      c := { s.c with ps := start, pe := stop, nhave := true }
      resp := some { status := 0x0, v0 := s.c.bitlen, v1 := 0 } }

/-- R115: in OPEN, an element that begins right after the open range extends it and emits nothing. -/
def Obligations.AdjacentElementExtendsTheRange : Prop :=
  ∀ (s : State) (start stop : Word32), s.Inv → s.c.cphase = .opened → s.c.nhave = true → start.toNat ≤ stop.toNat →
    start.toNat = s.c.pe.toNat + 1 →
    exec (.cPush start stop) s = .next { s with
      c := { s.c with pe := stop }
      resp := some { status := 0x0, v0 := s.c.bitlen, v1 := 0 } }

/-- R116: an element beyond the open range pushes the open range's gap and length, in this order, and opens its own range;
the gap is at least 1 after the first range. -/
def Obligations.MergerClosesAndOpens : Prop :=
  ∀ (c : CompContext) (start stop : Word32), c.MergerInv → c.nhave = true → start.toNat ≤ stop.toNat →
    c.pe.toNat + 1 < start.toNat →
    ∃ g r : Word33, (g.toNat : Int) = c.ps.toNat - c.lee.toInt - 1 ∧ (r.toNat : Int) = c.pe.toNat - c.ps.toNat + 1 ∧
      (c.lee.toInt ≠ -1 → 1 ≤ g.toNat) ∧
      mergerAccept start stop c =
        .ok { c with flatq := c.flatq ++ [g, r], lee := c.pe.setWidth 33, ps := start, pe := stop } ∧
      (c.pe.setWidth 33 : Word33).toInt = c.pe.toNat

/-- R117: the end of input sets `C.eoi`, and closes the open range if there is one, exactly once. -/
def Obligations.EndOfInputClosesTheRange : Prop :=
  ∀ c : CompContext, c.MergerInv →
    (c.nhave = false → mergerEnd c = { c with eoi := true }) ∧
    (c.nhave = true →
      ∃ g r : Word33, (g.toNat : Int) = c.ps.toNat - c.lee.toInt - 1 ∧ (r.toNat : Int) = c.pe.toNat - c.ps.toNat + 1 ∧
        mergerEnd c = { c with eoi := true, flatq := c.flatq ++ [g, r], lee := c.pe.setWidth 33, nhave := false })

/-- In OPEN, an element beyond the open range is accepted wherever the codewords of the open range's gap and length fit the
cap: they are appended to the stream, the automaton goes on from there, the range is closed and the element's opened, and
nothing else changes (R116, R139, R140, R202). A C.PUSH never exceeds the encoder's range (R144). -/
def Obligations.FartherElementIsEncoded : Prop :=
  ∀ (s : State) (start stop : Word32), s.Inv → s.c.cphase = .opened → s.c.nhave = true → start.toNat ≤ stop.toNat →
    s.c.pe.toNat + 1 < start.toNat →
    requiredBytes s.params.granule (s.c.bitlen.toNat + streamLength (s.c.emits s.c.openFlat)) ≤ s.c.maxsize.toNat →
    ∃ c', exec (.cPush start stop) s = .next { s with
        c := c', resp := some { status := 0x0, v0 := c'.bitlen, v1 := 0 } } ∧
      c'.bits = s.c.bits ++ codewords (s.c.emits s.c.openFlat) ∧
      c'.bitlen.toNat = s.c.bitlen.toNat + streamLength (s.c.emits s.c.openFlat) ∧
      s.c.emits s.c.openFlat ≠ [] ∧
      (∀ vs, s.c.emits (s.c.openFlat ++ vs) = s.c.emits s.c.openFlat ++ c'.emits vs) ∧
      c'.aphase.Pulls ∧
      c' = { s.c with
        lee := s.c.pe.setWidth 33, ps := start, pe := stop
        rem := c'.rem, async := c'.async, aphase := c'.aphase, bitlen := c'.bitlen, cap := c'.cap, obuf := c'.obuf }

/-- In OPEN, C.FINISH completes wherever the codewords that the end of input makes the automaton emit can be packed: they
are appended, the automaton is DONE with nothing queued, the output has its exact size, and the response carries it with
`C.bitlen` (R117, R185, R206, R207). -/
def Obligations.FinishCompletes : Prop :=
  ∀ s : State, s.Inv → s.c.cphase = .opened → s.c.Packs s.params.granule (s.c.emits s.c.finalFlat) →
    ∃ c', exec .cFinish s = .next { s with
        c := c', resp := some { status := 0x0, v0 := c'.clen.setWidth 64, v1 := c'.bitlen } } ∧
      c'.bits = s.c.bits ++ codewords (s.c.emits s.c.finalFlat) ∧
      c'.bitlen.toNat = s.c.bitlen.toNat + streamLength (s.c.emits s.c.finalFlat) ∧
      c'.clen.toNat = (c'.bitlen.toNat + 7) / 8 ∧ c'.clen.toNat ≤ c'.maxsize.toNat ∧ c'.cap = c'.clen ∧
      c' = { s.c with
        cphase := .done, eoi := true, nhave := false, aphase := .done
        lee := if s.c.nhave then s.c.pe.setWidth 33 else s.c.lee
        rem := c'.rem, async := c'.async, bitlen := c'.bitlen, cap := c'.cap, clen := c'.clen, obuf := c'.obuf }

/-- In OPEN, a C.PUSH or C.FINISH one of whose codewords cannot be packed raises the error of the first such codeword. What
the merger did and every step of the automaton before the failing one stay, and no part of the failing one does: the context
`c'` is reached from the merger's by the automaton's steps, its next step is the one that raises, the codewords before it are
in the stream, and what its registers and queue still stand for begins with the integer that failed. Only the latch is written
on top of it, and it is answered (R116, R117, R140, R161, R183, R255, R256, R261). -/
def Obligations.FailingCodewordIsLatched : Prop :=
  ∀ (s : State) (i : Instr) (vs : List Nat) (merged : CompContext), s.Inv → s.c.cphase = .opened →
    ((∃ start stop : Word32, i = .cPush start stop ∧ s.c.nhave = true ∧ start.toNat ≤ stop.toNat ∧
        s.c.pe.toNat + 1 < start.toNat ∧ vs = s.c.openFlat ∧
        merged = { s.c with
          flatq := vs.map (BitVec.ofNat 33), lee := s.c.pe.setWidth 33, ps := start, pe := stop }) ∨
      (i = .cFinish ∧ vs = s.c.finalFlat ∧
        merged = { s.c with
          flatq := vs.map (BitVec.ofNat 33), eoi := true, nhave := false
          lee := if s.c.nhave then s.c.pe.setWidth 33 else s.c.lee })) →
    ¬ s.c.Packs s.params.granule (s.c.emits vs) →
    ∃ (c' : CompContext) (before after : List Nat) (x : Nat) (e : Raised),
      s.c.emits vs = before ++ x :: after ∧ s.c.Packs s.params.granule before ∧
      c'.PackFails s.params.granule x e ∧
      exec i s = .next { s with
        c := { c' with cphase := .error, cerr := e.status.code, cinfo0 := e.info0, cinfo1 := e.info1 }
        resp := some { status := e.status.code, v0 := e.info0, v1 := e.info1 } } ∧
      c'.bits = s.c.bits ++ codewords before ∧
      c'.bitlen.toNat = s.c.bitlen.toNat + streamLength before ∧
      Relation.ReflTransGen (fun y z => autoStep s.params.granule y = .moved z) merged c' ∧
      autoStep s.params.granule c' = .raised e ∧
      c'.emits (c'.flatq.map BitVec.toNat) = x :: after ∧
      c' = { merged with
        flatq := c'.flatq, rem := c'.rem, async := c'.async, aphase := .run, bitlen := c'.bitlen, cap := c'.cap
        obuf := c'.obuf } ∧
      c'.clen = 0 ∧ c'.maxsize = s.c.maxsize

/-- Of the ranges open at C.FINISH, exactly two make it raise EncodingRangeExceeded, each when it is the only range of the
compression: the single value 2^32 - 1, and the whole domain where its first codeword fits; it reports 2^32 (R144, R252).
C.PUSH never raises it. -/
def Obligations.EncodingRangeExceededForTwoSets : Prop :=
  (∀ s : State, s.Inv → s.c.cphase = .opened →
    ((s.after .cFinish).resp = some { status := 0x9, v0 := 4294967296, v1 := 0 } ↔
      s.c.nhave = true ∧ s.c.lee.toInt = -1 ∧ s.c.pe.toNat = 4294967295 ∧
        (s.c.ps.toNat = 4294967295 ∨
          (s.c.ps.toNat = 0 ∧ requiredBytes s.params.granule (s.c.bitlen.toNat + 1) ≤ s.c.maxsize.toNat))) ∧
    ((s.after .cFinish).c.cerr = 0x9 → (s.after .cFinish).resp = some { status := 0x9, v0 := 4294967296, v1 := 0 })) ∧
  (∀ (s : State) (start stop : Word32), s.Inv → s.c.cphase = .opened → (s.after (.cPush start stop)).c.cerr ≠ 0x9)

/-- R208: in DONE, C.RDBYTE of an address below `C.clen` answers the output byte of R62, and of any other is refused;
nothing but the response changes. -/
def Obligations.RdbyteReadsTheOutput : Prop :=
  ∀ (s : State) (addr : Word32), s.c.cphase = .done →
    (s.c.clen.toNat ≤ addr.toNat →
      exec (.cRdbyte addr) s = .next { s with resp := some { status := 0xD, v0 := 0x04, v1 := 0 } }) ∧
    (addr.toNat < s.c.clen.toNat →
      ∃ b : Byte, exec (.cRdbyte addr) s = .next { s with resp := some { status := 0x0, v0 := b.setWidth 64, v1 := 0 } } ∧
        ∀ t < 8, b.getLsbD (7 - t) =
          (decide (8 * addr.toNat + t < s.c.bitlen.toNat) && (s.c.obuf.read addr.toNat).getLsbD (7 - t)))

/-! ### The error latches and the two contexts -/

/-- R205: once an error is latched, whatever commands follow but C.INIT, every C.PUSH, C.FINISH and C.RDBYTE answers it
again and changes nothing. -/
def Obligations.CompressionErrorRepeats : Prop :=
  ∀ (s : State) (is : List Instr) (i : Instr), s.c.cphase = .error → (∀ j ∈ is, ∀ m, j ≠ .cInit m) →
    i.op ∈ ([0x02, 0x03, 0x04] : List Byte) →
    exec i (s.afterAll is) = .next { s.afterAll is with
      resp := some { status := s.c.cerr, v0 := s.c.cinfo0, v1 := s.c.cinfo1 } } ∧
    (s.afterAll is).c = s.c

/-- R265: a step from a latched error leaves the context as it is, unless it takes an accepted C.INIT or D.INIT of that
context, or a hardware reset, which clear the latch. -/
def Obligations.OnlyInitAndResetClearALatch : Prop :=
  ∀ s t : State, step s = .next t →
    (s.c.cphase = .error →
      t.c = s.c ∨
      (∃ rest, s.pending = .reset :: rest ∧ t.c.cphase = .idle ∧ t.c.cerr = 0) ∨
      (∃ w m rest, s.pending = .command w :: rest ∧ decode w = .ok (.cInit m) ∧ m.toNat ≤ s.params.obufBytes ∧
        t.c.cphase = .opened ∧ t.c.cerr = 0)) ∧
    (s.d.dphase = .error →
      t.d = s.d ∨
      (∃ rest, s.pending = .reset :: rest ∧ t.d.dphase = .idle ∧ t.d.derr = 0) ∨
      (∃ w n rest, s.pending = .command w :: rest ∧ decode w = .ok (.dInit n) ∧ n.toNat ≤ s.params.ibufBytes ∧
        t.d.dphase = .ready ∧ t.d.derr = 0)) ∧
    (∀ w m rest, s.pending = .command w :: rest → decode w = .ok (.cInit m) → m.toNat ≤ s.params.obufBytes →
      t.c.cphase = .opened ∧ t.c.cerr = 0) ∧
    (∀ w n rest, s.pending = .command w :: rest → decode w = .ok (.dInit n) → n.toNat ≤ s.params.ibufBytes →
      t.d.dphase = .ready ∧ t.d.derr = 0) ∧
    (∀ rest, s.pending = .reset :: rest → t.c.cerr = 0 ∧ t.d.derr = 0)

/-- R9, R262: a compression command neither reads nor writes the decompression context, a decompression command neither
reads nor writes the compression context, and RDREG changes neither. -/
def Obligations.ContextsAreIndependent : Prop :=
  ∀ (s : State) (i : Instr) (c : CompContext) (d : DecompContext),
    (i.op ∈ ([0x01, 0x02, 0x03, 0x04] : List Byte) →
      ∃ t, exec i s = .next t ∧ t.d = s.d ∧ exec i { s with d := d } = .next { t with d := d }) ∧
    (i.op ∈ ([0x11, 0x12, 0x13] : List Byte) →
      ∃ t, exec i s = .next t ∧ t.c = s.c ∧ exec i { s with c := c } = .next { t with c := c }) ∧
    (i.op = 0x20 → ∃ t, exec i s = .next t ∧ t.c = s.c ∧ t.d = s.d)

/-! ### What the commands store -/

/-- C.PUSH and C.FINISH store only to the bytes that hold the stream bits they append: every byte of OBUF before the byte of
the first of them and after the byte of the last reads as before, and so does every stream bit written earlier; where they
append no bit, every byte of OBUF reads as before (R60, R61, R181). -/
def Obligations.OutputStoresStayInTheirBytes : Prop :=
  ∀ (s t : State) (i : Instr), i.op ∈ ([0x02, 0x03] : List Byte) → exec i s = .next t →
    s.c.bitlen.toNat ≤ t.c.bitlen.toNat ∧
    (∀ a, (a < s.c.bitlen.toNat / 8 ∨ t.c.bitlen.toNat ≤ 8 * a) → t.c.obuf.read a = s.c.obuf.read a) ∧
    (t.c.bitlen = s.c.bitlen → ∀ a, t.c.obuf.read a = s.c.obuf.read a) ∧
    (s.c.obuf.Wf → ∀ j < s.c.bitlen.toNat, t.c.obuf.streamBit j = s.c.obuf.streamBit j)

/-- Every other command leaves every byte of OBUF, and every command leaves every byte of IBUF but the one D.LOAD is given,
as it was (R60, R63, R220, R221). That C.INIT keeps the bytes of OBUF is the model's choice (log 11). -/
def Obligations.OtherCommandsStoreNothingElse : Prop :=
  ∀ (s t : State) (i : Instr), exec i s = .next t →
    (i.op ∉ ([0x02, 0x03] : List Byte) → ∀ a, t.c.obuf.read a = s.c.obuf.read a) ∧
    (∀ a, (∀ (addr : Word32) (byte : Byte), i = .dLoad addr byte → a ≠ addr.toNat) → t.d.ibuf.read a = s.d.ibuf.read a)

/-! ### Decompression commands -/

/-- R220: D.INIT, in every phase, is refused with no change where its operand exceeds IBUF_BYTES, and otherwise leaves every
register of the decompression context at a value its operand alone gives, clears every `written` bit and keeps the bytes of
IBUF; the rest of the machine stays. -/
def Obligations.DInitStartsAnew : Prop :=
  ∀ (s : State) (len : Word32),
    (s.params.ibufBytes < len.toNat →
      exec (.dInit len) s = .next { s with resp := some { status := 0xD, v0 := 0x11, v1 := 0 } }) ∧
    (len.toNat ≤ s.params.ibufBytes →
      exec (.dInit len) s = .next { s with
        d := {
          dphase := .ready, derr := 0, dinfo0 := 0, ilen := len, bpos := 0, pos := 0, sym := false, dopen := false
          dstart := 0, lastd := 0, nranges := 0, ibuf := s.d.ibuf, written := [] }
        resp := some { status := 0x0, v0 := 0, v1 := 0 } })

/-- R221: in READY, D.LOAD of an address at or beyond `D.ilen` is refused, and of one below it writes the byte and its
`written` bit and nothing else. -/
def Obligations.DLoadWritesOneByte : Prop :=
  ∀ (s : State) (addr : Word32) (byte : Byte), s.d.ibuf.Wf → s.d.dphase = .ready →
    (s.d.ilen.toNat ≤ addr.toNat →
      exec (.dLoad addr byte) s = .next { s with resp := some { status := 0xD, v0 := 0x12, v1 := 0 } }) ∧
    (addr.toNat < s.d.ilen.toNat →
      ∃ (ibuf : Memory) (written : List Nat),
        exec (.dLoad addr byte) s = .next { s with
          d := { s.d with ibuf := ibuf, written := written }, resp := some { status := 0x0, v0 := 0, v1 := 0 } } ∧
        ibuf.read addr.toNat = byte ∧ (∀ a, a ≠ addr.toNat → ibuf.read a = s.d.ibuf.read a) ∧
        ∀ a, a ∈ written ↔ a = addr.toNat ∨ a ∈ s.d.written)

/-- R222: the phase gate of D.LOAD. -/
def Obligations.DLoadPhaseGate : Prop :=
  ∀ (s : State) (addr : Word32) (byte : Byte),
    (s.d.dphase = .idle ∨ s.d.dphase = .active ∨ s.d.dphase = .done →
      exec (.dLoad addr byte) s = .next { s with resp := some { status := 0xD, v0 := 0x12, v1 := 0 } }) ∧
    (s.d.dphase = .ready → exec (.dLoad addr byte) s = .next (s.loadByte addr byte)) ∧
    (s.d.dphase = .error →
      exec (.dLoad addr byte) s = .next { s with resp := some { status := s.d.derr, v0 := s.d.dinfo0, v1 := 0 } })

/-- R223, R228: the phase gate of D.NEXT. -/
def Obligations.DNextPhaseGate : Prop :=
  ∀ s : State,
    (s.d.dphase = .idle → exec .dNext s = .next { s with resp := some { status := 0xD, v0 := 0x13, v1 := 0 } }) ∧
    (s.d.dphase = .ready → exec .dNext s = .next s.startDecode) ∧
    (s.d.dphase = .active → exec .dNext s = .next (s.decodeRange s.d)) ∧
    (s.d.dphase = .done → exec .dNext s = .next { s with resp := some { status := 0x1, v0 := 0, v1 := 0 } }) ∧
    (s.d.dphase = .error →
      exec .dNext s = .next { s with resp := some { status := s.d.derr, v0 := s.d.dinfo0, v1 := 0 } })

/-- The first D.NEXT after D.INIT raises UnwrittenInput with the lowest address that was not loaded, and decodes no bit; with
every byte loaded it decodes as in ACTIVE (R224, R260). -/
def Obligations.FirstDNextChecksTheInput : Prop :=
  ∀ s : State, s.d.dphase = .ready →
    (∀ a < s.d.ilen.toNat, a ∉ s.d.written → (∀ b < a, b ∈ s.d.written) →
      exec .dNext s = .next { s with
        d := { s.d with dphase := .error, derr := 0xC, dinfo0 := BitVec.ofNat 64 a }
        resp := some { status := 0xC, v0 := BitVec.ofNat 64 a, v1 := 0 } }) ∧
    ((∀ a < s.d.ilen.toNat, a ∈ s.d.written) →
      exec .dNext s = exec .dNext { s with d := { s.d with dphase := .active } })

/-- In ACTIVE, D.NEXT at the end of the stream returns the run that is still open, or END with none, and the phase is DONE
(R155, R165, R224). -/
def Obligations.DNextAtTheEndOfTheStream : Prop :=
  ∀ (s : State) (k : Nat), s.d.dphase = .active → s.d.ZerosAt k → 8 * s.d.ilen.toNat ≤ s.d.bpos.toNat + k →
    (s.d.dopen = true →
      exec .dNext s = .next { s with
        d := { s.d with dopen := false, dphase := .done, nranges := s.d.nranges + 1 }
        resp := some { status := 0x0, v0 := s.d.dstart, v1 := s.d.pos - 1 } }) ∧
    (s.d.dopen = false →
      exec .dNext s = .next { s with
        d := { s.d with dphase := .done }, resp := some { status := 0x1, v0 := 0, v1 := 0 } })

/-- In ACTIVE, D.NEXT at a window of 32 zeros with more than 32 bits left raises LongZeroRun with the position of the window,
and every other register keeps its value (R167, R259). -/
def Obligations.DNextAtALongZeroRun : Prop :=
  ∀ s : State, s.d.dphase = .active → s.d.ZerosAt 32 → s.d.bpos.toNat + 32 < 8 * s.d.ilen.toNat →
    exec .dNext s = .next { s with
      d := { s.d with dphase := .error, derr := 0xB, dinfo0 := s.d.bpos }
      resp := some { status := 0xB, v0 := s.d.bpos, v1 := 0 } }

/-- In ACTIVE, D.NEXT at a codeword of `k` zeros extracts the `k + 1` bits after them, advances the cursor by `2k + 1`, and
labels; it returns the range this produces, and with none it goes on as D.NEXT from there (R164, R166, R224, R225). -/
def Obligations.DNextTakesACodeword : Prop :=
  ∀ (s : State) (k : Nat) (d' : DecompContext) (produced : Option Range), s.d.dphase = .active → s.d.ZerosAt k →
    s.d.bpos.toNat + k < 8 * s.d.ilen.toNat → k < 32 →
    ({ s.d with
        bpos := BitVec.ofNat 64 (s.d.bpos.toNat + 2 * k + 1)
        lastd := BitVec.ofNat 64 (s.d.inBits (s.d.bpos.toNat + k) (k + 1)) } : DecompContext).decodeValue
      (s.d.inBits (s.d.bpos.toNat + k) (k + 1)) = (d', produced) →
    2 ^ k ≤ s.d.inBits (s.d.bpos.toNat + k) (k + 1) ∧ s.d.inBits (s.d.bpos.toNat + k) (k + 1) < 2 ^ (k + 1) ∧
    (∀ r, produced = some r →
      exec .dNext s = .next { s with
        d := { d' with nranges := s.d.nranges + 1 }, resp := some { status := 0x0, v0 := r.1, v1 := r.2 } }) ∧
    (produced = none → exec .dNext s = exec .dNext { s with d := d' })

/-- R150 to R154: a codeword `v` labels `v` positions: the span of `v - 1` carries the symbol, the single position the
opposite one, and the symbol flips exactly for 1; at most one range is produced. -/
def Obligations.CodewordLabelsItsPositions : Prop :=
  ∀ (d : DecompContext) (v : Nat), 1 ≤ v → d.pos.toNat + v < 2 ^ 64 →
    ∃ (pos dstart : Word64), pos.toNat = d.pos.toNat + v ∧
      (d.decodeValue v).1 = { d with
        pos := pos, sym := if v = 1 then !d.sym else d.sym, dopen := !d.sym, dstart := dstart } ∧
      (d.sym = false → 1 < v → dstart.toNat = d.pos.toNat + v - 1 ∧
        (d.decodeValue v).2 = if d.dopen then some (d.dstart, d.pos - 1) else none) ∧
      (d.sym = false → v = 1 → dstart = (if d.dopen then d.dstart else d.pos) ∧ (d.decodeValue v).2 = none) ∧
      (d.sym = true → 1 < v →
        (d.decodeValue v).2 = some ((if d.dopen then d.dstart else d.pos), BitVec.ofNat 64 (d.pos.toNat + v - 2))) ∧
      (d.sym = true → v = 1 →
        (d.decodeValue v).2 = if d.dopen then some (d.dstart, d.pos - 1) else none)

/-- R156: the ranges that D.NEXT returns, over any commands without a D.INIT, from any state in order and so for every byte
string in IBUF, are in strictly ascending order, do not overlap and are not adjacent. -/
def Obligations.RangesAscendWithGaps : Prop :=
  ∀ (s : State) (is : List Instr), s.Inv → (∀ i ∈ is, ∀ n, i ≠ .dInit n) → Canonical (s.ranges is)

/-- R226: the cursors never overflow: `D.pos` stays within 2^59, and `D.bpos` passes the end of the stream by at most 62
bits. -/
def Obligations.CursorsStayInBounds : Prop :=
  ∀ (s : State) (is : List Instr), s.Inv →
    (s.afterAll is).d.pos.toNat ≤ 2 ^ 59 ∧
    (s.afterAll is).d.bpos.toNat ≤ 8 * (s.afterAll is).d.ilen.toNat + 62 ∧
    ((s.afterAll is).d.dopen = true → (s.afterAll is).d.dstart.toNat < (s.afterAll is).d.pos.toNat)

/-! ### The blocks -/

/-- R132, R134 to R138: the steps of the encode automaton, phase by phase. In PULL_AFTER_EMIT the pulled value is at least 1
in every reachable state (R138); that `v - 1` wraps at the value 0 is the model's narrowing in states no run reaches
(log 7). -/
def Obligations.AutomatonTakesTheSpecsSteps : Prop :=
  ∀ (g : Config.Granule) (c : CompContext),
    (c.aphase = .unseeded →
      autoStep g c = (match c.flatq, c.eoi with
        | v :: rest, _ => .moved { c with flatq := rest, rem := v, async := decide (v.toNat ≠ 0), aphase := .run }
        | [], true => .moved { c with aphase := .done }
        | [], false => .rests)) ∧
    (c.aphase = .pullTop →
      autoStep g c = (match c.flatq, c.eoi with
        | v :: rest, _ => .moved { c with flatq := rest, rem := v, aphase := .run }
        | [], true => .moved { c with aphase := .done }
        | [], false => .rests)) ∧
    (c.aphase = .pullAfterEmit →
      autoStep g c = (match c.flatq, c.eoi with
        | v :: rest, _ => .moved { c with flatq := rest, rem := v - 1, async := decide (v.toNat = 1), aphase := .run }
        | [], true => .moved { c with aphase := .done }
        | [], false => .rests)) ∧
    (c.aphase = .run → c.rem.toNat = 0 → autoStep g c = .moved { c with aphase := .pullTop }) ∧
    (c.aphase = .run → c.rem.toNat ≠ 0 → c.async = true →
      autoStep g c = (match gammaEncode g (c.rem.toNat + 1) c with
        | .ok c' => .moved { c' with aphase := .pullAfterEmit }
        | .error e => .raised e)) ∧
    (c.aphase = .run → c.rem.toNat ≠ 0 → c.async = false →
      autoStep g c = (match gammaEncode g 1 c with
        | .ok c' => .moved { c' with rem := c.rem - 1, async := decide (c.rem.toNat ≠ 1) }
        | .error e => .raised e)) ∧
    (c.aphase = .done → autoStep g c = .rests)

/-- R139: the automaton takes steps until a pull is blocked, the phase is DONE, or a step raises an error. -/
def Obligations.AutomatonRunsUntilItRests : Prop :=
  ∀ (g : Config.Granule) (c c' : CompContext) (raised : Option Raised), runAutomaton g c = (c', raised) →
    Relation.ReflTransGen (fun x y => autoStep g x = .moved y) c c' ∧
    (raised = none → (c'.aphase.Pulls ∧ c'.flatq = [] ∧ c'.eoi = false) ∨ c'.aphase = .done) ∧
    (∀ e, raised = some e → autoStep g c' = .raised e)

/-- R182: the required size of `b` bits, for each granule: the bytes that hold them, rounded up to whole words of 4 bytes
where the granule is 4. It is the least multiple of the granule that holds the bits, and at most 3 bytes more than the exact
byte count. The sizes in the statements about C.PUSH and C.FINISH are these. -/
def Obligations.RequiredSizeRoundsUpToTheGranule : Prop :=
  ∀ b : Nat,
    requiredBytes .one b = (b + 7) / 8 ∧ requiredBytes .four b = 4 * ((b + 31) / 32) ∧
    (∀ g : Config.Granule, g.bytes ∣ requiredBytes g b ∧ b ≤ 8 * requiredBytes g b ∧
      ∀ n, g.bytes ∣ n → b ≤ 8 * n → requiredBytes g b ≤ n) ∧
    requiredBytes .four b ≤ requiredBytes .one b + 3

/-- An integer in range whose codeword fits the cap, by the required size of R182, is appended as its codeword, first bit
first; the capacity grows by the rule of R184 where it must; no other register and no byte that holds no appended bit changes
(R160, R181, R182, R184). -/
def Obligations.CodewordIsAppended : Prop :=
  ∀ (g : Config.Granule) (c : CompContext) (x bits need : Nat), c.obuf.Wf → 1 ≤ x → x ≤ 4294967295 →
    bits = c.bitlen.toNat + (2 * Nat.log2 x + 1) →
    need = (match g with | .one => (bits + 7) / 8 | .four => 4 * ((bits + 31) / 32)) →
    need ≤ c.maxsize.toNat →
    ∃ (obuf : Memory) (bitlen : Word64) (cap : Word33),
      gammaEncode g x c = .ok { c with obuf := obuf, bitlen := bitlen, cap := cap } ∧
      bitlen.toNat = bits ∧
      cap.toNat =
        (if c.cap.toNat < need then min (4 * ((max (2 * c.cap.toNat) need + 3) / 4)) c.maxsize.toNat else c.cap.toNat) ∧
      (∀ j < Nat.log2 x, obuf.streamBit (c.bitlen.toNat + j) = false) ∧
      (∀ j ≤ Nat.log2 x, obuf.streamBit (c.bitlen.toNat + Nat.log2 x + j) = x.testBit (Nat.log2 x - j)) ∧
      (∀ j, (j < c.bitlen.toNat ∨ bits ≤ j) → obuf.streamBit j = c.obuf.streamBit j) ∧
      (∀ a, (a < c.bitlen.toNat / 8 ∨ bits ≤ 8 * a) → obuf.read a = c.obuf.read a)

/-- R161, R182, R183: encoding an integer fails exactly if it is above 2^32 - 1, or if the required size with its codeword
exceeds the cap; the range check comes first. -/
def Obligations.CodewordErrorsComeInOrder : Prop :=
  ∀ (g : Config.Granule) (c : CompContext) (x bits need : Nat) (e : Raised),
    bits = c.bitlen.toNat + (2 * Nat.log2 x + 1) →
    need = (match g with | .one => (bits + 7) / 8 | .four => 4 * ((bits + 31) / 32)) →
    (gammaEncode g x c = .error e ↔
      (4294967295 < x ∧ e = { status := .encodingRangeExceeded, info0 := BitVec.ofNat 64 x, info1 := 0 }) ∨
      (x ≤ 4294967295 ∧ c.maxsize.toNat < need ∧
        e = { status := .bufferCapacityExceeded, info0 := BitVec.ofNat 64 need, info1 := c.maxsize.setWidth 64 }))

/-- Growth is the rule of R184: it reaches what is needed, doubles where the cap allows, never passes the cap, and ends on a
multiple of 4 or at the cap. -/
def Obligations.GrowthIsBounded : Prop :=
  ∀ cap need maxsize : Nat,
    grow cap need maxsize = min (4 * ((max (2 * cap) need + 3) / 4)) maxsize ∧
    (need ≤ maxsize →
      need ≤ grow cap need maxsize ∧ grow cap need maxsize ≤ maxsize ∧
      (2 * cap ≤ maxsize → 2 * cap ≤ grow cap need maxsize) ∧
      (grow cap need maxsize % 4 = 0 ∨ grow cap need maxsize = maxsize) ∧
      grow cap need maxsize ≤ max (2 * cap) need + 3)

/-- R189: loaded into IBUF, the output bytes read back, bit by bit, as the packer's bits and then zeros. -/
def Obligations.UnpackerReadsWhatThePackerWrote : Prop :=
  ∀ (c : CompContext) (d : DecompContext), c.bitlen.toNat ≤ 8 * c.clen.toNat → d.ilen.toNat = c.clen.toNat →
    (∀ j < c.clen.toNat, d.ibuf.read j = c.outByte j) →
    (∀ i < c.bitlen.toNat, d.inBit i = c.cbit i) ∧ (∀ i, c.bitlen.toNat ≤ i → d.inBit i = false)

/-- At the codeword of an integer the decoder counts its zeros, sees no end, extracts the integer and advances past the
codeword; at the padding after the last codeword it sees the end (R165, R166, R168). -/
def Obligations.DecoderReadsBackCodewords : Prop :=
  ∀ d : DecompContext,
    (∀ (x : Nat) (rest : List Bool), 1 ≤ x → x ≤ 4294967295 → d.bits.drop d.bpos.toNat = codeword x ++ rest →
      d.zeros = Nat.log2 x ∧ d.atEnd = false ∧ d.codewordValue = x ∧
        d.advance.bits.drop d.advance.bpos.toNat = rest) ∧
    (∀ p ≤ 7, d.bits.drop d.bpos.toNat = List.replicate p false → d.atEnd = true)

/-- The byte memories have one form: a write keeps it, gives the byte written back and leaves every other byte, and two
memories in the form that read alike are equal (log 5, log 15: the form is the model's). -/
def Obligations.MemoryFormIsCanonical : Prop :=
  (∀ (m : Memory) (a : Nat) (b : Byte), m.Wf → (m.write a b).Wf ∧ (m.write a b).read a = b) ∧
  (∀ (m : Memory) (a a' : Nat) (b : Byte), a' ≠ a → (m.write a b).read a' = m.read a') ∧
  (∀ m n : Memory, m.Wf → n.Wf → (∀ a, m.read a = n.read a) → m = n)

/-! ### Headlines -/

/-- The state after reset meets the invariant. -/
def Obligations.ResetMeetsTheInvariant : Prop := State.reset.Inv

/-- Every step keeps the invariant: the error latches agree with their phases and hold only their context's codes (R23, R31),
the open range is in order and beyond the last one closed (R113, R116, R118), the flat values and the FIFO stay in their
bounds (R11, R141), the stream stays within the capacity, the capacity within the cap and the cap within OBUF (R24, R61,
R183 to R185), a finished output has its exact size (R185, R207), the decoder's cursors do not overflow (R226), decoding
begins only with every byte loaded (R44, R224), and no byte outside OBUF or IBUF is written (R60). It says too that both
memories and the list of `written` addresses keep the canonical form in which the model stores them; that form is the model's
own (log 5, 15, 16), no rule of the spec. -/
def Obligations.StepKeepsTheInvariant : Prop :=
  ∀ s t : State, s.Inv → step s = .next t → t.Inv

/-- What OBUF and IBUF held before a reset or before C.INIT and D.INIT never shows: from a state with no stream bit written
and no input byte loaded, the responses to any commands are the same whatever the two memories hold (R43, R44, R62, R63,
R280, R283). -/
def Obligations.OldContentsNeverShow : Prop :=
  ∀ (s : State) (obuf ibuf : Memory) (is : List Instr), s.Inv → s.c.bitlen = 0 → s.d.written = [] → obuf.Wf → ibuf.Wf →
    ({ s with c := { s.c with obuf := obuf }, d := { s.d with ibuf := ibuf } } : State).responses is = s.responses is

/-- R157: where an input of elements compresses without error, decoding its output produces exactly the canonical run
sequence of the input: disjoint, non-adjacent, ascending ranges that cover the same integers; then END. -/
def Obligations.DecompressionInvertsCompression : Prop :=
  ∀ (s : State) (maxsize : Word32) (elements : List (Word32 × Word32)), s.Inv → maxsize.toNat ≤ s.params.obufBytes →
    (s.afterAll (compression maxsize elements)).c.cphase = .done →
    (s.afterAll (compression maxsize elements)).c.clen.toNat ≤ s.params.ibufBytes →
    ∃ rs : List Span, Canonical rs ∧
      (∀ n, covers rs n ↔ covers (elements.map fun e => (e.1.toNat, e.2.toNat)) n) ∧
      ((s.afterAll (compression maxsize elements)).afterAll
          (s.afterAll (compression maxsize elements)).c.reload).responses (List.replicate (rs.length + 1) .dNext) =
        rs.map (fun r => some (spanResponse r)) ++ [some endResponse]

/-! ### The assembler -/

/-- R92: the expansions of the pseudo-instructions, as the commands they are; and that a plain line is its one command, with
its literals in its operands (R82, R91). -/
def Obligations.PseudoInstructionsExpand : Prop :=
  expand (.cInit none) = [.cInit 16777216] ∧
  (∀ n, expand (.cPushN n) = [.cPush (BitVec.ofNat 32 n) (BitVec.ofNat 32 n)]) ∧
  (∀ bs, expand (.dBuf bs) = .dInit (BitVec.ofNat 32 bs.length) ::
    (List.range bs.length).map fun j => .dLoad (BitVec.ofNat 32 j) (BitVec.ofNat 8 (bs.getD j 0))) ∧
  expand (.dBuf []) = [.dInit 0] ∧
  (∀ n, expand (.cInit (some n)) = [.cInit (BitVec.ofNat 32 n)]) ∧
  (∀ a b, expand (.cPush a b) = [.cPush (BitVec.ofNat 32 a) (BitVec.ofNat 32 b)]) ∧
  expand .cFinish = [.cFinish] ∧
  (∀ a, expand (.cRdbyte a) = [.cRdbyte (BitVec.ofNat 32 a)]) ∧
  expand .nop = [.nop] ∧
  (∀ n, expand (.dInit n) = [.dInit (BitVec.ofNat 32 n)]) ∧
  (∀ a b, expand (.dLoad a b) = [.dLoad (BitVec.ofNat 32 a) (BitVec.ofNat 8 b)]) ∧
  expand .dNext = [.dNext] ∧
  (∀ n, expand (.rdreg (.literal n)) = [.rdreg (BitVec.ofNat 8 n)])

/-- RDREG takes every register name of the map of R36, and stands for its index (R91). -/
def Obligations.RegisterNamesHaveTheirIndices : Prop :=
  (∀ r, assemble (.rdreg (.name r)) = some [.rdreg (regIndex r)]) ∧
  (∀ r, ∃ name : String, regOperand name.toList = some (.name r)) ∧
  ([ ("C_STATUS", 0x00), ("C_MAXSIZE", 0x01), ("C_BITLEN", 0x02), ("C_LEN", 0x03), ("C_CAP", 0x04),
      ("C_PREV_START", 0x05), ("C_PREV_END", 0x06), ("C_LAST_END", 0x07), ("C_REM", 0x08), ("C_Q0", 0x09),
      ("C_Q1", 0x0A), ("C_INFO0", 0x0B), ("C_INFO1", 0x0C), ("D_STATUS", 0x10), ("D_LEN", 0x11), ("D_BITPOS", 0x12),
      ("D_POS", 0x13), ("D_OPEN_START", 0x14), ("D_LAST_D", 0x15), ("D_NRANGES", 0x16), ("D_INFO0", 0x17),
      ("CORE_ID", 0x1F) ] : List (String × Byte)).all (fun p =>
    (regOperand p.1.toList).bind (fun o => assemble (.rdreg o)) == some [.rdreg p.2]) = true

/-- A command word is written as 18 hexadecimal digits that denote it, most significant first (R93). -/
def Obligations.HexFormDenotesTheWord : Prop :=
  (∀ i : Instr, (hexWord i).length = 18 ∧ digits 16 0 (hexWord i) = some (encode i).toNat) ∧
  hexWord (.cPush 3 7) = "020000000300000007".toList

/-- A literal that does not fit its field is an assembly error, not a command, and every other line gives its commands (R82,
R91): the bound is 2^32 for every operand in A or B, and 256 for the byte of D.LOAD and the index of RDREG. In D.BUF each
byte has the bound of D.LOAD's; that a list of 2^32 bytes or more is refused, since the operand of its D.INIT would not fit,
is the model's choice (log 13). -/
def Obligations.AssemblerRejectsMisfits : Prop :=
  assemble (.cInit none) = some [.cInit 16777216] ∧
  (∀ n, assemble (.cInit (some n)) = if n < 4294967296 then some [.cInit (BitVec.ofNat 32 n)] else none) ∧
  (∀ a b, assemble (.cPush a b) =
    if a < 4294967296 ∧ b < 4294967296 then some [.cPush (BitVec.ofNat 32 a) (BitVec.ofNat 32 b)] else none) ∧
  (∀ n, assemble (.cPushN n) =
    if n < 4294967296 then some [.cPush (BitVec.ofNat 32 n) (BitVec.ofNat 32 n)] else none) ∧
  assemble .cFinish = some [.cFinish] ∧
  (∀ a, assemble (.cRdbyte a) = if a < 4294967296 then some [.cRdbyte (BitVec.ofNat 32 a)] else none) ∧
  assemble .nop = some [.nop] ∧
  (∀ n, assemble (.dInit n) = if n < 4294967296 then some [.dInit (BitVec.ofNat 32 n)] else none) ∧
  (∀ addr byte, assemble (.dLoad addr byte) =
    if addr < 4294967296 ∧ byte < 256 then some [.dLoad (BitVec.ofNat 32 addr) (BitVec.ofNat 8 byte)] else none) ∧
  (∀ bs : List Nat, assemble (.dBuf bs) =
    if bs.length < 4294967296 ∧ ∀ b ∈ bs, b < 256 then
      some (.dInit (BitVec.ofNat 32 bs.length) ::
        (List.range bs.length).map fun j => .dLoad (BitVec.ofNat 32 j) (BitVec.ofNat 8 (bs.getD j 0)))
    else none) ∧
  assemble .dNext = some [.dNext] ∧
  (∀ n, assemble (.rdreg (.literal n)) = if n < 256 then some [.rdreg (BitVec.ofNat 8 n)] else none)
end

