-- ==== Sys2Proof/Laws/Memory.lean ====
section
/-! SUPPORT. What the byte memories and the `written` bits do: a read after a write, the canonical form, stream bits. -/

namespace Sys2Proof.Machine

/-! ### Reads and writes of bytes -/

@[simp] theorem Memory.read_nil (a : Nat) : Memory.read [] a = blankByte := rfl

theorem Memory.read_cons (x : Host.Cell) (m : Memory) (a : Nat) :
    Memory.read (x :: m) a = if a = x.1 then x.2 else Memory.read m a := by
  obtain ⟨a', b⟩ := x; rfl

theorem Memory.wf_cons {x : Host.Cell} {m : Memory} :
    Memory.Wf (x :: m) ↔ (∀ y ∈ m, x.1 < y.1) ∧ x.2 ≠ blankByte ∧ Memory.Wf m := by
  constructor
  · rintro ⟨hp, hb⟩
    rw [List.pairwise_cons] at hp
    exact ⟨hp.1, hb x (by simp), hp.2, fun y hy => hb y (by simp [hy])⟩
  · rintro ⟨h1, h2, hp, hb⟩
    refine ⟨List.pairwise_cons.2 ⟨h1, hp⟩, fun y hy => ?_⟩
    rcases List.mem_cons.1 hy with rfl | hy
    · exact h2
    · exact hb y hy

/-- An address below every listed one reads the blank byte. -/
theorem Memory.read_below {m : Memory} {a : Nat} (h : ∀ x ∈ m, a < x.1) : m.read a = blankByte := by
  induction m with
  | nil => rfl
  | cons x m ih =>
    rw [Memory.read_cons, if_neg (Nat.ne_of_lt (h x (by simp)))]
    exact ih fun y hy => h y (by simp [hy])

/-- What a write leaves listed. -/
theorem Memory.mem_write {m : Memory} {a : Nat} {b : Byte} {x : Host.Cell} (h : x ∈ m.write a b) :
    x ∈ m ∨ x = (a, b) := by
  induction m with
  | nil =>
    simp only [Memory.write] at h
    split at h
    · simp at h
    · right; simpa using h
  | cons y m ih =>
    obtain ⟨a', b'⟩ := y
    simp only [Memory.write] at h
    split at h
    · split at h
      · exact .inl h
      · rcases List.mem_cons.1 h with rfl | h
        · exact .inr rfl
        · exact .inl h
    · split at h
      · split at h
        · exact .inl (List.mem_cons_of_mem _ h)
        · rcases List.mem_cons.1 h with rfl | h
          · exact .inr rfl
          · exact .inl (List.mem_cons_of_mem _ h)
      · rcases List.mem_cons.1 h with rfl | h
        · exact .inl (by simp)
        · exact (ih h).imp (List.mem_cons_of_mem _) id

/-- A write keeps the canonical form. -/
theorem Memory.write_wf {m : Memory} (h : m.Wf) (a : Nat) (b : Byte) : (m.write a b).Wf := by
  induction m with
  | nil =>
    simp only [Memory.write]
    split
    · exact h
    · exact Memory.wf_cons.2 ⟨by simp, by assumption, h⟩
  | cons y m ih =>
    obtain ⟨a', b'⟩ := y
    obtain ⟨h1, h2, h3⟩ := Memory.wf_cons.1 h
    simp only [Memory.write]
    split
    · split
      · exact h
      · refine Memory.wf_cons.2 ⟨fun z hz => ?_, by assumption, h⟩
        rcases List.mem_cons.1 hz with rfl | hz
        · assumption
        · exact Nat.lt_trans (by assumption) (h1 z hz)
    · split
      · split
        · exact h3
        · exact Memory.wf_cons.2 ⟨fun z hz => by subst_vars; exact h1 z hz, by assumption, h3⟩
      · refine Memory.wf_cons.2 ⟨fun z hz => ?_, h2, ih h3⟩
        rcases Memory.mem_write hz with hz | rfl
        · exact h1 z hz
        · show a' < a
          omega

/-- A read at another address is as before the write. -/
theorem Memory.read_write_other (m : Memory) {a a' : Nat} (b : Byte) (h : a' ≠ a) :
    (m.write a b).read a' = m.read a' := by
  induction m with
  | nil =>
    simp only [Memory.write]
    split
    · rfl
    · simp [Memory.read_cons, h]
  | cons y m ih =>
    obtain ⟨c, d⟩ := y
    simp only [Memory.write]
    split
    · split
      · rfl
      · simp [Memory.read_cons, h]
    · split
      · subst_vars
        split <;> simp [Memory.read_cons, h]
      · simp only [Memory.read_cons, ih]

/-- A read at the written address gives the byte written. -/
theorem Memory.read_write_same {m : Memory} (h : m.Wf) (a : Nat) (b : Byte) : (m.write a b).read a = b := by
  induction m with
  | nil =>
    simp only [Memory.write]
    split
    · simp [*]
    · simp [Memory.read_cons]
  | cons y m ih =>
    obtain ⟨a', b'⟩ := y
    obtain ⟨h1, h2, h3⟩ := Memory.wf_cons.1 h
    simp only [Memory.write]
    split
    · split
      · subst_vars
        refine Memory.read_below fun z hz => ?_
        rcases List.mem_cons.1 hz with rfl | hz
        · assumption
        · exact Nat.lt_trans (by assumption) (h1 z hz)
      · simp [Memory.read_cons]
    · split
      · split
        · subst_vars
          exact Memory.read_below h1
        · simp [Memory.read_cons]
      · rw [Memory.read_cons, if_neg (by assumption)]
        exact ih h3

/-- What a read after a write gives. -/
theorem Memory.read_write {m : Memory} (h : m.Wf) (a a' : Nat) (b : Byte) :
    (m.write a b).read a' = if a' = a then b else m.read a' := by
  split
  · subst_vars; exact Memory.read_write_same h _ b
  · exact Memory.read_write_other m b (by assumption)

/-! ### Stream bits -/

theorem setByteBit_getLsbD (b : Byte) {n j : Nat} (hn : n < 8) (hj : j < 8) (v : Bool) :
    (setByteBit b n v).getLsbD j = if j = n then v else b.getLsbD j := by
  have key : ∀ (n j : Fin 8) (v : Bool) (x : Bool),
      ((x && !((1#8 <<< n.val).getLsbD j.val)) || ((flagBit v).setWidth 8 <<< n.val).getLsbD j.val)
        = if j = n then v else x := by decide
  have h := key ⟨n, hn⟩ ⟨j, hj⟩ v (b.getLsbD j)
  simp only [Fin.mk.injEq] at h
  rw [← h, setByteBit]
  simp [hj]

/-- A stream bit after a stream bit was written. -/
theorem Memory.streamBit_writeStreamBit {m : Memory} (h : m.Wf) (i j : Nat) (v : Bool) :
    (m.writeStreamBit i v).streamBit j = if j = i then v else m.streamBit j := by
  unfold Memory.streamBit Memory.writeStreamBit
  rw [Memory.read_write h]
  by_cases hb : j / 8 = i / 8
  · rw [if_pos hb, setByteBit_getLsbD _ (by omega) (by omega), hb]
    by_cases hij : j = i
    · subst hij; simp
    · rw [if_neg hij, if_neg (by omega)]
  · rw [if_neg hb, if_neg (fun hij => hb (by rw [hij]))]

theorem Memory.writeStreamBit_wf {m : Memory} (h : m.Wf) (i : Nat) (v : Bool) : (m.writeStreamBit i v).Wf :=
  Memory.write_wf h _ _

/-- A byte that does not hold the written stream bit is as before. -/
theorem Memory.read_writeStreamBit_other (m : Memory) {i a : Nat} (v : Bool) (h : a ≠ i / 8) :
    (m.writeStreamBit i v).read a = m.read a := Memory.read_write_other m _ h

theorem Memory.mem_writeStreamBit {m : Memory} {i : Nat} {v : Bool} {x : Host.Cell}
    (h : x ∈ m.writeStreamBit i v) : x ∈ m ∨ x.1 = i / 8 :=
  (Memory.mem_write h).imp id fun h => by rw [h]

/-! ### The `written` bits -/

theorem mem_markWritten {ws : List Nat} {a b : Nat} : b ∈ markWritten ws a ↔ b = a ∨ b ∈ ws := by
  induction ws with
  | nil => simp [markWritten]
  | cons w ws ih =>
    simp only [markWritten]
    split
    · simp
    · split
      · subst_vars; simp
      · simp only [List.mem_cons, ih]; tauto

theorem markWritten_wf {ws : List Nat} (h : WrittenWf ws) (a : Nat) : WrittenWf (markWritten ws a) := by
  induction ws with
  | nil => simp [markWritten, WrittenWf]
  | cons w ws ih =>
    obtain ⟨h1, h2⟩ := List.pairwise_cons.1 h
    simp only [markWritten]
    split
    · refine List.pairwise_cons.2 ⟨fun z hz => ?_, h⟩
      rcases List.mem_cons.1 hz with rfl | hz
      · assumption
      · exact Nat.lt_trans (by assumption) (h1 z hz)
    · split
      · exact h
      · refine List.pairwise_cons.2 ⟨fun z hz => ?_, ih h2⟩
        rcases mem_markWritten.1 hz with rfl | hz
        · omega
        · exact h1 z hz

/-- No address is found when all are written. -/
theorem firstUnwritten_eq_none {ws : List Nat} {n a : Nat} :
    firstUnwritten ws n a = none ↔ ∀ b, a ≤ b → b < a + n → b ∈ ws := by
  induction n generalizing a with
  | zero => simp [firstUnwritten]; intro b h1 h2; omega
  | succ n ih =>
    simp only [firstUnwritten, List.contains_iff_mem]
    split
    · rename_i h
      rw [ih]
      constructor
      · intro hh b h1 h2
        rcases Nat.eq_or_lt_of_le h1 with rfl | h1
        · exact h
        · exact hh b h1 (by omega)
      · intro hh b h1 h2
        exact hh b (by omega) (by omega)
    · rename_i h
      simp only [reduceCtorEq, false_iff, not_forall]
      exact ⟨a, Nat.le_refl _, by omega, h⟩

/-- The address found is the lowest one that is not written. -/
theorem firstUnwritten_eq_some {ws : List Nat} {n a b : Nat} :
    firstUnwritten ws n a = some b ↔ a ≤ b ∧ b < a + n ∧ b ∉ ws ∧ ∀ c, a ≤ c → c < b → c ∈ ws := by
  induction n generalizing a with
  | zero => simp [firstUnwritten]; intro h1 h2; omega
  | succ n ih =>
    simp only [firstUnwritten, List.contains_iff_mem]
    split
    · rename_i h
      rw [ih]
      constructor
      · rintro ⟨h1, h2, h3, h4⟩
        refine ⟨by omega, by omega, h3, fun c hc1 hc2 => ?_⟩
        rcases Nat.eq_or_lt_of_le hc1 with rfl | hc1
        · exact h
        · exact h4 c hc1 hc2
      · rintro ⟨h1, h2, h3, h4⟩
        refine ⟨?_, by omega, h3, fun c hc1 hc2 => h4 c (by omega) hc2⟩
        rcases Nat.eq_or_lt_of_le h1 with rfl | h1
        · exact absurd h h3
        · exact h1
    · rename_i h
      simp only [Option.some.injEq]
      constructor
      · rintro rfl
        exact ⟨Nat.le_refl _, by omega, h, fun c h1 h2 => by omega⟩
      · rintro ⟨h1, h2, h3, h4⟩
        by_contra hne
        exact h (h4 a (Nat.le_refl _) (by omega))

end Sys2Proof.Machine
end

