-- ==== Sys2Proof/Laws/State.lean ====
section
/-! SUPPORT. What each shared operation leaves in each field of the state: one lemma per field per update. -/

namespace Sys2Proof.Machine

/-! ### `CompContext.latch` -/

@[simp] theorem CompContext.latch_cphase (c : CompContext) (e : Raised) : (c.latch e).cphase = .error := rfl
@[simp] theorem CompContext.latch_cerr (c : CompContext) (e : Raised) : (c.latch e).cerr = e.status.code := rfl
@[simp] theorem CompContext.latch_cinfo0 (c : CompContext) (e : Raised) : (c.latch e).cinfo0 = e.info0 := rfl
@[simp] theorem CompContext.latch_cinfo1 (c : CompContext) (e : Raised) : (c.latch e).cinfo1 = e.info1 := rfl
@[simp] theorem CompContext.latch_maxsize (c : CompContext) (e : Raised) : (c.latch e).maxsize = c.maxsize := rfl
@[simp] theorem CompContext.latch_nhave (c : CompContext) (e : Raised) : (c.latch e).nhave = c.nhave := rfl
@[simp] theorem CompContext.latch_ps (c : CompContext) (e : Raised) : (c.latch e).ps = c.ps := rfl
@[simp] theorem CompContext.latch_pe (c : CompContext) (e : Raised) : (c.latch e).pe = c.pe := rfl
@[simp] theorem CompContext.latch_lee (c : CompContext) (e : Raised) : (c.latch e).lee = c.lee := rfl
@[simp] theorem CompContext.latch_eoi (c : CompContext) (e : Raised) : (c.latch e).eoi = c.eoi := rfl
@[simp] theorem CompContext.latch_flatq (c : CompContext) (e : Raised) : (c.latch e).flatq = c.flatq := rfl
@[simp] theorem CompContext.latch_aphase (c : CompContext) (e : Raised) : (c.latch e).aphase = c.aphase := rfl
@[simp] theorem CompContext.latch_async (c : CompContext) (e : Raised) : (c.latch e).async = c.async := rfl
@[simp] theorem CompContext.latch_rem (c : CompContext) (e : Raised) : (c.latch e).rem = c.rem := rfl
@[simp] theorem CompContext.latch_bitlen (c : CompContext) (e : Raised) : (c.latch e).bitlen = c.bitlen := rfl
@[simp] theorem CompContext.latch_cap (c : CompContext) (e : Raised) : (c.latch e).cap = c.cap := rfl
@[simp] theorem CompContext.latch_clen (c : CompContext) (e : Raised) : (c.latch e).clen = c.clen := rfl
@[simp] theorem CompContext.latch_obuf (c : CompContext) (e : Raised) : (c.latch e).obuf = c.obuf := rfl

/-! ### `CompContext.push` -/

@[simp] theorem CompContext.push_cphase (c : CompContext) (v : Word33) : (c.push v).cphase = c.cphase := rfl
@[simp] theorem CompContext.push_cerr (c : CompContext) (v : Word33) : (c.push v).cerr = c.cerr := rfl
@[simp] theorem CompContext.push_cinfo0 (c : CompContext) (v : Word33) : (c.push v).cinfo0 = c.cinfo0 := rfl
@[simp] theorem CompContext.push_cinfo1 (c : CompContext) (v : Word33) : (c.push v).cinfo1 = c.cinfo1 := rfl
@[simp] theorem CompContext.push_maxsize (c : CompContext) (v : Word33) : (c.push v).maxsize = c.maxsize := rfl
@[simp] theorem CompContext.push_nhave (c : CompContext) (v : Word33) : (c.push v).nhave = c.nhave := rfl
@[simp] theorem CompContext.push_ps (c : CompContext) (v : Word33) : (c.push v).ps = c.ps := rfl
@[simp] theorem CompContext.push_pe (c : CompContext) (v : Word33) : (c.push v).pe = c.pe := rfl
@[simp] theorem CompContext.push_lee (c : CompContext) (v : Word33) : (c.push v).lee = c.lee := rfl
@[simp] theorem CompContext.push_eoi (c : CompContext) (v : Word33) : (c.push v).eoi = c.eoi := rfl
@[simp] theorem CompContext.push_flatq (c : CompContext) (v : Word33) : (c.push v).flatq = c.flatq ++ [v] := rfl
@[simp] theorem CompContext.push_aphase (c : CompContext) (v : Word33) : (c.push v).aphase = c.aphase := rfl
@[simp] theorem CompContext.push_async (c : CompContext) (v : Word33) : (c.push v).async = c.async := rfl
@[simp] theorem CompContext.push_rem (c : CompContext) (v : Word33) : (c.push v).rem = c.rem := rfl
@[simp] theorem CompContext.push_bitlen (c : CompContext) (v : Word33) : (c.push v).bitlen = c.bitlen := rfl
@[simp] theorem CompContext.push_cap (c : CompContext) (v : Word33) : (c.push v).cap = c.cap := rfl
@[simp] theorem CompContext.push_clen (c : CompContext) (v : Word33) : (c.push v).clen = c.clen := rfl
@[simp] theorem CompContext.push_obuf (c : CompContext) (v : Word33) : (c.push v).obuf = c.obuf := rfl

/-! ### `CompContext.closeRange` -/

@[simp] theorem CompContext.closeRange_cphase (c : CompContext) : (c.closeRange).cphase = c.cphase := rfl
@[simp] theorem CompContext.closeRange_cerr (c : CompContext) : (c.closeRange).cerr = c.cerr := rfl
@[simp] theorem CompContext.closeRange_cinfo0 (c : CompContext) : (c.closeRange).cinfo0 = c.cinfo0 := rfl
@[simp] theorem CompContext.closeRange_cinfo1 (c : CompContext) : (c.closeRange).cinfo1 = c.cinfo1 := rfl
@[simp] theorem CompContext.closeRange_maxsize (c : CompContext) : (c.closeRange).maxsize = c.maxsize := rfl
@[simp] theorem CompContext.closeRange_nhave (c : CompContext) : (c.closeRange).nhave = c.nhave := rfl
@[simp] theorem CompContext.closeRange_ps (c : CompContext) : (c.closeRange).ps = c.ps := rfl
@[simp] theorem CompContext.closeRange_pe (c : CompContext) : (c.closeRange).pe = c.pe := rfl
@[simp] theorem CompContext.closeRange_lee (c : CompContext) : (c.closeRange).lee = c.pe.setWidth 33 := rfl
@[simp] theorem CompContext.closeRange_eoi (c : CompContext) : (c.closeRange).eoi = c.eoi := rfl
@[simp] theorem CompContext.closeRange_flatq (c : CompContext) : (c.closeRange).flatq = (c.flatq ++ [c.gap]) ++ [c.runLength] := rfl
@[simp] theorem CompContext.closeRange_aphase (c : CompContext) : (c.closeRange).aphase = c.aphase := rfl
@[simp] theorem CompContext.closeRange_async (c : CompContext) : (c.closeRange).async = c.async := rfl
@[simp] theorem CompContext.closeRange_rem (c : CompContext) : (c.closeRange).rem = c.rem := rfl
@[simp] theorem CompContext.closeRange_bitlen (c : CompContext) : (c.closeRange).bitlen = c.bitlen := rfl
@[simp] theorem CompContext.closeRange_cap (c : CompContext) : (c.closeRange).cap = c.cap := rfl
@[simp] theorem CompContext.closeRange_clen (c : CompContext) : (c.closeRange).clen = c.clen := rfl
@[simp] theorem CompContext.closeRange_obuf (c : CompContext) : (c.closeRange).obuf = c.obuf := rfl

/-! ### `CompContext.appendBit` -/

@[simp] theorem CompContext.appendBit_cphase (c : CompContext) (b : Bool) : (c.appendBit b).cphase = c.cphase := rfl
@[simp] theorem CompContext.appendBit_cerr (c : CompContext) (b : Bool) : (c.appendBit b).cerr = c.cerr := rfl
@[simp] theorem CompContext.appendBit_cinfo0 (c : CompContext) (b : Bool) : (c.appendBit b).cinfo0 = c.cinfo0 := rfl
@[simp] theorem CompContext.appendBit_cinfo1 (c : CompContext) (b : Bool) : (c.appendBit b).cinfo1 = c.cinfo1 := rfl
@[simp] theorem CompContext.appendBit_maxsize (c : CompContext) (b : Bool) : (c.appendBit b).maxsize = c.maxsize := rfl
@[simp] theorem CompContext.appendBit_nhave (c : CompContext) (b : Bool) : (c.appendBit b).nhave = c.nhave := rfl
@[simp] theorem CompContext.appendBit_ps (c : CompContext) (b : Bool) : (c.appendBit b).ps = c.ps := rfl
@[simp] theorem CompContext.appendBit_pe (c : CompContext) (b : Bool) : (c.appendBit b).pe = c.pe := rfl
@[simp] theorem CompContext.appendBit_lee (c : CompContext) (b : Bool) : (c.appendBit b).lee = c.lee := rfl
@[simp] theorem CompContext.appendBit_eoi (c : CompContext) (b : Bool) : (c.appendBit b).eoi = c.eoi := rfl
@[simp] theorem CompContext.appendBit_flatq (c : CompContext) (b : Bool) : (c.appendBit b).flatq = c.flatq := rfl
@[simp] theorem CompContext.appendBit_aphase (c : CompContext) (b : Bool) : (c.appendBit b).aphase = c.aphase := rfl
@[simp] theorem CompContext.appendBit_async (c : CompContext) (b : Bool) : (c.appendBit b).async = c.async := rfl
@[simp] theorem CompContext.appendBit_rem (c : CompContext) (b : Bool) : (c.appendBit b).rem = c.rem := rfl
@[simp] theorem CompContext.appendBit_bitlen (c : CompContext) (b : Bool) : (c.appendBit b).bitlen = word64 (c.bitlen.toNat + 1) := rfl
@[simp] theorem CompContext.appendBit_cap (c : CompContext) (b : Bool) : (c.appendBit b).cap = c.cap := rfl
@[simp] theorem CompContext.appendBit_clen (c : CompContext) (b : Bool) : (c.appendBit b).clen = c.clen := rfl
@[simp] theorem CompContext.appendBit_obuf (c : CompContext) (b : Bool) : (c.appendBit b).obuf = c.obuf.writeStreamBit c.bitlen.toNat b := rfl

/-! ### `CompContext.autoDone` -/

@[simp] theorem CompContext.autoDone_cphase (c : CompContext) : (c.autoDone).cphase = c.cphase := rfl
@[simp] theorem CompContext.autoDone_cerr (c : CompContext) : (c.autoDone).cerr = c.cerr := rfl
@[simp] theorem CompContext.autoDone_cinfo0 (c : CompContext) : (c.autoDone).cinfo0 = c.cinfo0 := rfl
@[simp] theorem CompContext.autoDone_cinfo1 (c : CompContext) : (c.autoDone).cinfo1 = c.cinfo1 := rfl
@[simp] theorem CompContext.autoDone_maxsize (c : CompContext) : (c.autoDone).maxsize = c.maxsize := rfl
@[simp] theorem CompContext.autoDone_nhave (c : CompContext) : (c.autoDone).nhave = c.nhave := rfl
@[simp] theorem CompContext.autoDone_ps (c : CompContext) : (c.autoDone).ps = c.ps := rfl
@[simp] theorem CompContext.autoDone_pe (c : CompContext) : (c.autoDone).pe = c.pe := rfl
@[simp] theorem CompContext.autoDone_lee (c : CompContext) : (c.autoDone).lee = c.lee := rfl
@[simp] theorem CompContext.autoDone_eoi (c : CompContext) : (c.autoDone).eoi = c.eoi := rfl
@[simp] theorem CompContext.autoDone_flatq (c : CompContext) : (c.autoDone).flatq = c.flatq := rfl
@[simp] theorem CompContext.autoDone_aphase (c : CompContext) : (c.autoDone).aphase = .done := rfl
@[simp] theorem CompContext.autoDone_async (c : CompContext) : (c.autoDone).async = c.async := rfl
@[simp] theorem CompContext.autoDone_rem (c : CompContext) : (c.autoDone).rem = c.rem := rfl
@[simp] theorem CompContext.autoDone_bitlen (c : CompContext) : (c.autoDone).bitlen = c.bitlen := rfl
@[simp] theorem CompContext.autoDone_cap (c : CompContext) : (c.autoDone).cap = c.cap := rfl
@[simp] theorem CompContext.autoDone_clen (c : CompContext) : (c.autoDone).clen = c.clen := rfl
@[simp] theorem CompContext.autoDone_obuf (c : CompContext) : (c.autoDone).obuf = c.obuf := rfl

/-! ### `CompContext.complete` -/

@[simp] theorem CompContext.complete_cphase (c : CompContext) : (c.complete).cphase = .done := rfl
@[simp] theorem CompContext.complete_cerr (c : CompContext) : (c.complete).cerr = c.cerr := rfl
@[simp] theorem CompContext.complete_cinfo0 (c : CompContext) : (c.complete).cinfo0 = c.cinfo0 := rfl
@[simp] theorem CompContext.complete_cinfo1 (c : CompContext) : (c.complete).cinfo1 = c.cinfo1 := rfl
@[simp] theorem CompContext.complete_maxsize (c : CompContext) : (c.complete).maxsize = c.maxsize := rfl
@[simp] theorem CompContext.complete_nhave (c : CompContext) : (c.complete).nhave = c.nhave := rfl
@[simp] theorem CompContext.complete_ps (c : CompContext) : (c.complete).ps = c.ps := rfl
@[simp] theorem CompContext.complete_pe (c : CompContext) : (c.complete).pe = c.pe := rfl
@[simp] theorem CompContext.complete_lee (c : CompContext) : (c.complete).lee = c.lee := rfl
@[simp] theorem CompContext.complete_eoi (c : CompContext) : (c.complete).eoi = c.eoi := rfl
@[simp] theorem CompContext.complete_flatq (c : CompContext) : (c.complete).flatq = c.flatq := rfl
@[simp] theorem CompContext.complete_aphase (c : CompContext) : (c.complete).aphase = c.aphase := rfl
@[simp] theorem CompContext.complete_async (c : CompContext) : (c.complete).async = c.async := rfl
@[simp] theorem CompContext.complete_rem (c : CompContext) : (c.complete).rem = c.rem := rfl
@[simp] theorem CompContext.complete_bitlen (c : CompContext) : (c.complete).bitlen = c.bitlen := rfl
@[simp] theorem CompContext.complete_cap (c : CompContext) : (c.complete).cap = word33 (ceilDiv c.bitlen.toNat 8) := rfl
@[simp] theorem CompContext.complete_clen (c : CompContext) : (c.complete).clen = word33 (ceilDiv c.bitlen.toNat 8) := rfl
@[simp] theorem CompContext.complete_obuf (c : CompContext) : (c.complete).obuf = c.obuf := rfl

/-! ### `CompContext.init` -/

@[simp] theorem CompContext.init_cphase (c : CompContext) (m : Word32) : (c.init m).cphase = .opened := rfl
@[simp] theorem CompContext.init_cerr (c : CompContext) (m : Word32) : (c.init m).cerr = 0 := rfl
@[simp] theorem CompContext.init_cinfo0 (c : CompContext) (m : Word32) : (c.init m).cinfo0 = 0 := rfl
@[simp] theorem CompContext.init_cinfo1 (c : CompContext) (m : Word32) : (c.init m).cinfo1 = 0 := rfl
@[simp] theorem CompContext.init_maxsize (c : CompContext) (m : Word32) : (c.init m).maxsize = m := rfl
@[simp] theorem CompContext.init_nhave (c : CompContext) (m : Word32) : (c.init m).nhave = false := rfl
@[simp] theorem CompContext.init_ps (c : CompContext) (m : Word32) : (c.init m).ps = 0 := rfl
@[simp] theorem CompContext.init_pe (c : CompContext) (m : Word32) : (c.init m).pe = 0 := rfl
@[simp] theorem CompContext.init_lee (c : CompContext) (m : Word32) : (c.init m).lee = BitVec.ofInt 33 (-1) := rfl
@[simp] theorem CompContext.init_eoi (c : CompContext) (m : Word32) : (c.init m).eoi = false := rfl
@[simp] theorem CompContext.init_flatq (c : CompContext) (m : Word32) : (c.init m).flatq = [] := rfl
@[simp] theorem CompContext.init_aphase (c : CompContext) (m : Word32) : (c.init m).aphase = .unseeded := rfl
@[simp] theorem CompContext.init_async (c : CompContext) (m : Word32) : (c.init m).async = false := rfl
@[simp] theorem CompContext.init_rem (c : CompContext) (m : Word32) : (c.init m).rem = 0 := rfl
@[simp] theorem CompContext.init_bitlen (c : CompContext) (m : Word32) : (c.init m).bitlen = 0 := rfl
@[simp] theorem CompContext.init_cap (c : CompContext) (m : Word32) : (c.init m).cap = 0 := rfl
@[simp] theorem CompContext.init_clen (c : CompContext) (m : Word32) : (c.init m).clen = 0 := rfl
@[simp] theorem CompContext.init_obuf (c : CompContext) (m : Word32) : (c.init m).obuf = c.obuf := rfl

/-! ### `DecompContext.latch` -/

@[simp] theorem DecompContext.latch_dphase (d : DecompContext) (e : Raised) : (d.latch e).dphase = .error := rfl
@[simp] theorem DecompContext.latch_derr (d : DecompContext) (e : Raised) : (d.latch e).derr = e.status.code := rfl
@[simp] theorem DecompContext.latch_dinfo0 (d : DecompContext) (e : Raised) : (d.latch e).dinfo0 = e.info0 := rfl
@[simp] theorem DecompContext.latch_ilen (d : DecompContext) (e : Raised) : (d.latch e).ilen = d.ilen := rfl
@[simp] theorem DecompContext.latch_bpos (d : DecompContext) (e : Raised) : (d.latch e).bpos = d.bpos := rfl
@[simp] theorem DecompContext.latch_pos (d : DecompContext) (e : Raised) : (d.latch e).pos = d.pos := rfl
@[simp] theorem DecompContext.latch_sym (d : DecompContext) (e : Raised) : (d.latch e).sym = d.sym := rfl
@[simp] theorem DecompContext.latch_dopen (d : DecompContext) (e : Raised) : (d.latch e).dopen = d.dopen := rfl
@[simp] theorem DecompContext.latch_dstart (d : DecompContext) (e : Raised) : (d.latch e).dstart = d.dstart := rfl
@[simp] theorem DecompContext.latch_lastd (d : DecompContext) (e : Raised) : (d.latch e).lastd = d.lastd := rfl
@[simp] theorem DecompContext.latch_nranges (d : DecompContext) (e : Raised) : (d.latch e).nranges = d.nranges := rfl
@[simp] theorem DecompContext.latch_ibuf (d : DecompContext) (e : Raised) : (d.latch e).ibuf = d.ibuf := rfl
@[simp] theorem DecompContext.latch_written (d : DecompContext) (e : Raised) : (d.latch e).written = d.written := rfl

/-! ### `DecompContext.advance` -/

@[simp] theorem DecompContext.advance_dphase (d : DecompContext) : (d.advance).dphase = d.dphase := rfl
@[simp] theorem DecompContext.advance_derr (d : DecompContext) : (d.advance).derr = d.derr := rfl
@[simp] theorem DecompContext.advance_dinfo0 (d : DecompContext) : (d.advance).dinfo0 = d.dinfo0 := rfl
@[simp] theorem DecompContext.advance_ilen (d : DecompContext) : (d.advance).ilen = d.ilen := rfl
@[simp] theorem DecompContext.advance_bpos (d : DecompContext) : (d.advance).bpos = word64 (d.bpos.toNat + 2 * d.zeros + 1) := rfl
@[simp] theorem DecompContext.advance_pos (d : DecompContext) : (d.advance).pos = d.pos := rfl
@[simp] theorem DecompContext.advance_sym (d : DecompContext) : (d.advance).sym = d.sym := rfl
@[simp] theorem DecompContext.advance_dopen (d : DecompContext) : (d.advance).dopen = d.dopen := rfl
@[simp] theorem DecompContext.advance_dstart (d : DecompContext) : (d.advance).dstart = d.dstart := rfl
@[simp] theorem DecompContext.advance_lastd (d : DecompContext) : (d.advance).lastd = word64 d.codewordValue := rfl
@[simp] theorem DecompContext.advance_nranges (d : DecompContext) : (d.advance).nranges = d.nranges := rfl
@[simp] theorem DecompContext.advance_ibuf (d : DecompContext) : (d.advance).ibuf = d.ibuf := rfl
@[simp] theorem DecompContext.advance_written (d : DecompContext) : (d.advance).written = d.written := rfl

/-! ### `DecompContext.load` -/

@[simp] theorem DecompContext.load_dphase (d : DecompContext) (a : Nat) (b : Byte) : (d.load a b).dphase = d.dphase := rfl
@[simp] theorem DecompContext.load_derr (d : DecompContext) (a : Nat) (b : Byte) : (d.load a b).derr = d.derr := rfl
@[simp] theorem DecompContext.load_dinfo0 (d : DecompContext) (a : Nat) (b : Byte) : (d.load a b).dinfo0 = d.dinfo0 := rfl
@[simp] theorem DecompContext.load_ilen (d : DecompContext) (a : Nat) (b : Byte) : (d.load a b).ilen = d.ilen := rfl
@[simp] theorem DecompContext.load_bpos (d : DecompContext) (a : Nat) (b : Byte) : (d.load a b).bpos = d.bpos := rfl
@[simp] theorem DecompContext.load_pos (d : DecompContext) (a : Nat) (b : Byte) : (d.load a b).pos = d.pos := rfl
@[simp] theorem DecompContext.load_sym (d : DecompContext) (a : Nat) (b : Byte) : (d.load a b).sym = d.sym := rfl
@[simp] theorem DecompContext.load_dopen (d : DecompContext) (a : Nat) (b : Byte) : (d.load a b).dopen = d.dopen := rfl
@[simp] theorem DecompContext.load_dstart (d : DecompContext) (a : Nat) (b : Byte) : (d.load a b).dstart = d.dstart := rfl
@[simp] theorem DecompContext.load_lastd (d : DecompContext) (a : Nat) (b : Byte) : (d.load a b).lastd = d.lastd := rfl
@[simp] theorem DecompContext.load_nranges (d : DecompContext) (a : Nat) (b : Byte) : (d.load a b).nranges = d.nranges := rfl
@[simp] theorem DecompContext.load_ibuf (d : DecompContext) (a : Nat) (b : Byte) : (d.load a b).ibuf = d.ibuf.write a b := rfl
@[simp] theorem DecompContext.load_written (d : DecompContext) (a : Nat) (b : Byte) : (d.load a b).written = markWritten d.written a := rfl

/-! ### `DecompContext.init` -/

@[simp] theorem DecompContext.init_dphase (d : DecompContext) (n : Word32) : (d.init n).dphase = .ready := rfl
@[simp] theorem DecompContext.init_derr (d : DecompContext) (n : Word32) : (d.init n).derr = 0 := rfl
@[simp] theorem DecompContext.init_dinfo0 (d : DecompContext) (n : Word32) : (d.init n).dinfo0 = 0 := rfl
@[simp] theorem DecompContext.init_ilen (d : DecompContext) (n : Word32) : (d.init n).ilen = n := rfl
@[simp] theorem DecompContext.init_bpos (d : DecompContext) (n : Word32) : (d.init n).bpos = 0 := rfl
@[simp] theorem DecompContext.init_pos (d : DecompContext) (n : Word32) : (d.init n).pos = 0 := rfl
@[simp] theorem DecompContext.init_sym (d : DecompContext) (n : Word32) : (d.init n).sym = false := rfl
@[simp] theorem DecompContext.init_dopen (d : DecompContext) (n : Word32) : (d.init n).dopen = false := rfl
@[simp] theorem DecompContext.init_dstart (d : DecompContext) (n : Word32) : (d.init n).dstart = 0 := rfl
@[simp] theorem DecompContext.init_lastd (d : DecompContext) (n : Word32) : (d.init n).lastd = 0 := rfl
@[simp] theorem DecompContext.init_nranges (d : DecompContext) (n : Word32) : (d.init n).nranges = 0 := rfl
@[simp] theorem DecompContext.init_ibuf (d : DecompContext) (n : Word32) : (d.init n).ibuf = d.ibuf := rfl
@[simp] theorem DecompContext.init_written (d : DecompContext) (n : Word32) : (d.init n).written = [] := rfl

/-! ### `State.respond` -/

@[simp] theorem State.respond_params (s : State) (k : Code) (v0 v1 : Word64) : (s.respond k v0 v1).params = s.params := rfl
@[simp] theorem State.respond_c (s : State) (k : Code) (v0 v1 : Word64) : (s.respond k v0 v1).c = s.c := rfl
@[simp] theorem State.respond_d (s : State) (k : Code) (v0 v1 : Word64) : (s.respond k v0 v1).d = s.d := rfl
@[simp] theorem State.respond_pending (s : State) (k : Code) (v0 v1 : Word64) : (s.respond k v0 v1).pending = s.pending := rfl
@[simp] theorem State.respond_resp (s : State) (k : Code) (v0 v1 : Word64) : (s.respond k v0 v1).resp = some { status := k, v0 := v0, v1 := v1 } := rfl

/-! ### `State.respondOk` -/

@[simp] theorem State.respondOk_params (s : State) (v0 v1 : Word64) : (s.respondOk v0 v1).params = s.params := rfl
@[simp] theorem State.respondOk_c (s : State) (v0 v1 : Word64) : (s.respondOk v0 v1).c = s.c := rfl
@[simp] theorem State.respondOk_d (s : State) (v0 v1 : Word64) : (s.respondOk v0 v1).d = s.d := rfl
@[simp] theorem State.respondOk_pending (s : State) (v0 v1 : Word64) : (s.respondOk v0 v1).pending = s.pending := rfl
@[simp] theorem State.respondOk_resp (s : State) (v0 v1 : Word64) : (s.respondOk v0 v1).resp = some { status := Status.ok.code, v0 := v0, v1 := v1 } := rfl

/-! ### `State.refuse` -/

@[simp] theorem State.refuse_params (s : State) (op : Byte) : (s.refuse op).params = s.params := rfl
@[simp] theorem State.refuse_c (s : State) (op : Byte) : (s.refuse op).c = s.c := rfl
@[simp] theorem State.refuse_d (s : State) (op : Byte) : (s.refuse op).d = s.d := rfl
@[simp] theorem State.refuse_pending (s : State) (op : Byte) : (s.refuse op).pending = s.pending := rfl
@[simp] theorem State.refuse_resp (s : State) (op : Byte) : (s.refuse op).resp = some { status := Status.illegalCommand.code, v0 := zextOp op, v1 := 0 } := rfl

/-! ### `State.raiseC` -/

@[simp] theorem State.raiseC_params (s : State) (c : CompContext) (e : Raised) : (s.raiseC c e).params = s.params := rfl
@[simp] theorem State.raiseC_c (s : State) (c : CompContext) (e : Raised) : (s.raiseC c e).c = c.latch e := rfl
@[simp] theorem State.raiseC_d (s : State) (c : CompContext) (e : Raised) : (s.raiseC c e).d = s.d := rfl
@[simp] theorem State.raiseC_pending (s : State) (c : CompContext) (e : Raised) : (s.raiseC c e).pending = s.pending := rfl
@[simp] theorem State.raiseC_resp (s : State) (c : CompContext) (e : Raised) : (s.raiseC c e).resp = some { status := e.status.code, v0 := e.info0, v1 := e.info1 } := rfl

/-! ### `State.raiseD` -/

@[simp] theorem State.raiseD_params (s : State) (d : DecompContext) (e : Raised) : (s.raiseD d e).params = s.params := rfl
@[simp] theorem State.raiseD_c (s : State) (d : DecompContext) (e : Raised) : (s.raiseD d e).c = s.c := rfl
@[simp] theorem State.raiseD_d (s : State) (d : DecompContext) (e : Raised) : (s.raiseD d e).d = d.latch e := rfl
@[simp] theorem State.raiseD_pending (s : State) (d : DecompContext) (e : Raised) : (s.raiseD d e).pending = s.pending := rfl
@[simp] theorem State.raiseD_resp (s : State) (d : DecompContext) (e : Raised) : (s.raiseD d e).resp = some { status := e.status.code, v0 := e.info0, v1 := e.info1 } := rfl

/-! ### `State.repeatC` -/

@[simp] theorem State.repeatC_params (s : State) : (s.repeatC).params = s.params := rfl
@[simp] theorem State.repeatC_c (s : State) : (s.repeatC).c = s.c := rfl
@[simp] theorem State.repeatC_d (s : State) : (s.repeatC).d = s.d := rfl
@[simp] theorem State.repeatC_pending (s : State) : (s.repeatC).pending = s.pending := rfl
@[simp] theorem State.repeatC_resp (s : State) : (s.repeatC).resp = some { status := s.c.cerr, v0 := s.c.cinfo0, v1 := s.c.cinfo1 } := rfl

/-! ### `State.repeatD` -/

@[simp] theorem State.repeatD_params (s : State) : (s.repeatD).params = s.params := rfl
@[simp] theorem State.repeatD_c (s : State) : (s.repeatD).c = s.c := rfl
@[simp] theorem State.repeatD_d (s : State) : (s.repeatD).d = s.d := rfl
@[simp] theorem State.repeatD_pending (s : State) : (s.repeatD).pending = s.pending := rfl
@[simp] theorem State.repeatD_resp (s : State) : (s.repeatD).resp = some { status := s.d.derr, v0 := s.d.dinfo0, v1 := 0 } := rfl

/-! ### `State.issue` -/

@[simp] theorem State.issue_params (s : State) (w : CmdWord) : (s.issue w).params = s.params := rfl
@[simp] theorem State.issue_c (s : State) (w : CmdWord) : (s.issue w).c = s.c := rfl
@[simp] theorem State.issue_d (s : State) (w : CmdWord) : (s.issue w).d = s.d := rfl
@[simp] theorem State.issue_pending (s : State) (w : CmdWord) : (s.issue w).pending = .command w :: s.pending := rfl
@[simp] theorem State.issue_resp (s : State) (w : CmdWord) : (s.issue w).resp = s.resp := rfl

/-! ### `State.hardwareReset` -/

@[simp] theorem State.hardwareReset_params (s : State) : (s.hardwareReset).params = s.params := rfl
@[simp] theorem State.hardwareReset_c (s : State) : (s.hardwareReset).c = CompContext.reset := rfl
@[simp] theorem State.hardwareReset_d (s : State) : (s.hardwareReset).d = DecompContext.reset := rfl
@[simp] theorem State.hardwareReset_pending (s : State) : (s.hardwareReset).pending = s.pending := rfl
@[simp] theorem State.hardwareReset_resp (s : State) : (s.hardwareReset).resp = none := rfl

end Sys2Proof.Machine
end

