-- ==== Sys2Proof/Laws/Bitstream.lean ====
section
/-! SUPPORT. What the packer, the encoder and the unpacker do: sizes, the bits a codeword appends, and what they leave. -/

namespace Sys2Proof.Machine

/-! ### Exact results that fit -/

theorem word64_toNat {n : Nat} (h : n < 2 ^ 64) : (word64 n).toNat = n := by
  rw [word64, BitVec.toNat_ofNat, Nat.mod_eq_of_lt h]

theorem word33_toNat {n : Nat} (h : n < 2 ^ 33) : (word33 n).toNat = n := by
  rw [word33, BitVec.toNat_ofNat, Nat.mod_eq_of_lt h]

@[simp] theorem word64_zero_toNat : (word64 0).toNat = 0 := rfl

theorem word64_self (v : Word64) : word64 v.toNat = v := by simp [word64]

/-! ### Sizes (43_bitstream.md R182, R184) -/

theorem ceilDiv_eight (b : Nat) : ceilDiv b 8 = (b + 7) / 8 := rfl

theorem roundUp_one (a : Nat) : roundUp a 1 = a := by simp [roundUp, ceilDiv]

theorem roundUp_four (a : Nat) : roundUp a 4 = (a + 3) / 4 * 4 := rfl

theorem le_roundUp_four (a : Nat) : a ≤ roundUp a 4 := by rw [roundUp_four]; omega

theorem requiredBytes_one (b : Nat) : requiredBytes .one b = ceilDiv b 8 := roundUp_one _

theorem ceilDiv_le_requiredBytes (g : Config.Granule) (b : Nat) : ceilDiv b 8 ≤ requiredBytes g b := by
  cases g
  · rw [requiredBytes_one]
  · exact le_roundUp_four _

/-- The required size holds the bits (R182). -/
theorem le_requiredBytes (g : Config.Granule) (b : Nat) : b ≤ 8 * requiredBytes g b := by
  have h := ceilDiv_le_requiredBytes g b
  rw [ceilDiv_eight] at h
  omega

/-- After growth the capacity holds what is needed (R184). -/
theorem le_grow {cap need m : Nat} (h : need ≤ m) : need ≤ grow cap need m := by
  have h1 := le_roundUp_four (max (2 * cap) need)
  have h2 : need ≤ max (2 * cap) need := Nat.le_max_right _ _
  simp only [grow]
  omega

/-- Growth never passes the cap (R184, 90_conflicts.md C4). -/
theorem grow_le (cap need m : Nat) : grow cap need m ≤ m := Nat.min_le_right _ _

/-! ### Appending bits (R181) -/

/-- Appending writes OBUF and `C.bitlen`, nothing else. -/
theorem bitAppend_frame (v n : Nat) (c : CompContext) :
    bitAppend v n c = { c with obuf := (bitAppend v n c).obuf, bitlen := (bitAppend v n c).bitlen } := by
  induction n generalizing c with
  | zero => rfl
  | succ n ih => rw [bitAppend, ih]; rfl

theorem bitAppend_bitlen (v n : Nat) (c : CompContext) (h : c.bitlen.toNat + n < 2 ^ 64) :
    (bitAppend v n c).bitlen.toNat = c.bitlen.toNat + n := by
  induction n generalizing c with
  | zero => rfl
  | succ n ih =>
    have h1 : (c.appendBit (v.testBit n)).bitlen.toNat = c.bitlen.toNat + 1 := word64_toNat (by omega)
    rw [bitAppend, ih _ (by omega), h1]
    omega

theorem bitAppend_wf (v n : Nat) {c : CompContext} (h : c.obuf.Wf) : (bitAppend v n c).obuf.Wf := by
  induction n generalizing c with
  | zero => exact h
  | succ n ih => exact ih (Memory.writeStreamBit_wf h _ _)

/-- The bits appended, first bit most significant; every other stream bit is as before. -/
theorem bitAppend_cbit (v n : Nat) {c : CompContext} (hw : c.obuf.Wf) (h : c.bitlen.toNat + n < 2 ^ 64) (i : Nat) :
    (bitAppend v n c).cbit i =
      if c.bitlen.toNat ≤ i ∧ i < c.bitlen.toNat + n then v.testBit (c.bitlen.toNat + n - 1 - i) else c.cbit i := by
  induction n generalizing c with
  | zero => rw [if_neg (by omega)]; rfl
  | succ n ih =>
    have h1 : (c.appendBit (v.testBit n)).bitlen.toNat = c.bitlen.toNat + 1 := word64_toNat (by omega)
    have hb : (c.appendBit (v.testBit n)).cbit i = if i = c.bitlen.toNat then v.testBit n else c.cbit i :=
      Memory.streamBit_writeStreamBit hw _ _ _
    rw [bitAppend, ih (Memory.writeStreamBit_wf hw _ _) (by omega), h1, hb]
    by_cases hi : i = c.bitlen.toNat
    · subst hi
      rw [if_neg (by omega), if_pos rfl, if_pos (by omega)]
      congr 1; omega
    · rw [if_neg hi]
      by_cases hr : c.bitlen.toNat + 1 ≤ i ∧ i < c.bitlen.toNat + 1 + n
      · rw [if_pos hr, if_pos (by omega)]
        congr 1; omega
      · rw [if_neg hr, if_neg (by omega)]

/-- Appending does not read the capacity. -/
theorem bitAppend_cap (v n : Nat) (c : CompContext) (k : Word33) :
    bitAppend v n { c with cap := k } = { bitAppend v n c with cap := k } := by
  induction n generalizing c with
  | zero => rfl
  | succ n ih => exact ih (c.appendBit (v.testBit n))

/-- A byte that holds no appended bit is as before. -/
theorem bitAppend_read (v n : Nat) {c : CompContext} (h : c.bitlen.toNat + n < 2 ^ 64) {a : Nat}
    (ha : a < c.bitlen.toNat / 8 ∨ c.bitlen.toNat + n ≤ 8 * a) : (bitAppend v n c).obuf.read a = c.obuf.read a := by
  induction n generalizing c with
  | zero => rfl
  | succ n ih =>
    have h1 : (c.appendBit (v.testBit n)).bitlen.toNat = c.bitlen.toNat + 1 := word64_toNat (by omega)
    rw [bitAppend, ih (by omega) (by omega)]
    exact Memory.read_writeStreamBit_other _ _ (by omega)

/-- Where the bytes are that appending may list. -/
theorem mem_bitAppend {v n : Nat} {c : CompContext} (h : c.bitlen.toNat + n < 2 ^ 64) {x : Host.Cell}
    (hx : x ∈ (bitAppend v n c).obuf) : x ∈ c.obuf ∨ 8 * x.1 < c.bitlen.toNat + n := by
  induction n generalizing c with
  | zero => exact .inl hx
  | succ n ih =>
    have h1 : (c.appendBit (v.testBit n)).bitlen.toNat = c.bitlen.toNat + 1 := word64_toNat (by omega)
    rcases ih (by omega) hx with hx | hx
    · rcases Memory.mem_writeStreamBit hx with hx | hx
      · exact .inl hx
      · right; omega
    · right; omega

/-! ### Packing a codeword (R181, R183, R184) -/

/-- The capacity after a codeword of `n` bits (R181, R184). -/
def CompContext.packedCap (c : CompContext) (g : Config.Granule) (n : Nat) : Word33 :=
  if c.cap.toNat < requiredBytes g (c.bitlen.toNat + n) then
    word33 (grow c.cap.toNat (requiredBytes g (c.bitlen.toNat + n)) c.maxsize.toNat)
  else c.cap

/-- Packing a codeword that fits appends it and may grow the capacity. -/
theorem packCodeword_ok {g : Config.Granule} {v n : Nat} {c c' : CompContext} (h : packCodeword g v n c = .ok c') :
    requiredBytes g (c.bitlen.toNat + n) ≤ c.maxsize.toNat ∧
      c' = { bitAppend v n c with cap := c.packedCap g n } := by
  have key := bitAppend_cap v n c
  simp only [packCodeword] at h
  split at h
  · simp at h
  · refine ⟨by omega, ?_⟩
    unfold CompContext.packedCap
    split at h
    · rw [if_pos (by assumption), ← key]; simpa using h.symm
    · rw [if_neg (by assumption), ← key]; simpa using h.symm

/-- Packing fails exactly when the required size passes the cap (R183). -/
theorem packCodeword_error {g : Config.Granule} {v n : Nat} {c : CompContext} {e : Raised} :
    packCodeword g v n c = .error e ↔
      c.maxsize.toNat < requiredBytes g (c.bitlen.toNat + n) ∧
        e = bufferCapacityExceeded (requiredBytes g (c.bitlen.toNat + n)) c.maxsize := by
  simp only [packCodeword]
  split
  · simp [*, eq_comm]
  · split <;> simp [*]

/-- The bits fit the 64-bit counter whenever the codeword fits the cap. -/
theorem bitlen_lt_of_required {g : Config.Granule} {n : Nat} {c : CompContext}
    (h : requiredBytes g (c.bitlen.toNat + n) ≤ c.maxsize.toNat) : c.bitlen.toNat + n < 2 ^ 64 := by
  have h1 := le_requiredBytes g (c.bitlen.toNat + n)
  have h2 := c.maxsize.isLt
  omega

theorem packedCap_toNat {g : Config.Granule} {n : Nat} {c : CompContext} :
    (c.packedCap g n).toNat =
      if c.cap.toNat < requiredBytes g (c.bitlen.toNat + n) then
        grow c.cap.toNat (requiredBytes g (c.bitlen.toNat + n)) c.maxsize.toNat
      else c.cap.toNat := by
  unfold CompContext.packedCap
  split
  · have h1 := grow_le c.cap.toNat (requiredBytes g (c.bitlen.toNat + n)) c.maxsize.toNat
    have h2 := c.maxsize.isLt
    exact word33_toNat (by omega)
  · rfl

/-! ### Encoding an integer (42_elias_gamma.md R160, R161) -/

/-- An integer that is encoded is in range, its codeword fits, and the codeword is appended. -/
theorem gammaEncode_ok {g : Config.Granule} {x : Nat} {c c' : CompContext} (h : gammaEncode g x c = .ok c') :
    x ≤ Config.gammaMax ∧ requiredBytes g (c.bitlen.toNat + codewordLength x) ≤ c.maxsize.toNat ∧
      c' = { bitAppend x (codewordLength x) c with cap := c.packedCap g (codewordLength x) } := by
  unfold gammaEncode at h
  split at h
  · simp at h
  · exact ⟨by omega, packCodeword_ok h⟩

/-- The two errors of the encoder, in their order (R161, 60_exceptions.md R261). -/
theorem gammaEncode_error {g : Config.Granule} {x : Nat} {c : CompContext} {e : Raised} :
    gammaEncode g x c = .error e ↔
      (Config.gammaMax < x ∧ e = encodingRangeExceeded x) ∨
      (x ≤ Config.gammaMax ∧ c.maxsize.toNat < requiredBytes g (c.bitlen.toNat + codewordLength x) ∧
        e = bufferCapacityExceeded (requiredBytes g (c.bitlen.toNat + codewordLength x)) c.maxsize) := by
  unfold gammaEncode
  split
  · simp only [Except.error.injEq]
    constructor
    · rintro rfl; exact .inl ⟨by assumption, rfl⟩
    · rintro (⟨-, rfl⟩ | ⟨h, -⟩)
      · rfl
      · omega
  · rw [packCodeword_error]
    constructor
    · rintro ⟨h1, h2⟩; exact .inr ⟨by omega, h1, h2⟩
    · rintro (⟨h1, -⟩ | ⟨-, h1, h2⟩)
      · omega
      · exact ⟨h1, h2⟩

/-- An integer in range whose codeword fits is encoded. -/
theorem gammaEncode_completes {g : Config.Granule} {x : Nat} {c : CompContext} (hx : x ≤ Config.gammaMax)
    (hc : requiredBytes g (c.bitlen.toNat + codewordLength x) ≤ c.maxsize.toNat) :
    gammaEncode g x c = .ok { bitAppend x (codewordLength x) c with cap := c.packedCap g (codewordLength x) } := by
  cases h : gammaEncode g x c with
  | ok c' => rw [(gammaEncode_ok h).2.2]
  | error e =>
    rcases gammaEncode_error.1 h with ⟨h1, -⟩ | ⟨-, h1, -⟩ <;> omega

/-- A codeword is at most 63 bits long (R162). -/
theorem codewordLength_le {x : Nat} (h1 : 1 ≤ x) (hx : x ≤ Config.gammaMax) : codewordLength x ≤ 63 := by
  have h : Nat.log2 x < 32 := (Nat.log2_lt (by omega)).2 (by unfold Config.gammaMax at hx; omega)
  unfold codewordLength
  omega

/-! ### Reading bits (R186, R187) -/

theorem inBits_lt (d : DecompContext) (b n : Nat) : d.inBits b n < 2 ^ n := by
  induction n with
  | zero => simp [DecompContext.inBits]
  | succ n ih =>
    have : (d.inBit (b + n)).toNat ≤ 1 := Bool.toNat_le _
    rw [DecompContext.inBits, Nat.pow_succ]
    omega

/-- Bit `j` of the number read is the stream bit `n - 1 - j` places on. -/
theorem inBits_testBit (d : DecompContext) (b n j : Nat) :
    (d.inBits b n).testBit j = (decide (j < n) && d.inBit (b + (n - 1 - j))) := by
  induction n generalizing j with
  | zero => simp [DecompContext.inBits]
  | succ n ih =>
    have hb : (d.inBit (b + n)).toNat < 2 := Bool.toNat_lt _
    cases j with
    | zero =>
      rw [DecompContext.inBits, Nat.testBit_zero]
      cases h : d.inBit (b + n) <;> simp [h]
    | succ j =>
      rw [DecompContext.inBits, Nat.testBit_succ]
      have : (2 * d.inBits b n + (d.inBit (b + n)).toNat) / 2 = d.inBits b n := by omega
      rw [this, ih]
      by_cases hj : j < n
      · simp only [hj, Nat.add_lt_add_iff_right, decide_true, Bool.true_and]
        congr 1; omega
      · simp [hj]

end Sys2Proof.Machine
end

