-- ==== Sys2Proof/Laws/GapRun.lean ====
section
/-! SUPPORT. What the encode automaton does: its steps, said once, and where running it stops. -/

namespace Sys2Proof.Machine

/-! ### One step (41_gap_run_automaton.md R131 to R138) -/

/-- Everything a moving step can be. -/
inductive AutoMove (g : Config.Granule) (c : CompContext) : CompContext → Prop where
  | seed {v rest} (hp : c.aphase = .unseeded) (hq : c.flatq = v :: rest) :
      AutoMove g c { c with flatq := rest, rem := v, async := seedSync v, aphase := .run }
  | refill {v rest} (hp : c.aphase = .pullTop) (hq : c.flatq = v :: rest) :
      AutoMove g c { c with flatq := rest, rem := v, aphase := .run }
  | pullAfter {v rest} (hp : c.aphase = .pullAfterEmit) (hq : c.flatq = v :: rest) :
      AutoMove g c { c with flatq := rest, rem := v - 1, async := pullSync (v - 1), aphase := .run }
  | exhausted (hp : c.aphase = .unseeded ∨ c.aphase = .pullTop ∨ c.aphase = .pullAfterEmit) (hq : c.flatq = [])
      (he : c.eoi = true) : AutoMove g c c.autoDone
  | top (hp : c.aphase = .run) (hr : c.rem = 0) : AutoMove g c { c with aphase := .pullTop }
  | sync {c'} (hp : c.aphase = .run) (hr : c.rem ≠ 0) (ha : c.async = true)
      (he : gammaEncode g (c.rem.toNat + 1) c = .ok c') : AutoMove g c { c' with aphase := .pullAfterEmit }
  | unsync {c'} (hp : c.aphase = .run) (hr : c.rem ≠ 0) (ha : c.async = false) (he : gammaEncode g 1 c = .ok c') :
      AutoMove g c { c' with rem := c.rem - 1, async := unsyncSync (c.rem - 1) }

/-- The integer phase RUN emits (R137). -/
def CompContext.emission (c : CompContext) : Nat := if c.async then c.rem.toNat + 1 else 1

theorem autoStep_moved {g : Config.Granule} {c c' : CompContext} (h : autoStep g c = .moved c') : AutoMove g c c' := by
  have hpull : ∀ {f : Word33 → List Word33 → CompContext}, c.aphase = .unseeded ∨ c.aphase = .pullTop ∨ c.aphase = .pullAfterEmit →
      (∀ v rest, c.flatq = v :: rest → AutoMove g c (f v rest)) →
      (match c.pull with
        | .value v rest => AutoStep.moved (f v rest)
        | .exhausted => .moved c.autoDone
        | .blocked => .rests) = .moved c' → AutoMove g c c' := by
    intro f hp hf hh
    unfold CompContext.pull at hh
    cases hq : c.flatq with
    | cons v rest => simp only [hq, AutoStep.moved.injEq] at hh; rw [← hh]; exact hf v rest hq
    | nil =>
      cases he : c.eoi with
      | true => simp [hq, he] at hh; rw [← hh]; exact .exhausted hp hq he
      | false => simp [hq, he] at hh
  unfold autoStep at h
  cases hp : c.aphase with
  | unseeded => simp only [hp] at h; exact hpull (.inl hp) (fun v rest hq => .seed hp hq) h
  | pullTop => simp only [hp] at h; exact hpull (.inr (.inl hp)) (fun v rest hq => .refill hp hq) h
  | pullAfterEmit => simp only [hp] at h; exact hpull (.inr (.inr hp)) (fun v rest hq => .pullAfter hp hq) h
  | done => simp [hp] at h
  | run =>
    simp only [hp, runStep] at h
    split at h
    · cases h; exact .top hp (by assumption)
    · split at h
      · unfold emitThen at h
        split at h
        · cases h; exact .sync hp (by assumption) (by assumption) (by assumption)
        · cases h
      · unfold emitThen at h
        split at h
        · cases h; exact .unsync hp (by assumption) (by simp_all) (by assumption)
        · cases h

/-- A step rests at a blocked pull or in phase DONE, and only there (R133, R139). -/
theorem autoStep_rests {g : Config.Granule} {c : CompContext} :
    autoStep g c = .rests ↔
      ((c.aphase = .unseeded ∨ c.aphase = .pullTop ∨ c.aphase = .pullAfterEmit) ∧ c.flatq = [] ∧ c.eoi = false) ∨
        c.aphase = .done := by
  have hemit : ∀ x f, emitThen g x c f ≠ .rests := by
    intro x f; unfold emitThen; split <;> simp
  unfold autoStep
  cases hp : c.aphase
  case run => simp only [runStep]; split <;> [simp; (split <;> simp [hemit])]
  all_goals cases hq : c.flatq <;> cases he : c.eoi <;>
    simp [seedStep, refillStep, pullAfterStep, CompContext.pull, hq, he]

/-- A step raises an error only where phase RUN emits, and the error is the encoder's (R135, R136, R140). -/
theorem autoStep_raised {g : Config.Granule} {c : CompContext} {e : Raised} :
    autoStep g c = .raised e ↔ c.aphase = .run ∧ c.rem ≠ 0 ∧ gammaEncode g c.emission c = .error e := by
  have hemit : ∀ x f, emitThen g x c f = .raised e ↔ gammaEncode g x c = .error e := by
    intro x f; unfold emitThen; split <;> simp [*]
  unfold autoStep CompContext.emission
  cases hp : c.aphase
  case run =>
    simp only [runStep]
    split
    · simp [*]
    · rename_i hr
      cases c.async <;> simp [hemit] <;> exact fun _ => hr
  all_goals cases hq : c.flatq <;> cases he : c.eoi <;>
    simp [seedStep, refillStep, pullAfterStep, CompContext.pull, hq, he]

/-! ### Running (R139) -/

/-- What every moving step keeps, running keeps. -/
theorem autoSteps_keeps {g : Config.Granule} {P : CompContext → Prop}
    (hP : ∀ c c', P c → AutoMove g c c' → P c') (n : Nat) {c : CompContext} (h : P c) : P (autoSteps g n c).1 := by
  induction n generalizing c with
  | zero => exact h
  | succ n ih =>
    unfold autoSteps
    split
    · exact ih (hP _ _ h (autoStep_moved (by assumption)))
    · exact h
    · exact h

/-- Where running answers an error, the step that stands there raises it (60_exceptions.md R256). -/
theorem autoSteps_raised {g : Config.Granule} {n : Nat} {c c' : CompContext} {e : Raised}
    (h : autoSteps g n c = (c', some e)) : autoStep g c' = .raised e := by
  induction n generalizing c with
  | zero => simp [autoSteps] at h
  | succ n ih =>
    unfold autoSteps at h
    split at h
    · exact ih h
    · simp at h
    · simp only [Prod.mk.injEq, Option.some.injEq] at h
      obtain ⟨rfl, rfl⟩ := h; assumption

/-- How many moves the automaton still has in it at most (R144). -/
def CompContext.moves (c : CompContext) : Nat :=
  3 * c.flatq.length +
    match c.aphase with
    | .unseeded => 1
    | .pullTop => 1
    | .pullAfterEmit => 1
    | .done => 0
    | .run => if c.rem = 0 ∨ c.async = true then 2 else 3

/-- The encoder writes OBUF, `C.bitlen` and `C.cap`, nothing else. -/
theorem gammaEncode_frame {g : Config.Granule} {x : Nat} {c c' : CompContext} (h : gammaEncode g x c = .ok c') :
    c' = { c with obuf := c'.obuf, bitlen := c'.bitlen, cap := c'.cap } := by
  obtain ⟨-, -, rfl⟩ := gammaEncode_ok h
  rw [bitAppend_frame]

theorem AutoMove.moves_lt {g : Config.Granule} {c c' : CompContext} (h : AutoMove g c c') : c'.moves < c.moves := by
  cases h with
  | seed hp hq => simp only [CompContext.moves, hp, hq, List.length_cons]; split <;> omega
  | refill hp hq => simp only [CompContext.moves, hp, hq, List.length_cons]; split <;> omega
  | pullAfter hp hq => simp only [CompContext.moves, hp, hq, List.length_cons]; split <;> omega
  | exhausted hp hq he => rcases hp with hp | hp | hp <;> simp [CompContext.moves, hp, hq]
  | top hp hr => simp [CompContext.moves, hp, hr]
  | sync hp hr ha he =>
    have hq := congrArg CompContext.flatq (gammaEncode_frame he)
    simp only at hq
    simp only [CompContext.moves, hp, ha, hq, or_true, if_true]
    omega
  | unsync hp hr ha he =>
    have hq := congrArg CompContext.flatq (gammaEncode_frame he)
    have hp' := congrArg CompContext.aphase (gammaEncode_frame he)
    simp only at hq hp'
    simp only [CompContext.moves, hp, hq, hp', unsyncSync, hr, ha, bne_iff_ne, ne_eq]
    rw [if_pos (em _)]
    simp

/-- With steps enough, running stops where the automaton rests (R139). -/
theorem autoSteps_rests {g : Config.Granule} {n : Nat} {c c' : CompContext} (hn : c.moves < n)
    (h : autoSteps g n c = (c', none)) : autoStep g c' = .rests := by
  induction n generalizing c with
  | zero => omega
  | succ n ih =>
    unfold autoSteps at h
    split at h
    · have := (autoStep_moved (by assumption)).moves_lt
      exact ih (by omega) h
    · simp only [Prod.mk.injEq, and_true] at h
      subst h; assumption
    · simp at h

theorem moves_lt_autoBound (c : CompContext) : c.moves < autoBound c := by
  unfold CompContext.moves autoBound
  cases c.aphase
  case run => simp only; split <;> omega
  all_goals simp

/-- `RunAutomaton()` ends at a blocked pull, in phase DONE, or with an error (R139). -/
theorem runAutomaton_rests {g : Config.Granule} {c c' : CompContext} (h : runAutomaton g c = (c', none)) :
    autoStep g c' = .rests := autoSteps_rests (moves_lt_autoBound c) h

theorem runAutomaton_raised {g : Config.Granule} {c c' : CompContext} {e : Raised}
    (h : runAutomaton g c = (c', some e)) : autoStep g c' = .raised e := autoSteps_raised h

theorem runAutomaton_keeps {g : Config.Granule} {P : CompContext → Prop}
    (hP : ∀ c c', P c → AutoMove g c c' → P c') {c : CompContext} (h : P c) : P (runAutomaton g c).1 :=
  autoSteps_keeps hP _ h

/-- More steps than needed change nothing. -/
theorem autoSteps_of_rests {g : Config.Granule} {c : CompContext} (h : autoStep g c = .rests) (n : Nat) :
    autoSteps g n c = (c, none) := by
  cases n with
  | zero => rfl
  | succ n => simp [autoSteps, h]

/-! ### What the automaton leaves alone -/

/-- The registers no step of the automaton writes (10_state.md R25, R28, R29). -/
theorem AutoMove.frame {g : Config.Granule} {c c' : CompContext} (h : AutoMove g c c') :
    c' = { c with
      flatq := c'.flatq, rem := c'.rem, async := c'.async, aphase := c'.aphase
      obuf := c'.obuf, bitlen := c'.bitlen, cap := c'.cap } := by
  cases h with
  | sync hp hr ha he => rw [gammaEncode_frame he]
  | unsync hp hr ha he => rw [gammaEncode_frame he]
  | _ => rfl

/-- Running the automaton writes only its own registers and the packer's (R139, R140). -/
theorem runAutomaton_frame (g : Config.Granule) (c : CompContext) :
    (runAutomaton g c).1 = { c with
      flatq := (runAutomaton g c).1.flatq, rem := (runAutomaton g c).1.rem, async := (runAutomaton g c).1.async
      aphase := (runAutomaton g c).1.aphase, obuf := (runAutomaton g c).1.obuf
      bitlen := (runAutomaton g c).1.bitlen, cap := (runAutomaton g c).1.cap } := by
  refine runAutomaton_keeps (P := fun x => x = { c with
      flatq := x.flatq, rem := x.rem, async := x.async, aphase := x.aphase
      obuf := x.obuf, bitlen := x.bitlen, cap := x.cap }) ?_ rfl
  intro x y hx hm
  rw [hm.frame, hx]

end Sys2Proof.Machine
end

