-- ==== Sys2Proof/Laws/RangeMerger.lean ====
section
/-! SUPPORT. What range_merger does with an element and with the end of input, said once (40_range_merger.md). -/

namespace Sys2Proof.Machine

/-- The element is refused by range_merger: backwards, or not beyond the open range (R112, R114). -/
abbrev CompContext.Invalid (c : CompContext) (start stop : Word32) : Prop :=
  stop.toNat < start.toNat ∨ (c.nhave = true ∧ start.toNat ≤ c.pe.toNat)

/-- InvalidRange is raised exactly for the invalid elements, with the element (R112, R114, R119). -/
theorem mergerAccept_error {c : CompContext} {start stop : Word32} {e : Raised} :
    mergerAccept start stop c = .error e ↔ c.Invalid start stop ∧ e = invalidRange start stop := by
  have hok : ∀ x : CompContext, (Except.ok x : Except Raised CompContext) = .error e ↔ False := by simp
  have herr : (Except.error (invalidRange start stop) : Except Raised CompContext) = .error e ↔
      e = invalidRange start stop := by rw [Except.error.injEq]; exact eq_comm
  unfold mergerAccept CompContext.Invalid
  simp only [BitVec.lt_def, BitVec.le_def]
  by_cases h1 : stop.toNat < start.toNat
  · rw [if_pos h1, herr]
    exact ⟨fun h => ⟨.inl h1, h⟩, fun h => h.2⟩
  · rw [if_neg h1]
    cases hn : c.nhave with
    | false =>
      rw [if_pos (by simp), hok]
      simp [h1]
    | true =>
      rw [if_neg (by simp)]
      by_cases h2 : start.toNat ≤ c.pe.toNat
      · rw [if_pos h2, herr]
        exact ⟨fun h => ⟨.inr ⟨rfl, h2⟩, h⟩, fun h => h.2⟩
      · rw [if_neg h2, iff_false_intro (a := _ ∧ _) (by omega)]
        split <;> rw [hok]

/-- Everything an accepted element can do (R113, R115, R116). -/
inductive Accepted (c : CompContext) (start stop : Word32) : CompContext → Prop where
  | first (hv : start.toNat ≤ stop.toNat) (hn : c.nhave = false) :
      Accepted c start stop { c with ps := start, pe := stop, nhave := true }
  | merge (hv : start.toNat ≤ stop.toNat) (hn : c.nhave = true) (hs : start.toNat = c.pe.toNat + 1) :
      Accepted c start stop { c with pe := stop }
  | close (hv : start.toNat ≤ stop.toNat) (hn : c.nhave = true) (hs : c.pe.toNat + 1 < start.toNat) :
      Accepted c start stop { c.closeRange with ps := start, pe := stop }

theorem mergerAccept_ok {c c' : CompContext} {start stop : Word32} :
    mergerAccept start stop c = .ok c' ↔ Accepted c start stop c' := by
  constructor
  · intro h
    unfold mergerAccept at h
    simp only [BitVec.lt_def, BitVec.le_def] at h
    split at h
    · simp at h
    · split at h
      · simp only [Except.ok.injEq] at h
        subst h; exact .first (by omega) (by simp_all)
      · split at h
        · simp at h
        · split at h
          · simp only [Except.ok.injEq] at h
            subst h; exact .merge (by omega) (by simp_all) (by assumption)
          · simp only [Except.ok.injEq] at h
            subst h; exact .close (by omega) (by simp_all) (by omega)
  · intro h
    unfold mergerAccept
    simp only [BitVec.lt_def, BitVec.le_def]
    cases h with
    | first hv hn => rw [if_neg (by omega), hn]; rfl
    | merge hv hn hs => rw [if_neg (by omega), hn, if_neg (by simp), if_neg (by omega), if_pos hs]
    | close hv hn hs => rw [if_neg (by omega), hn, if_neg (by simp), if_neg (by omega), if_neg (by omega)]

/-- An exact integer that fits a flat value is held as it is (00_scope.md R11). -/
theorem flatValue_toNat {z : Int} (h0 : 0 ≤ z) (h1 : z < 2 ^ 33) : ((flatValue z).toNat : Int) = z := by
  unfold flatValue
  rw [BitVec.toNat_ofInt]
  omega

/-- The gap that closing pushes is `C.ps - C.lee - 1` (R116). -/
theorem gap_toNat {c : CompContext} (h1 : -1 ≤ c.lee.toInt) (h2 : c.lee.toInt < c.ps.toNat) :
    (c.gap.toNat : Int) = c.ps.toNat - c.lee.toInt - 1 := by
  have := c.ps.isLt
  exact flatValue_toNat (by omega) (by omega)

/-- The run that closing pushes is `C.pe - C.ps + 1` (R116). -/
theorem runLength_toNat {c : CompContext} (h : c.ps.toNat ≤ c.pe.toNat) :
    c.runLength.toNat = c.pe.toNat - c.ps.toNat + 1 := by
  have := c.pe.isLt
  have h1 : (c.runLength.toNat : Int) = (c.pe.toNat : Int) - c.ps.toNat + 1 := flatValue_toNat (by omega) (by omega)
  omega

/-- An end of range recorded in `C.lee` is not negative there. -/
theorem lee_of_pe (v : Word32) : (v.setWidth 33).toInt = v.toNat := by
  rw [BitVec.toInt_setWidth]
  have := v.isLt
  simp [Int.bmod]
  omega

end Sys2Proof.Machine
end

