-- ==== Sys2Proof/Laws/CompressInv.lean ====
section
/-! SUPPORT. What the blocks of the compress path keep: the packer's bounds, and the sizes of the flat values while the
automaton runs. -/

namespace Sys2Proof.Machine

/-! ### The packer's bounds -/

/-- Encoding an integer keeps the packer's bounds (43_bitstream.md R181, R183, R184). -/
theorem gammaEncode_bufferInv {p : Config.Params} {g : Config.Granule} {x : Nat} {c c' : CompContext}
    (hb : c.BufferInv p) (h : gammaEncode g x c = .ok c') : c'.BufferInv p := by
  obtain ⟨h1, h2, h3, h4, h5, h6⟩ := hb
  obtain ⟨-, hr, rfl⟩ := gammaEncode_ok h
  have hlt := bitlen_lt_of_required hr
  have hreq := le_requiredBytes g (c.bitlen.toNat + codewordLength x)
  have hgrow := le_grow (cap := c.cap.toNat) hr
  have hle := grow_le c.cap.toNat (requiredBytes g (c.bitlen.toNat + codewordLength x)) c.maxsize.toNat
  have hcap := packedCap_toNat (g := g) (n := codewordLength x) (c := c)
  have hbl := bitAppend_bitlen x _ c hlt
  have hf := bitAppend_frame x (codewordLength x) c
  have hm : (bitAppend x (codewordLength x) c).maxsize = c.maxsize := congrArg (·.maxsize) hf
  have hcl : (bitAppend x (codewordLength x) c).clen = c.clen := congrArg (·.clen) hf
  simp only [CompContext.BufferInv, hm, hcl, hbl, hcap]
  refine ⟨h1, ?_, ?_, ?_, bitAppend_wf x _ h5, fun y hy => ?_⟩
  · split <;> omega
  · split <;> omega
  · split <;> omega
  · rcases mem_bitAppend hlt hy with hy | hy
    · exact h6 y hy
    · omega

/-- A move of the automaton keeps the packer's bounds. -/
theorem AutoMove.bufferInv {p : Config.Params} {g : Config.Granule} {c c' : CompContext} (hb : c.BufferInv p)
    (h : AutoMove g c c') : c'.BufferInv p := by
  cases h with
  | sync hp hr ha he => have hc := gammaEncode_bufferInv hb he; exact hc
  | unsync hp hr ha he => have hc := gammaEncode_bufferInv hb he; exact hc
  | _ => exact hb

/-! ### The flat values while the automaton runs -/

/-- The sizes of the automaton's values, and that only the first value of a compression can be 0 (40_range_merger.md
R118). -/
def CompContext.RunInv (c : CompContext) : Prop :=
  c.AutoInv ∧ (c.aphase = .unseeded → ∀ v ∈ c.flatq.tail, v ≠ 0) ∧ (c.aphase ≠ .unseeded → ∀ v ∈ c.flatq, v ≠ 0)

theorem toNat_sub_one {v : Word33} (h : v ≠ 0) : (v - 1).toNat = v.toNat - 1 := by
  have h0 : v.toNat ≠ 0 := fun hh => h (BitVec.eq_of_toNat_eq hh)
  have := v.isLt
  rw [BitVec.toNat_sub]
  simp
  omega

/-- A move of the automaton keeps the sizes of its values (41_gap_run_automaton.md R132 to R138). -/
theorem AutoMove.runInv {g : Config.Granule} {c c' : CompContext} (hi : c.RunInv) (h : AutoMove g c c') :
    c'.RunInv := by
  obtain ⟨⟨h1, h2, h3⟩, h4, h5⟩ := hi
  have h3' := h3
  rw [List.forall_mem_map] at h3
  cases h with
  | seed hp hq =>
    rw [hq] at h2 h3
    have h6 := h4 hp
    rw [hq] at h6
    exact ⟨⟨h3 _ (by simp), by simp at h2 ⊢; omega, List.forall_mem_map.2 fun v hv => h3 v (by simp [hv])⟩, by simp, fun _ v hv => h6 v (by simpa using hv)⟩
  | refill hp hq =>
    have h6 := h5 (by simp [hp])
    rw [hq] at h2 h3 h6
    exact ⟨⟨h3 _ (by simp), by simp at h2 ⊢; omega, List.forall_mem_map.2 fun v hv => h3 v (by simp [hv])⟩, by simp, fun _ v hv => h6 v (by simp [hv])⟩
  | pullAfter hp hq =>
    have h6 := h5 (by simp [hp])
    rw [hq] at h2 h3 h6
    refine ⟨⟨?_, by simp at h2 ⊢; omega, List.forall_mem_map.2 fun v hv => h3 v (by simp [hv])⟩, by simp, fun _ v hv => h6 v (by simp [hv])⟩
    have h7 := h3 _ (List.mem_cons_self ..)
    have h8 := toNat_sub_one (h6 _ (List.mem_cons_self ..))
    simp only at h8 ⊢
    omega
  | exhausted hp hq he => exact ⟨⟨h1, h2, h3'⟩, by simp, fun _ => by simp [hq]⟩
  | top hp hr => exact ⟨⟨h1, h2, h3'⟩, by simp, fun _ => h5 (by simp [hp])⟩
  | sync hp hr ha he =>
    have hf := gammaEncode_frame he
    have hq := congrArg (·.flatq) hf
    have hr' := congrArg (·.rem) hf
    simp only at hq hr'
    simp only [CompContext.RunInv, hq, hr']
    exact ⟨⟨h1, h2, h3'⟩, by simp, fun _ => h5 (by simp [hp])⟩
  | unsync hp hr ha he =>
    have hf := gammaEncode_frame he
    have hq := congrArg (·.flatq) hf
    have hp' := congrArg (·.aphase) hf
    simp only at hq hp'
    have h8 := toNat_sub_one hr
    simp only [CompContext.RunInv, hq, hp', hp]
    exact ⟨⟨by simp only; omega, h2, h3'⟩, by simp, fun _ => h5 (by simp [hp])⟩

/-- No move leads back to UNSEEDED (R131). -/
theorem AutoMove.seeded {g : Config.Granule} {c c' : CompContext} (h : AutoMove g c c') : c'.aphase ≠ .unseeded := by
  cases h with
  | unsync hp hr ha he =>
    have hp' := congrArg (·.aphase) (gammaEncode_frame he)
    simp only at hp'
    simp [hp', hp]
  | _ => simp [CompContext.autoDone]

/-- While the input has not ended the automaton stops waiting for a value, with nothing queued (R139, R141). -/
theorem runAutomaton_waits {g : Config.Granule} {c c' : CompContext} (he : c.eoi = false) (hd : c.aphase ≠ .done)
    (h : runAutomaton g c = (c', none)) : c'.Waiting := by
  have hr := autoStep_rests.1 (runAutomaton_rests h)
  have hk := runAutomaton_keeps (g := g) (P := fun x => x.eoi = false ∧ x.aphase ≠ .done) (c := c) ?_ ⟨he, hd⟩
  · rw [h] at hk
    rcases hr with ⟨h1, h2, h3⟩ | h1
    · exact ⟨h2, h3, h1⟩
    · exact absurd h1 hk.2
  · rintro x y ⟨hx1, hx2⟩ hm
    have hf := congrArg (·.eoi) hm.frame
    simp only at hf
    refine ⟨hf.trans hx1, ?_⟩
    cases hm with
    | exhausted hp hq he => simp [hx1] at he
    | unsync hp hr ha he =>
      have hp' := congrArg (·.aphase) (gammaEncode_frame he)
      simp only at hp'
      simp [hp', hp]
    | _ => simp

/-- Once the input has ended the automaton stops in phase DONE (R139, R144). -/
theorem runAutomaton_done {g : Config.Granule} {c c' : CompContext} (he : c.eoi = true)
    (h : runAutomaton g c = (c', none)) : c'.aphase = .done := by
  have hr := autoStep_rests.1 (runAutomaton_rests h)
  have hf := runAutomaton_frame g c
  rw [h] at hf
  have hf := congrArg (·.eoi) hf
  simp only at hf
  rcases hr with ⟨-, -, h3⟩ | h1
  · rw [hf, he] at h3; cases h3
  · exact h1

/-- A queue that holds something is taken from, so the automaton does not stay UNSEEDED (R132). -/
theorem runAutomaton_seeded {g : Config.Granule} {c : CompContext} (hq : c.flatq ≠ [])
    (hw : (runAutomaton g c).1.flatq = []) : (runAutomaton g c).1.aphase ≠ .unseeded :=
  runAutomaton_keeps (P := fun x => x.flatq = [] → x.aphase ≠ .unseeded) (fun _ _ _ hm _ => hm.seeded)
    (fun h => absurd h hq) hw

/-- Phase DONE is reached with nothing queued (R141). -/
theorem runAutomaton_drained {g : Config.Granule} {c : CompContext} (hd : c.aphase ≠ .done)
    (hw : (runAutomaton g c).1.aphase = .done) : (runAutomaton g c).1.flatq = [] :=
  runAutomaton_keeps (P := fun x => x.aphase = .done → x.flatq = [])
    (fun x y hx hm => by
      cases hm with
      | exhausted hp hq he => exact fun _ => hq
      | unsync hp hr ha he =>
        have hp' := congrArg (·.aphase) (gammaEncode_frame he)
        simp only at hp'
        simp [hp', hp]
      | _ => simp)
    (fun h => absurd h hd) hw

end Sys2Proof.Machine
end

