-- ==== Sys2Proof/Laws/Decode.lean ====
section
/-! SUPPORT. What the decoder and the decode automaton do: the codeword at the cursor, what labelling produces, and how
the loop of D.NEXT ends. -/

namespace Sys2Proof.Machine

/-! ### The codeword at the cursor (42_elias_gamma.md R164 to R166) -/

theorem leadingZeros_le (w : BitVec 32) (n : Nat) : leadingZeros w n ≤ n := by
  induction n with
  | zero => simp [leadingZeros]
  | succ n ih => simp only [leadingZeros]; split <;> omega

/-- The count `k` says that `k` bits from the top are 0 and the next one, if there is one, is 1. -/
theorem leadingZeros_eq_iff (w : BitVec 32) (n k : Nat) :
    leadingZeros w n = k ↔ k ≤ n ∧ (∀ j < k, w.getLsbD (n - 1 - j) = false) ∧ (k < n → w.getLsbD (n - 1 - k) = true) := by
  induction n generalizing k with
  | zero => simp only [leadingZeros]; constructor
            · rintro rfl; simp
            · rintro ⟨h, -⟩; omega
  | succ n ih =>
    simp only [leadingZeros]
    split
    · rename_i h
      constructor
      · rintro rfl; simp [h]
      · rintro ⟨-, h1, -⟩
        by_contra hk
        have := h1 0 (by omega)
        simp [h] at this
    · rename_i h
      cases k with
      | zero => simp [h]
      | succ k =>
        rw [Nat.add_right_cancel_iff, ih]
        constructor
        · rintro ⟨h1, h2, h3⟩
          refine ⟨by omega, fun j hj => ?_, fun hk => ?_⟩
          · cases j with
            | zero => simpa using h
            | succ j => rw [show n + 1 - 1 - (j + 1) = n - 1 - j by omega]; exact h2 j (by omega)
          · rw [show n + 1 - 1 - (k + 1) = n - 1 - k by omega]; exact h3 (by omega)
        · rintro ⟨h1, h2, h3⟩
          refine ⟨by omega, fun j hj => ?_, fun hk => ?_⟩
          · rw [show n - 1 - j = n + 1 - 1 - (j + 1) by omega]; exact h2 (j + 1) (by omega)
          · rw [show n - 1 - k = n + 1 - 1 - (k + 1) by omega]; exact h3 (by omega)

/-- Bit `31 - j` of the window is the stream bit `j` places on (43_bitstream.md R187). -/
theorem window_getLsbD (d : DecompContext) (b : Nat) {j : Nat} (hj : j < 32) :
    (d.window b).getLsbD (31 - j) = d.inBit (b + j) := by
  unfold DecompContext.window
  rw [BitVec.getLsbD_ofNat, Config.window, inBits_testBit]
  simp only [show 31 - j < 32 by omega, decide_true, Bool.true_and]
  congr 1; omega

/-- What the count of leading zeros at the cursor says about the stream (R164). -/
theorem zeros_eq_iff (d : DecompContext) (k : Nat) :
    d.zeros = k ↔ k ≤ 32 ∧ (∀ j < k, d.inBit (d.bpos.toNat + j) = false) ∧
      (k < 32 → d.inBit (d.bpos.toNat + k) = true) := by
  unfold DecompContext.zeros countLeadingZeros32
  rw [Config.window, leadingZeros_eq_iff]
  constructor
  · rintro ⟨h1, h2, h3⟩
    refine ⟨h1, fun j hj => ?_, fun hk => ?_⟩
    · rw [← window_getLsbD d _ (by omega)]; exact h2 j hj
    · rw [← window_getLsbD d _ hk]; exact h3 hk
  · rintro ⟨h1, h2, h3⟩
    refine ⟨h1, fun j hj => ?_, fun hk => ?_⟩
    · rw [show 32 - 1 - j = 31 - j by omega, window_getLsbD d _ (by omega)]; exact h2 j hj
    · rw [show 32 - 1 - k = 31 - k by omega, window_getLsbD d _ hk]; exact h3 hk

theorem zeros_le (d : DecompContext) : d.zeros ≤ 32 := ((zeros_eq_iff d _).1 rfl).1

theorem inBits_split (d : DecompContext) (b m n : Nat) :
    d.inBits b (m + n) = d.inBits b m * 2 ^ n + d.inBits (b + m) n := by
  induction n with
  | zero => simp [DecompContext.inBits]
  | succ n ih =>
    rw [← Nat.add_assoc, DecompContext.inBits, DecompContext.inBits, ih, Nat.pow_succ, Nat.add_assoc]
    ring

/-- The codeword's value has its marker in bit `k` (R166). -/
theorem codewordValue_bounds {d : DecompContext} (h : d.zeros ≠ 32) :
    2 ^ d.zeros ≤ d.codewordValue ∧ d.codewordValue < 2 ^ (d.zeros + 1) := by
  obtain ⟨h1, -, h3⟩ := (zeros_eq_iff d _).1 rfl
  refine ⟨?_, inBits_lt _ _ _⟩
  unfold DecompContext.codewordValue
  rw [Nat.add_comm d.zeros 1, inBits_split]
  have h4 : d.inBits (d.bpos.toNat + d.zeros) 1 = 1 := by
    simp [DecompContext.inBits, h3 (by omega)]
  rw [h4]
  omega

theorem codewordValue_pos {d : DecompContext} (h : d.zeros ≠ 32) : 1 ≤ d.codewordValue :=
  Nat.le_trans Nat.one_le_two_pow (codewordValue_bounds h).1

theorem codewordValue_lt (d : DecompContext) (h : d.zeros ≠ 32) : d.codewordValue < 2 ^ 32 := by
  have h1 := zeros_le d
  have h2 : 2 ^ (d.zeros + 1) ≤ 2 ^ 32 := Nat.pow_le_pow_right (by omega) (by omega)
  have := (codewordValue_bounds h).2
  omega

/-- Before the end of the stream the cursor is inside it and the zeros end inside it (R165). -/
theorem atEnd_eq_false {d : DecompContext} (h : d.atEnd = false) : d.bpos.toNat + d.zeros < 8 * d.ilen.toNat := by
  simpa [DecompContext.atEnd] using h

theorem atEnd_eq_true {d : DecompContext} : d.atEnd = true ↔ 8 * d.ilen.toNat ≤ d.bpos.toNat + d.zeros := by
  simp [DecompContext.atEnd]

/-- The cursor after a codeword (R166). -/
theorem advance_bpos_toNat {d : DecompContext} (h : d.atEnd = false) :
    d.advance.bpos.toNat = d.bpos.toNat + 2 * d.zeros + 1 := by
  have h1 := atEnd_eq_false h
  have h2 := zeros_le d
  have h3 := d.ilen.isLt
  exact word64_toNat (by omega)

/-! ### Labelling (41_gap_run_automaton.md R150 to R155) -/

/-- Everything a codeword does (R150 to R154): with `D.sym` 1 the span continues or opens a run and the single position
closes it; with `D.sym` 0 the span closes an open run and the single position opens one. -/
theorem decodeValue_eq (d : DecompContext) (v : Nat) :
    d.decodeValue v =
      ({ d with
          pos := if 1 < v then word64 ((word64 (d.pos.toNat + (v - 1))).toNat + 1) else word64 (d.pos.toNat + 1)
          sym := nextSym d.sym v
          dopen := !d.sym
          dstart :=
            if d.sym = true then (if 1 < v ∧ d.dopen = false then d.pos else d.dstart)
            else if 1 < v then word64 (d.pos.toNat + (v - 1))
            else if d.dopen = false then d.pos else d.dstart },
        if d.sym = true then
          (if 1 < v then some ((if d.dopen then d.dstart else d.pos), word64 (d.pos.toNat + (v - 1)) - 1)
            else if d.dopen = true then some (d.dstart, d.pos - 1) else none)
        else if 1 < v ∧ d.dopen = true then some (d.dstart, d.pos - 1) else none) := by
  obtain ⟨dphase, derr, dinfo0, ilen, bpos, pos, sym, dopen, dstart, lastd, nranges, ibuf, written⟩ := d
  unfold DecompContext.decodeValue DecompContext.labelSpan DecompContext.labelSingle
  by_cases hv : 1 < v <;> cases sym <;> cases dopen <;> simp [DecompContext.label, hv]

/-- A codeword writes the decode direction's registers, nothing else (R150). -/
theorem decodeValue_frame (d : DecompContext) (v : Nat) :
    (d.decodeValue v).1 = { d with
      pos := (d.decodeValue v).1.pos, sym := (d.decodeValue v).1.sym
      dopen := (d.decodeValue v).1.dopen, dstart := (d.decodeValue v).1.dstart } := by
  rw [decodeValue_eq]

/-- The symbol flips exactly for the codeword 1 (R152). -/
theorem decodeValue_sym (d : DecompContext) (v : Nat) : (d.decodeValue v).1.sym = nextSym d.sym v := by
  rw [decodeValue_eq]

/-- After a codeword a run is open exactly if the single position is a run position, that is, if `D.sym` was 0 (R150). -/
theorem decodeValue_dopen (d : DecompContext) (v : Nat) : (d.decodeValue v).1.dopen = !d.sym := by
  rw [decodeValue_eq]

/-- A codeword `v` labels `v` positions (R150). -/
theorem decodeValue_pos {d : DecompContext} {v : Nat} (hv : 1 ≤ v) (h : d.pos.toNat + v < 2 ^ 64) :
    (d.decodeValue v).1.pos.toNat = d.pos.toNat + v := by
  rw [decodeValue_eq]
  simp only
  split
  · rw [word64_toNat (n := d.pos.toNat + (v - 1)) (by omega), word64_toNat (by omega)]
    omega
  · rw [word64_toNat (by omega)]
    omega

/-- The start of the open run after a codeword (R151 to R153). -/
theorem decodeValue_dstart (d : DecompContext) (v : Nat) :
    (d.decodeValue v).1.dstart =
      if d.sym = true then (if 1 < v ∧ d.dopen = false then d.pos else d.dstart)
      else if 1 < v then word64 (d.pos.toNat + (v - 1))
      else if d.dopen = false then d.pos else d.dstart := by
  rw [decodeValue_eq]

/-- The range a codeword produces (R150 to R154). -/
theorem decodeValue_range (d : DecompContext) (v : Nat) :
    (d.decodeValue v).2 =
      if d.sym = true then
        (if 1 < v then some ((if d.dopen then d.dstart else d.pos), word64 (d.pos.toNat + (v - 1)) - 1)
          else if d.dopen = true then some (d.dstart, d.pos - 1) else none)
      else if 1 < v ∧ d.dopen = true then some (d.dstart, d.pos - 1) else none := by
  rw [decodeValue_eq]

/-! ### The loop of D.NEXT (45_decompress_commands.md R224, R225) -/

/-- A codeword that produces no range: the pass of the loop that goes on (R225). -/
structure SilentPass (d d' : DecompContext) : Prop where
  notEnd : d.atEnd = false
  short : d.zeros ≠ 32
  decoded : d.advance.decodeValue d.codewordValue = (d', none)

/-- The pass of the loop that ends it, from `d` (R225). -/
inductive LastPass (d : DecompContext) : DecompContext → LoopEnd → Prop where
  | ended (h : d.atEnd = true) : LastPass d d.finishStream.1 d.finishStream.2
  | longZeros (h : d.atEnd = false) (hz : d.zeros = 32) : LastPass d d (.raised (longZeroRun d))
  | range {d' r} (h : d.atEnd = false) (hz : d.zeros ≠ 32)
      (hd : d.advance.decodeValue d.codewordValue = (d', some r)) :
      LastPass d { d' with nranges := d.nranges + 1 } (.range r)

theorem SilentPass.bpos {d d' : DecompContext} (h : SilentPass d d') :
    d'.bpos.toNat = d.bpos.toNat + 2 * d.zeros + 1 := by
  have hf := decodeValue_frame d.advance d.codewordValue
  rw [h.decoded] at hf
  have hb : d'.bpos = d.advance.bpos := congrArg (·.bpos) hf
  rw [hb, advance_bpos_toNat h.notEnd]

theorem SilentPass.ilen {d d' : DecompContext} (h : SilentPass d d') : d'.ilen = d.ilen := by
  have hf := decodeValue_frame d.advance d.codewordValue
  rw [h.decoded] at hf
  exact congrArg (·.ilen) hf

/-- The loop is silent passes and then a last one, and what silent passes keep holds before the last one. With `n` at least
the bits left, the bound `n` ends nothing early (R225). -/
theorem decodeLoop_cases {P : DecompContext → Prop} (hP : ∀ x y, P x → SilentPass x y → P y) {n : Nat}
    {d d' : DecompContext} {e : LoopEnd} (hn : 8 * d.ilen.toNat ≤ d.bpos.toNat + n) (h0 : P d)
    (h : decodeLoop n d = (d', e)) : ∃ x, P x ∧ LastPass x d' e := by
  induction n generalizing d with
  | zero =>
    have hf : d.finishStream = (d', e) := h
    refine ⟨d, h0, ?_⟩
    have := LastPass.ended (d := d) (atEnd_eq_true.2 (by omega))
    rwa [hf] at this
  | succ n ih =>
    unfold decodeLoop at h
    split at h
    · refine ⟨d, h0, ?_⟩
      have := LastPass.ended (d := d) (by assumption)
      rwa [h] at this
    · rename_i he
      replace he : d.atEnd = false := by simpa using he
      split at h
      · simp only [Prod.mk.injEq] at h
        obtain ⟨rfl, rfl⟩ := h
        exact ⟨d, h0, .longZeros he (by assumption)⟩
      · split at h
        · simp only [Prod.mk.injEq] at h
          obtain ⟨rfl, rfl⟩ := h
          exact ⟨d, h0, .range he (by assumption) (by assumption)⟩
        · have hs : SilentPass d _ := ⟨he, by assumption, by assumption⟩
          refine ih ?_ (hP _ _ h0 hs) h
          rw [hs.ilen, hs.bpos]
          omega

/-- The loop of D.NEXT, from the cursor on. -/
theorem decodeNext_cases {P : DecompContext → Prop} (hP : ∀ x y, P x → SilentPass x y → P y) {d d' : DecompContext}
    {e : LoopEnd} (h0 : P d) (h : decodeNext d = (d', e)) : ∃ x, P x ∧ LastPass x d' e :=
  decodeLoop_cases hP (by omega) h0 h

end Sys2Proof.Machine
end

