-- ==== Sys2Proof/Laws/DecompressInv.lean ====
section
/-! SUPPORT. What a codeword does to the cursors of the decompress path, and that none of them overflows. -/

namespace Sys2Proof.Machine

/-- The cursors are in order, and the stream is no longer than IBUF can be (45_decompress_commands.md R226). -/
structure DecompContext.LoopInv (d : DecompContext) : Prop where
  len : d.ilen.toNat ≤ 2 ^ 29
  cursor : d.bpos.toNat ≤ 8 * d.ilen.toNat + 62
  reach : 63 * d.pos.toNat ≤ (2 ^ 32 - 1) * d.bpos.toNat
  count : d.nranges.toNat ≤ d.bpos.toNat
  opened : d.dopen = true → d.dstart.toNat < d.pos.toNat

/-- A codeword of `k` zeros labels at most in proportion to its length. -/
theorem codeword_reach {k v : Nat} (hk : k ≤ 31) (hv : v < 2 ^ (k + 1)) : 63 * v ≤ (2 ^ 32 - 1) * (2 * k + 1) := by
  interval_cases k <;> omega

/-- The domain cursor is far from 2^64 (R226). -/
theorem DecompContext.LoopInv.pos_lt {d : DecompContext} (h : d.LoopInv) : d.pos.toNat < 2 ^ 60 := by
  have h1 := h.len
  have h2 := h.cursor
  have h3 := h.reach
  omega

/-- What a codeword leaves (42_elias_gamma.md R166, 41_gap_run_automaton.md R150). -/
theorem DecompContext.LoopInv.codeword {d : DecompContext} (h : d.LoopInv) (he : d.atEnd = false) (hz : d.zeros ≠ 32) :
    (d.advance.decodeValue d.codewordValue).1.LoopInv ∧
    (d.advance.decodeValue d.codewordValue).1.bpos.toNat = d.bpos.toNat + 2 * d.zeros + 1 ∧
    (d.advance.decodeValue d.codewordValue).1.pos.toNat = d.pos.toNat + d.codewordValue := by
  have h1 := h.len
  have h2 := h.cursor
  have h3 := h.reach
  have h4 := h.count
  have h5 := h.opened
  have hp := h.pos_lt
  have hb := advance_bpos_toNat he
  have hk := zeros_le d
  have hv := codewordValue_bounds hz
  have hv1 := codewordValue_pos hz
  have hv2 := codewordValue_lt d hz
  have hr := codeword_reach (by omega : d.zeros ≤ 31) hv.2
  have hin := atEnd_eq_false he
  have hf := decodeValue_frame d.advance d.codewordValue
  have hpos : (d.advance.decodeValue d.codewordValue).1.pos.toNat = d.pos.toNat + d.codewordValue :=
    decodeValue_pos hv1 (by simp only [DecompContext.advance_pos]; omega)
  have hbpos : (d.advance.decodeValue d.codewordValue).1.bpos = d.advance.bpos := congrArg (·.bpos) hf
  have hilen : (d.advance.decodeValue d.codewordValue).1.ilen = d.ilen := congrArg (·.ilen) hf
  have hnr : (d.advance.decodeValue d.codewordValue).1.nranges = d.nranges := congrArg (·.nranges) hf
  refine ⟨⟨?_, ?_, ?_, ?_, ?_⟩, by rw [hbpos, hb], hpos⟩
  · rw [hilen]; exact h1
  · rw [hilen, hbpos, hb]; omega
  · rw [hpos, hbpos, hb]
    omega
  · rw [hnr, hbpos, hb]; omega
  · have hds : (d.advance.decodeValue d.codewordValue).1.dstart =
        if d.sym = true then (if 1 < d.codewordValue ∧ d.dopen = false then d.pos else d.dstart)
        else if 1 < d.codewordValue then word64 (d.pos.toNat + (d.codewordValue - 1))
        else if d.dopen = false then d.pos else d.dstart := decodeValue_dstart d.advance d.codewordValue
    rw [decodeValue_dopen, hpos, hds, DecompContext.advance_sym]
    intro hs
    rw [if_neg (by simpa using hs)]
    split
    · rw [word64_toNat (by omega)]; omega
    · split
      · omega
      · have ho : d.dopen = true := by cases hd : d.dopen <;> [contradiction; rfl]
        have := h5 ho
        omega

end Sys2Proof.Machine
end

