-- ==== Sys2Proof/Laws/Emission.lean ====
section
/-! SUPPORT. What the encode path writes, in integers and stream bits: a codeword's bits, the integers the automaton emits,
and how running it ends. -/

namespace Sys2Proof.Machine

/-! ### The bits of a codeword (42_elias_gamma.md R160, R162) -/

theorem codeword_length (x : Nat) : (codeword x).length = codewordLength x := by
  simp only [codeword, codewordLength, List.length_append, List.length_replicate, List.length_map, List.length_range]
  omega

theorem codewords_length (xs : List Nat) : (codewords xs).length = streamLength xs := by
  induction xs with
  | nil => rfl
  | cons x xs ih => rw [codewords, List.flatMap_cons, List.length_append, codeword_length]; exact congrArg _ ih

@[simp] theorem codewords_nil : codewords [] = [] := rfl

theorem codewords_cons (x : Nat) (xs : List Nat) : codewords (x :: xs) = codeword x ++ codewords xs := rfl

theorem codewords_append (xs ys : List Nat) : codewords (xs ++ ys) = codewords xs ++ codewords ys :=
  List.flatMap_append

theorem codewords_singleton (x : Nat) : codewords [x] = codeword x := by simp [codewords]

theorem streamLength_singleton (x : Nat) : streamLength [x] = codewordLength x := by simp [streamLength]

@[simp] theorem streamLength_nil : streamLength [] = 0 := rfl

theorem streamLength_cons (x : Nat) (xs : List Nat) : streamLength (x :: xs) = codewordLength x + streamLength xs := rfl

theorem streamLength_append (xs ys : List Nat) : streamLength (xs ++ ys) = streamLength xs + streamLength ys := by
  simp [streamLength]

/-- Bit `j` of a codeword of `2k + 1` bits is bit `2k - j` of the integer (R160). -/
theorem codeword_eq (x : Nat) :
    (List.range (codewordLength x)).map (fun j => x.testBit (codewordLength x - 1 - j)) = codeword x := by
  apply List.ext_getElem
  · simp [codeword_length]
  · intro j h1 h2
    simp only [List.length_map, List.length_range] at h1
    simp only [List.getElem_map, List.getElem_range, codeword]
    rw [List.getElem_append]
    split
    · rename_i h
      simp only [List.length_replicate] at h
      rw [List.getElem_replicate]
      apply Nat.testBit_lt_two_pow
      calc x < 2 ^ (Nat.log2 x + 1) := Nat.lt_log2_self
        _ ≤ _ := Nat.pow_le_pow_right (by omega) (by unfold codewordLength; omega)
    · rename_i h
      simp only [List.length_replicate] at h
      simp only [List.getElem_map, List.getElem_range, List.length_replicate]
      congr 1
      unfold codewordLength
      omega

/-! ### Packing, as bits (43_bitstream.md R181) -/

theorem CompContext.bits_length (c : CompContext) : c.bits.length = c.bitlen.toNat := by simp [CompContext.bits]

/-- Appending `n` bits lengthens `C.cbits` by them and keeps the bits before. -/
theorem bitAppend_bits (v n : Nat) {c : CompContext} (hw : c.obuf.Wf) (h : c.bitlen.toNat + n < 2 ^ 64) :
    (bitAppend v n c).bits = c.bits ++ (List.range n).map fun j => v.testBit (n - 1 - j) := by
  have hb := bitAppend_bitlen v n c h
  apply List.ext_getElem
  · simp [CompContext.bits, hb]
  · intro i h1 h2
    rw [CompContext.bits_length, hb] at h1
    rw [List.getElem_append]
    simp only [CompContext.bits, List.getElem_map, List.getElem_range, List.length_map, List.length_range]
    rw [bitAppend_cbit v n hw h]
    by_cases hi : i < c.bitlen.toNat
    · rw [dif_pos hi, if_neg (by omega)]
    · rw [dif_neg hi, if_pos (by omega)]
      congr 1; omega

/-- An encoded integer appends its codeword to `C.cbits` (R160, R181). -/
theorem gammaEncode_bits {g : Config.Granule} {x : Nat} {c c' : CompContext} (hw : c.obuf.Wf)
    (h : gammaEncode g x c = .ok c') :
    c'.bits = c.bits ++ codeword x ∧ c'.bitlen.toNat = c.bitlen.toNat + codewordLength x := by
  obtain ⟨-, hr, rfl⟩ := gammaEncode_ok h
  have hlt := bitlen_lt_of_required hr
  refine ⟨?_, bitAppend_bitlen _ _ _ hlt⟩
  have := bitAppend_bits x (codewordLength x) hw hlt
  rw [codeword_eq] at this
  exact this

/-! ### What fits (R182, R183) -/

theorem requiredBytes_mono (g : Config.Granule) {a b : Nat} (h : a ≤ b) : requiredBytes g a ≤ requiredBytes g b := by
  cases g
  · rw [requiredBytes_one, requiredBytes_one, ceilDiv_eight, ceilDiv_eight]; omega
  · show roundUp (ceilDiv a 8) 4 ≤ roundUp (ceilDiv b 8) 4
    rw [roundUp_four, roundUp_four, ceilDiv_eight, ceilDiv_eight]; omega

theorem CompContext.Packs.nil (g : Config.Granule) (c : CompContext) : c.Packs g [] := ⟨by simp, .inl rfl⟩

/-- What can be packed can be packed in two parts, and the other way round. -/
theorem CompContext.packs_append {g : Config.Granule} {c c' : CompContext} {xs ys : List Nat}
    (hb : c'.bitlen.toNat = c.bitlen.toNat + streamLength xs) (hm : c'.maxsize = c.maxsize) :
    c.Packs g (xs ++ ys) ↔ c.Packs g xs ∧ c'.Packs g ys := by
  unfold CompContext.Packs
  rw [hb, hm, streamLength_append, ← Nat.add_assoc]
  constructor
  · rintro ⟨h1, h2⟩
    have hx := requiredBytes_mono g (show c.bitlen.toNat + streamLength xs ≤ c.bitlen.toNat + streamLength xs + streamLength ys by omega)
    refine ⟨⟨fun x hx => h1 x (by simp [hx]), ?_⟩, ⟨fun x hx => h1 x (by simp [hx]), ?_⟩⟩
    · rcases h2 with h2 | h2
      · exact .inl (by simp_all)
      · exact .inr (by omega)
    · rcases h2 with h2 | h2
      · exact .inl (by simp_all)
      · exact .inr h2
  · rintro ⟨⟨h1, h2⟩, h3, h4⟩
    refine ⟨fun x hx => ?_, ?_⟩
    · rcases List.mem_append.1 hx with hx | hx
      · exact h1 x hx
      · exact h3 x hx
    · rcases h4 with rfl | h4
      · rcases h2 with rfl | h2
        · exact .inl rfl
        · exact .inr (by simpa using h2)
      · exact .inr h4

theorem CompContext.packs_single {g : Config.Granule} {c : CompContext} {x : Nat} :
    c.Packs g [x] ↔ x ≤ Config.gammaMax ∧ requiredBytes g (c.bitlen.toNat + codewordLength x) ≤ c.maxsize.toNat := by
  simp [CompContext.Packs, streamLength]

theorem gammaEncode_packs {g : Config.Granule} {x : Nat} {c c' : CompContext} (h : gammaEncode g x c = .ok c') :
    c.Packs g [x] := by
  obtain ⟨h1, h2, -⟩ := gammaEncode_ok h
  exact CompContext.packs_single.2 ⟨h1, h2⟩

theorem gammaEncode_error_iff {g : Config.Granule} {x : Nat} {c : CompContext} {e : Raised} :
    gammaEncode g x c = .error e ↔ c.PackFails g x e := gammaEncode_error

/-- What cannot be packed is not among what can be. -/
theorem CompContext.PackFails.not_packs {g : Config.Granule} {c : CompContext} {x : Nat} {e : Raised} {ys : List Nat}
    (h : c.PackFails g x e) : ¬ c.Packs g (x :: ys) := by
  rintro ⟨h1, h2⟩
  rcases h with ⟨h3, -⟩ | ⟨-, h3, -⟩
  · exact absurd (h1 x (by simp)) (by omega)
  · rcases h2 with h2 | h2
    · simp at h2
    · rw [streamLength_cons] at h2
      have := requiredBytes_mono g (show c.bitlen.toNat + codewordLength x ≤ c.bitlen.toNat + (codewordLength x + streamLength ys) by omega)
      omega

/-! ### What the automaton emits (41_gap_run_automaton.md R132 to R138) -/

/-- The queued flat values as exact integers. -/
def CompContext.queued (c : CompContext) : List Nat := c.flatq.map BitVec.toNat

theorem runEmits_zero (a : Bool) : runEmits a 0 = [] := rfl

theorem emitsFrom_zero_cons (a : Bool) (v : Nat) (vs : List Nat) : emitsFrom a 0 (v :: vs) = emitsFrom a v vs := by
  simp [emitsFrom]

/-- After a synchronized emission: what the pull of the next value leads to (R138). -/
def emitsAfter : List Nat → List Nat
  | [] => []
  | v :: vs => emitsFrom (v - 1 == 0) (v - 1) vs

theorem emitsFrom_sync {rem : Nat} (h : rem ≠ 0) (vs : List Nat) :
    emitsFrom true rem vs = (rem + 1) :: emitsAfter vs := by
  cases vs <;> simp [emitsFrom, runEmits, emitsAfter, h]

theorem emitsFrom_unsync {rem : Nat} (h : rem ≠ 0) (vs : List Nat) :
    emitsFrom false rem vs = 1 :: emitsFrom (rem - 1 != 0) (rem - 1) vs := by
  by_cases h1 : rem = 1
  · subst h1
    cases vs <;> simp [emitsFrom, runEmits]
  · have h2 : rem - 1 ≠ 0 := by omega
    have h3 : (rem - 1 != 0) = true := by simpa using h2
    rw [h3, emitsFrom_sync h2]
    cases vs <;> simp [emitsFrom, runEmits, emitsAfter, h, h1] <;> omega

/-- The integers one move emits and what is left to emit after it. -/
theorem AutoMove.emits {g : Config.Granule} {c c' : CompContext} (hi : c.RunInv) (hw : c.obuf.Wf) (h : AutoMove g c c')
    {vs : List Nat} (hv : c.eoi = true → vs = []) :
    ∃ xs, c.emits (c.queued ++ vs) = xs ++ c'.emits (c'.queued ++ vs) ∧ c.Packs g xs ∧
      c'.bits = c.bits ++ codewords xs ∧ c'.bitlen.toNat = c.bitlen.toNat + streamLength xs := by
  have silent : c'.bits = c.bits ++ codewords [] ↔ c'.bits = c.bits := by simp
  cases h with
  | seed hp hq =>
    refine ⟨[], ?_, .nil _ _, silent.2 rfl, rfl⟩
    rename_i v rest
    have hz : (v.toNat != 0) = seedSync v := by
      unfold seedSync
      rw [Bool.eq_iff_iff]
      simp only [bne_iff_ne, ne_eq, ← BitVec.toNat_inj]
      rfl
    simp [CompContext.emits, CompContext.queued, hp, hq, hz]
  | refill hp hq =>
    exact ⟨[], by simp [CompContext.emits, CompContext.queued, hp, hq], .nil _ _, silent.2 rfl, rfl⟩
  | pullAfter hp hq =>
    refine ⟨[], ?_, .nil _ _, silent.2 rfl, rfl⟩
    rename_i v rest
    have hv0 := hi.2.2 (by simp [hp]) v (by simp [hq])
    have hv1 := toNat_sub_one hv0
    have hz : (v.toNat - 1 == 0) = pullSync (v - 1) := by
      unfold pullSync
      rw [Bool.eq_iff_iff]
      simp only [beq_iff_eq, ← BitVec.toNat_inj, hv1]
      rfl
    simp only [CompContext.emits, CompContext.queued, hp, hq, hz, hv1, List.map_cons, List.cons_append, List.nil_append]
  | exhausted hp hq he =>
    obtain rfl := hv he
    refine ⟨[], ?_, .nil _ _, silent.2 rfl, rfl⟩
    rcases hp with hp | hp | hp <;> simp [CompContext.emits, CompContext.queued, CompContext.autoDone, hp, hq]
  | top hp hr =>
    refine ⟨[], ?_, .nil _ _, silent.2 rfl, rfl⟩
    simp only [CompContext.emits, CompContext.queued, hp, hr, List.nil_append]
    rw [show (0 : Word33).toNat = 0 from rfl]
    cases c.flatq.map BitVec.toNat ++ vs with
    | nil => simp [emitsFrom, runEmits]
    | cons w ws => simp [emitsFrom_zero_cons]
  | sync hp hr ha he =>
    rename_i c1
    have hq := congrArg (·.flatq) (gammaEncode_frame he)
    simp only at hq
    obtain ⟨h1, h2⟩ := gammaEncode_bits hw he
    have hr0 : c.rem.toNat ≠ 0 := fun hh => hr (BitVec.eq_of_toNat_eq hh)
    refine ⟨[c.rem.toNat + 1], ?_, gammaEncode_packs he, by rw [codewords_singleton]; exact h1,
      by rw [streamLength_singleton]; exact h2⟩
    simp only [CompContext.emits, CompContext.queued, hp, ha, hq, emitsFrom_sync hr0, List.singleton_append]
    cases c.flatq.map BitVec.toNat ++ vs <;> rfl
  | unsync hp hr ha he =>
    rename_i c1
    have hf := gammaEncode_frame he
    have hq := congrArg (·.flatq) hf
    have hp' := congrArg (·.aphase) hf
    simp only at hq hp'
    obtain ⟨h1, h2⟩ := gammaEncode_bits hw he
    have hr0 : c.rem.toNat ≠ 0 := fun hh => hr (BitVec.eq_of_toNat_eq hh)
    have hr1 := toNat_sub_one hr
    have hz : (c.rem.toNat - 1 != 0) = unsyncSync (c.rem - 1) := by
      unfold unsyncSync
      rw [Bool.eq_iff_iff]
      simp only [bne_iff_ne, ne_eq, ← BitVec.toNat_inj, hr1]
      rfl
    refine ⟨[1], ?_, gammaEncode_packs he, by rw [codewords_singleton]; exact h1,
      by rw [streamLength_singleton]; exact h2⟩
    simp only [CompContext.emits, CompContext.queued, hp, hp', ha, hq, hr1, emitsFrom_unsync hr0, hz, List.singleton_append]

/-- Where the automaton rests nothing is left to emit from what it has (R139). -/
theorem emits_of_rests {g : Config.Granule} {c : CompContext} (h : autoStep g c = .rests) : c.emits c.queued = [] := by
  rcases autoStep_rests.1 h with ⟨h1, h2, -⟩ | h1
  · rcases h1 with h1 | h1 | h1 <;> simp [CompContext.emits, CompContext.queued, h1, h2]
  · simp [CompContext.emits, h1]

/-- What running the automaton does (R139, R140): it emits integers, all of them packed, of those its state and its queue
stand for; `left` is what its state stands for at the end. -/
theorem runAutomaton_emits {g : Config.Granule} {c : CompContext} (hi : c.RunInv) (hw : c.obuf.Wf) {vs : List Nat}
    (hv : c.eoi = true → vs = []) :
    ∃ xs, c.emits (c.queued ++ vs) = xs ++ (runAutomaton g c).1.emits ((runAutomaton g c).1.queued ++ vs) ∧ c.Packs g xs ∧
      (runAutomaton g c).1.bits = c.bits ++ codewords xs ∧
      (runAutomaton g c).1.bitlen.toNat = c.bitlen.toNat + streamLength xs := by
  have hk := runAutomaton_keeps (g := g) (c := c)
    (P := fun x => x.RunInv ∧ x.obuf.Wf ∧ x.eoi = c.eoi ∧ x.maxsize = c.maxsize ∧
      ∃ xs, c.emits (c.queued ++ vs) = xs ++ x.emits (x.queued ++ vs) ∧ c.Packs g xs ∧
        x.bits = c.bits ++ codewords xs ∧ x.bitlen.toNat = c.bitlen.toNat + streamLength xs) ?_
    ⟨hi, hw, rfl, rfl, [], by simp, .nil _ _, by simp, by simp⟩
  · exact hk.2.2.2.2
  · rintro x y ⟨h1, h2, h3, h4, xs, h5, h6, h7, h8⟩ hm
    obtain ⟨ys, k1, k2, k3, k4⟩ := hm.emits (g := g) h1 h2 (vs := vs) (by rw [h3]; exact hv)
    have hf := hm.frame
    refine ⟨hm.runInv h1, ?_, (congrArg (·.eoi) hf).trans h3, (congrArg (·.maxsize) hf).trans h4, xs ++ ys, ?_, ?_, ?_, ?_⟩
    · cases hm with
      | sync hp hr ha he => obtain ⟨-, -, rfl⟩ := gammaEncode_ok he; exact bitAppend_wf _ _ h2
      | unsync hp hr ha he => obtain ⟨-, -, rfl⟩ := gammaEncode_ok he; exact bitAppend_wf _ _ h2
      | _ => exact h2
    · rw [h5, k1, List.append_assoc]
    · exact (CompContext.packs_append h8 h4).2 ⟨h6, k2⟩
    · rw [k3, h7, codewords_append, List.append_assoc]
    · rw [k4, h8, streamLength_append, Nat.add_assoc]

/-- The integer phase RUN emits is the first of those left. -/
theorem emits_of_run {c : CompContext} (hp : c.aphase = .run) (hr : c.rem ≠ 0) (vs : List Nat) :
    ∃ ys, c.emits vs = c.emission :: ys := by
  have hr0 : c.rem.toNat ≠ 0 := fun hh => hr (BitVec.eq_of_toNat_eq hh)
  simp only [CompContext.emits, hp, CompContext.emission]
  cases ha : c.async
  · exact ⟨_, emitsFrom_unsync hr0 vs⟩
  · exact ⟨_, emitsFrom_sync hr0 vs⟩

/-- Running ends with the error of the first integer that cannot be packed, and what is left to emit begins with it (R140,
60_exceptions.md R256, R261). -/
theorem runAutomaton_fails {g : Config.Granule} {c c' : CompContext} {e : Raised} (hi : c.RunInv) (hw : c.obuf.Wf)
    (h : runAutomaton g c = (c', some e)) :
    ∃ pre x post, c.emits c.queued = pre ++ x :: post ∧ c.Packs g pre ∧ c'.bits = c.bits ++ codewords pre ∧
      c'.bitlen.toNat = c.bitlen.toNat + streamLength pre ∧ c'.PackFails g x e ∧ c'.emits c'.queued = x :: post := by
  obtain ⟨xs, h1, h2, h3, h4⟩ := runAutomaton_emits (g := g) hi hw (vs := []) (fun _ => rfl)
  obtain ⟨k1, k2, k3⟩ := autoStep_raised.1 (runAutomaton_raised h)
  rw [h] at h1 h3 h4
  simp only [List.append_nil] at h1 h3 h4
  obtain ⟨ys, h5⟩ := emits_of_run k1 k2 c'.queued
  exact ⟨xs, _, ys, by rw [h1, h5], h2, h3, h4, gammaEncode_error_iff.1 k3, h5⟩

/-- Running ends without an error where every integer can be packed, and only there (R139, R140). -/
theorem runAutomaton_completes {g : Config.Granule} {c : CompContext} (hi : c.RunInv) (hw : c.obuf.Wf) :
    (∃ c', runAutomaton g c = (c', none)) ↔ c.Packs g (c.emits c.queued) := by
  have hm := congrArg (·.maxsize) (runAutomaton_frame g c)
  simp only at hm
  cases hr : runAutomaton g c with
  | mk c' o =>
    rw [hr] at hm
    cases o with
    | none =>
      obtain ⟨xs, h1, h2, -, -⟩ := runAutomaton_emits (g := g) hi hw (vs := []) (fun _ => rfl)
      have hl := emits_of_rests (runAutomaton_rests hr)
      rw [hr] at h1
      simp only [List.append_nil, hl] at h1
      simp [h1, h2]
    | some e =>
      obtain ⟨pre, x, post, h1, h2, -, h4, h5, -⟩ := runAutomaton_fails hi hw hr
      constructor
      · rintro ⟨c'', hc⟩; simp at hc
      · intro hp
        rw [h1] at hp
        exact absurd ((CompContext.packs_append h4 hm).1 hp).2 h5.not_packs

end Sys2Proof.Machine
end

