-- ==== Sys2Proof/Laws/Stream.lean ====
section
/-! SUPPORT. What the decoder reads from a stream of codewords and padding, and what the labels of a sequence of values come
to in exact integers. -/

namespace Sys2Proof.Machine

/-! ### Reading a codeword (42_elias_gamma.md R164 to R168) -/

theorem DecompContext.bits_length (d : DecompContext) : d.bits.length = 8 * d.ilen.toNat := by
  simp [DecompContext.bits]

theorem DecompContext.bits_getElem (d : DecompContext) {i : Nat} (h : i < d.bits.length) : d.bits[i] = d.inBit i := by
  simp [DecompContext.bits]

/-- What stands at the cursor of a stream, bit by bit. -/
theorem inBit_of_drop {d : DecompContext} {b : Nat} {l : List Bool} (h : d.bits.drop b = l) {j : Nat} (hj : j < l.length) :
    d.inBit (b + j) = l[j] := by
  subst h
  rw [List.getElem_drop, DecompContext.bits_getElem]

/-- The codeword of `x` begins with `k` zeros and a 1 (R96). -/
theorem codeword_getElem (x : Nat) {j : Nat} (hj : j < (codeword x).length) :
    (codeword x)[j] = x.testBit (2 * Nat.log2 x - j) := by
  have h := codeword_eq x
  have hj' : j < codewordLength x := by rwa [codeword_length] at hj
  have : ((List.range (codewordLength x)).map (fun j => x.testBit (codewordLength x - 1 - j)))[j]'(by simpa using hj') =
      x.testBit (2 * Nat.log2 x - j) := by
    simp only [List.getElem_map, List.getElem_range]
    congr 1
  rw [← this]
  congr 1
  exact h.symm

theorem testBit_log2 {x : Nat} (hx : x ≠ 0) : x.testBit (Nat.log2 x) = true := by
  have h1 := Nat.log2_self_le hx
  have h2 := Nat.lt_log2_self (n := x)
  rw [Nat.testBit_eq_decide_div_mod_eq, decide_eq_true_iff]
  have : x / 2 ^ Nat.log2 x = 1 := by
    apply Nat.div_eq_of_lt_le
    · omega
    · rw [pow_succ] at h2; omega
  rw [this]

/-- The decoder at a codeword of an integer it can hold: it counts the codeword's zeros, does not see an end, and reads the
integer (R164 to R166, R168). -/
theorem decoder_at_codeword {d : DecompContext} {x : Nat} {rest : List Bool} (h1 : 1 ≤ x) (hx : x ≤ Config.gammaMax)
    (h : d.bits.drop d.bpos.toNat = codeword x ++ rest) :
    d.zeros = Nat.log2 x ∧ d.zeros ≠ 32 ∧ d.atEnd = false ∧ d.codewordValue = x ∧
      d.advance.bpos.toNat = d.bpos.toNat + codewordLength x := by
  have hlen := congrArg List.length h
  rw [List.length_drop, d.bits_length, List.length_append, codeword_length] at hlen
  have hk : Nat.log2 x < 32 := (Nat.log2_lt (by omega)).2 (by unfold Config.gammaMax at hx; omega)
  have hcl : codewordLength x = 2 * Nat.log2 x + 1 := rfl
  have hbit : ∀ j, j < codewordLength x → d.inBit (d.bpos.toNat + j) = x.testBit (2 * Nat.log2 x - j) := by
    intro j hj
    have hj' : j < (codeword x).length := by rwa [codeword_length]
    rw [inBit_of_drop h (by rw [List.length_append]; omega), List.getElem_append_left hj', codeword_getElem]
  have hz : d.zeros = Nat.log2 x := by
    rw [zeros_eq_iff]
    refine ⟨by omega, fun j hj => ?_, fun _ => ?_⟩
    · rw [hbit j (by omega)]
      apply Nat.testBit_lt_two_pow
      calc x < 2 ^ (Nat.log2 x + 1) := Nat.lt_log2_self
        _ ≤ _ := Nat.pow_le_pow_right (by omega) (by omega)
    · rw [hbit _ (by omega), show 2 * Nat.log2 x - Nat.log2 x = Nat.log2 x by omega]
      exact testBit_log2 (by omega)
  have he : d.atEnd = false := by
    have := (atEnd_eq_true (d := d)).not
    rw [Bool.not_eq_true] at this
    rw [this, hz]
    omega
  refine ⟨hz, by omega, he, ?_, ?_⟩
  · apply Nat.eq_of_testBit_eq
    intro j
    unfold DecompContext.codewordValue
    rw [inBits_testBit, hz]
    by_cases hj : j < Nat.log2 x + 1
    · rw [decide_eq_true hj, Bool.true_and, Nat.add_assoc, hbit _ (by omega)]
      congr 1; omega
    · rw [decide_eq_false hj, Bool.false_and]
      symm
      apply Nat.testBit_lt_two_pow
      calc x < 2 ^ (Nat.log2 x + 1) := Nat.lt_log2_self
        _ ≤ _ := Nat.pow_le_pow_right (by omega) (by omega)
  · rw [advance_bpos_toNat he, hz, hcl]; omega

/-- The decoder at a tail of at most 32 zeros sees the end of the stream (R165). -/
theorem decoder_at_padding {d : DecompContext} {p : Nat} (hp : p ≤ 32)
    (h : d.bits.drop d.bpos.toNat = List.replicate p false) : d.atEnd = true := by
  have hlen := congrArg List.length h
  rw [List.length_drop, d.bits_length, List.length_replicate] at hlen
  rw [atEnd_eq_true]
  by_cases h0 : 8 * d.ilen.toNat ≤ d.bpos.toNat
  · omega
  · have hz : d.zeros = 32 := by
      rw [zeros_eq_iff]
      refine ⟨by omega, fun j _ => ?_, by omega⟩
      by_cases hj : j < p
      · rw [inBit_of_drop h (by simpa using hj)]; simp
      · unfold DecompContext.inBit
        rw [if_neg (by omega)]
    omega

/-- From the cursor on, IBUF holds the codewords of the integers and at most 7 padding zeros (30_encoding.md R95). -/
structure DecompContext.Holds (d : DecompContext) (xs : List Nat) : Prop where
  inRange : ∀ x ∈ xs, 1 ≤ x ∧ x ≤ Config.gammaMax
  stream : ∃ p ≤ 7, d.bits.drop d.bpos.toNat = codewords xs ++ List.replicate p false

/-- A context with the same stream and cursor holds the same integers. -/
theorem DecompContext.Holds.congr {d d' : DecompContext} {xs : List Nat} (h : d.Holds xs) (hb : d'.bpos = d.bpos)
    (hl : d'.ilen = d.ilen) (hi : d'.ibuf = d.ibuf) : d'.Holds xs := by
  have : d'.bits = d.bits := by
    unfold DecompContext.bits DecompContext.inBit
    rw [hl, hi]
  exact ⟨h.inRange, by rw [this, hb]; exact h.stream⟩

/-- After the codeword at the cursor the stream holds the rest (R163, R168). -/
theorem DecompContext.Holds.advance {d : DecompContext} {x : Nat} {xs : List Nat} (h : d.Holds (x :: xs)) :
    d.zeros ≠ 32 ∧ d.atEnd = false ∧ d.codewordValue = x ∧ d.advance.Holds xs := by
  obtain ⟨hr, p, hp, hs⟩ := h
  have hx := hr x (by simp)
  rw [codewords_cons, List.append_assoc] at hs
  obtain ⟨-, h2, h3, h4, h5⟩ := decoder_at_codeword hx.1 hx.2 hs
  refine ⟨h2, h3, h4, fun y hy => hr y (by simp [hy]), p, hp, ?_⟩
  have hb : d.advance.bits = d.bits := rfl
  rw [hb, h5, ← List.drop_drop, hs, List.drop_left' (codeword_length x)]

/-- With no codeword left the decoder sees the end (R165, R168). -/
theorem DecompContext.Holds.ends {d : DecompContext} (h : d.Holds []) : d.atEnd = true := by
  obtain ⟨-, p, hp, hs⟩ := h
  exact decoder_at_padding (p := p) (by omega) (by simpa using hs)

/-! ### Labels in exact integers (41_gap_run_automaton.md R150 to R155) -/

/-- The decode automaton in exact integers: position, symbol, and the start of the open run if one is open. -/
structure Labeler where
  pos : Nat
  sym : Bool
  open' : Option Nat
  deriving DecidableEq, Repr

/-- `Label(s, p)`: the open run after it, and the range it produces (R153). -/
def labelAt (o : Option Nat) (s : Bool) (p : Nat) : Option Nat × List Span :=
  match o, s with
  | none, true => (some p, [])
  | some a, false => (none, [(a, p - 1)])
  | o, _ => (o, [])

/-- What a value does to the labels, and the ranges it produces (R150). -/
def Labeler.value (l : Labeler) (v : Nat) : Labeler × List Span :=
  if 1 < v then
    ({ pos := l.pos + v, sym := l.sym, open' := (labelAt (labelAt l.open' l.sym l.pos).1 (!l.sym) (l.pos + (v - 1))).1 },
      (labelAt l.open' l.sym l.pos).2 ++ (labelAt (labelAt l.open' l.sym l.pos).1 (!l.sym) (l.pos + (v - 1))).2)
  else
    ({ pos := l.pos + 1, sym := !l.sym, open' := (labelAt l.open' (!l.sym) l.pos).1 }, (labelAt l.open' (!l.sym) l.pos).2)

/-- The ranges of a sequence of values up to the end of the stream (R150, R155). -/
def Labeler.spans (l : Labeler) : List Nat → List Span
  | [] => (labelAt l.open' false l.pos).2
  | v :: vs => (l.value v).2 ++ (l.value v).1.spans vs

/-- The decode registers hold the labels. -/
structure Labeler.Fits (l : Labeler) (d : DecompContext) : Prop where
  pos : d.pos.toNat = l.pos
  sym : d.sym = l.sym
  dopen : d.dopen = l.open'.isSome
  dstart : ∀ a ∈ l.open', d.dstart.toNat = a ∧ a < l.pos

theorem word64_sub_one {v : Word64} (h : v.toNat ≠ 0) : (v - 1).toNat = v.toNat - 1 := by
  have := v.isLt
  rw [BitVec.toNat_sub]
  simp
  omega

/-- What DecodeValue does to the registers, in exact integers (R150 to R154). -/
theorem Labeler.Fits.value {l : Labeler} {d : DecompContext} (h : l.Fits d) {v : Nat} (hv : 1 ≤ v)
    (hb : l.pos + v < 2 ^ 64) :
    (l.value v).1.Fits (d.decodeValue v).1 ∧
      (d.decodeValue v).2.toList.map (fun r => (r.1.toNat, r.2.toNat)) = (l.value v).2 := by
  obtain ⟨hp, hs, ho, hst⟩ := h
  have hpos := decodeValue_pos (d := d) hv (by omega)
  have hsym := decodeValue_sym d v
  have hdo := decodeValue_dopen d v
  have hds := decodeValue_dstart d v
  have hrg := decodeValue_range d v
  have hw : (word64 (d.pos.toNat + (v - 1))).toNat = d.pos.toNat + (v - 1) := word64_toNat (by omega)
  obtain ⟨pos, sym, op⟩ := l
  simp only at hp hs ho hst hb
  by_cases h1 : 1 < v
  · have hw1 : (word64 (d.pos.toNat + (v - 1)) - 1).toNat = d.pos.toNat + (v - 1) - 1 := by
      rw [word64_sub_one (by omega), hw]
    rw [hp] at hw1
    have hne : v ≠ 1 := by omega
    cases op with
    | none =>
      cases hs' : sym <;> simp only [hs', Option.isSome_none] at hs ho
      · simp only [hs, ho, h1, Bool.false_eq_true, if_false, if_true, and_false, Bool.not_false] at hdo hds hrg
        simp only [Labeler.value, labelAt, h1, if_true, Bool.not_false]
        rw [hrg]
        refine ⟨⟨by simp only; omega, by rw [hsym, hs]; simp [nextSym, hne], by simp [hdo], ?_⟩, by simp⟩
        intro a ha
        simp only [Option.mem_def, Option.some.injEq] at ha
        rw [hds, hw]; simp only; omega
      · simp only [hs, ho, h1, if_true, Bool.not_true, true_and, Bool.false_eq_true, if_false] at hdo hds hrg
        simp only [Labeler.value, labelAt, h1, if_true, Bool.not_true]
        rw [hrg]
        refine ⟨⟨by simp only; omega, by rw [hsym, hs]; simp [nextSym, hne], by simp [hdo], by simp⟩, ?_⟩
        simp only [Option.toList_some, List.map_cons, List.map_nil, List.nil_append, hw1, hp]
    | some a =>
      have hst := hst a rfl
      cases hs' : sym <;> simp only [hs', Option.isSome_some] at hs ho
      · simp only [hs, ho, h1, Bool.false_eq_true, if_false, if_true, and_true, Bool.not_false] at hdo hds hrg
        simp only [Labeler.value, labelAt, h1, if_true, Bool.not_false]
        rw [hrg]
        refine ⟨⟨by simp only; omega, by rw [hsym, hs]; simp [nextSym, hne], by simp [hdo], ?_⟩, ?_⟩
        · intro b hb
          simp only [Option.mem_def, Option.some.injEq] at hb
          rw [hds, hw]; simp only; omega
        · simp only [Option.toList_some, List.map_cons, List.map_nil, List.append_nil,
            hst.1, word64_sub_one (v := d.pos) (by omega), hp]
      · simp only [hs, ho, h1, if_true, Bool.not_true] at hdo hds hrg
        simp only [Labeler.value, labelAt, h1, if_true, Bool.not_true]
        rw [hrg]
        refine ⟨⟨by simp only; omega, by rw [hsym, hs]; simp [nextSym, hne], by simp [hdo], by simp⟩, ?_⟩
        simp only [Option.toList_some, List.map_cons, List.map_nil, List.nil_append, hst.1, hw1, hp]
  · obtain rfl : v = 1 := by omega
    cases op with
    | none =>
      cases hs' : sym <;> simp only [hs', Option.isSome_none] at hs ho
      · simp only [hs, ho, h1, Bool.false_eq_true, if_false, if_true, false_and, Bool.not_false] at hdo hds hrg
        simp only [Labeler.value, labelAt, h1, if_false, Bool.not_false]
        rw [hrg]
        refine ⟨⟨by simp only; omega, by rw [hsym, hs]; simp [nextSym], by simp [hdo], ?_⟩, by simp⟩
        intro a ha
        simp only [Option.mem_def, Option.some.injEq] at ha
        rw [hds]; simp only; omega
      · simp only [hs, ho, h1, if_true, Bool.not_true, false_and, Bool.false_eq_true, if_false] at hdo hds hrg
        simp only [Labeler.value, labelAt, h1, if_false, Bool.not_true]
        rw [hrg]
        refine ⟨⟨by simp only; omega, by rw [hsym, hs]; simp [nextSym], by simp [hdo], by simp⟩, by simp⟩
    | some a =>
      have hst := hst a rfl
      cases hs' : sym <;> simp only [hs', Option.isSome_some] at hs ho
      · simp only [hs, ho, h1, Bool.false_eq_true, if_false, false_and, Bool.not_false, Bool.true_eq_false] at hdo hds hrg
        simp only [Labeler.value, labelAt, h1, if_false, Bool.not_false]
        rw [hrg]
        refine ⟨⟨by simp only; omega, by rw [hsym, hs]; simp [nextSym], by simp [hdo], ?_⟩, by simp⟩
        intro b hb
        simp only [Option.mem_def, Option.some.injEq] at hb
        rw [hds]; simp only; omega
      · simp only [hs, ho, h1, if_true, Bool.not_true, if_false, false_and] at hdo hds hrg
        simp only [Labeler.value, labelAt, h1, if_false, Bool.not_true]
        rw [hrg]
        refine ⟨⟨by simp only; omega, by rw [hsym, hs]; simp [nextSym], by simp [hdo], by simp⟩, ?_⟩
        simp only [Option.toList_some, List.map_cons, List.map_nil,
          hst.1, word64_sub_one (v := d.pos) (by omega), hp]

end Sys2Proof.Machine
end

