-- ==== Sys2Proof/Laws/Labels.lean ====
section
/-! SUPPORT. That the labels of the integers a flat sequence emits are the labels of the flat sequence
(41_gap_run_automaton.md R143, R157), in exact integers, and what D.NEXT makes of them. -/

namespace Sys2Proof.Machine

/-! ### The labels of a flat sequence -/

/-- The ranges of a sequence of lengths whose labels alternate, from position `p` with the open run `o` (00_scope.md R17,
41_gap_run_automaton.md R143). -/
def segments : (p : Nat) → (o : Option Nat) → (label : Bool) → List Nat → List Span
  | p, o, _, [] => (labelAt o false p).2
  | p, o, s, n :: ns =>
    if n = 0 then segments p o (!s) ns
    else (labelAt o s p).2 ++ segments (p + n) (labelAt o s p).1 (!s) ns

theorem labelAt_again (o : Option Nat) (s : Bool) (p q : Nat) :
    labelAt (labelAt o s p).1 s q = ((labelAt o s p).1, []) := by
  cases o <;> cases s <;> rfl

theorem segments_zero (p : Nat) (o : Option Nat) (s : Bool) (ns : List Nat) :
    segments p o s (0 :: ns) = segments p o (!s) ns := by simp [segments]

theorem segments_pos {n : Nat} (hn : n ≠ 0) (p : Nat) (o : Option Nat) (s : Bool) (ns : List Nat) :
    segments p o s (n :: ns) = (labelAt o s p).2 ++ segments (p + n) (labelAt o s p).1 (!s) ns := by
  simp [segments, hn]

/-- The first position of a segment may be labelled by itself. -/
theorem segments_split {n : Nat} (hn : n ≠ 0) (p : Nat) (o : Option Nat) (s : Bool) (ns : List Nat) :
    segments p o s (n :: ns) = (labelAt o s p).2 ++ segments (p + 1) (labelAt o s p).1 s ((n - 1) :: ns) := by
  rw [segments_pos hn]
  congr 1
  by_cases h : n - 1 = 0
  · rw [h, segments_zero, show n = 1 by omega]
  · rw [segments_pos h, labelAt_again, List.nil_append, show p + 1 + (n - 1) = p + n by omega]

theorem spans_cons (l : Labeler) (v : Nat) (vs : List Nat) : l.spans (v :: vs) = (l.value v).2 ++ (l.value v).1.spans vs := rfl

theorem value_long {l : Labeler} {v : Nat} (h : 1 < v) :
    l.value v = ({ pos := l.pos + v, sym := l.sym, open' := (labelAt (labelAt l.open' l.sym l.pos).1 (!l.sym) (l.pos + (v - 1))).1 },
      (labelAt l.open' l.sym l.pos).2 ++ (labelAt (labelAt l.open' l.sym l.pos).1 (!l.sym) (l.pos + (v - 1))).2) := by
  simp [Labeler.value, h]

theorem value_one (l : Labeler) :
    l.value 1 = ({ pos := l.pos + 1, sym := !l.sym, open' := (labelAt l.open' (!l.sym) l.pos).1 }, (labelAt l.open' (!l.sym) l.pos).2) := by
  simp [Labeler.value]

/-- The symbol the decoder has where the automaton stands (R143): synchronized, it is the label of the next position. -/
def symbolAt (async : Bool) (rem : Nat) (label : Bool) : Bool :=
  if async then (if rem = 0 then !label else label) else (if rem = 0 then label else !label)

/-- The integers emitted for a flat sequence whose last value is a run carry its labels (R143, R157). -/
theorem spans_emitsFrom (q : List Nat) : ∀ (a : Bool) (rem p : Nat) (o : Option Nat) (s : Bool), (∀ v ∈ q, v ≠ 0) →
    s = decide (q.length % 2 = 0) →
    ({ pos := p, sym := symbolAt a rem s, open' := o } : Labeler).spans (emitsFrom a rem q) = segments p o s (rem :: q) := by
  induction q with
  | nil =>
    intro a rem p o s _ hs
    simp only [List.length_nil, Nat.zero_mod, decide_true] at hs
    subst hs
    have sync : ∀ (rem p : Nat) (o : Option Nat), rem ≠ 0 →
        ({ pos := p, sym := true, open' := o } : Labeler).spans [rem + 1] = segments p o true [rem] := by
      intro rem p o hr
      rw [spans_cons, value_long (by omega), segments_pos hr]
      cases o <;> simp [labelAt, Labeler.spans, segments]
    by_cases hr : rem = 0
    · subst hr
      simp [emitsFrom, runEmits, Labeler.spans, segments]
    · cases a with
      | true => simpa [emitsFrom, runEmits, symbolAt, hr] using sync rem p o hr
      | false =>
        rw [emitsFrom_unsync hr, spans_cons, value_one, segments_split hr]
        simp only [symbolAt, hr, Bool.false_eq_true, if_false, Bool.not_true, Bool.not_false]
        congr 1
        by_cases h1 : rem - 1 = 0
        · rw [h1]; simp [emitsFrom, runEmits, Labeler.spans, segments]
        · rw [show (rem - 1 != 0) = true by simpa using h1, emitsFrom_sync h1]
          exact sync (rem - 1) _ _ h1
  | cons v q ih =>
    intro a rem p o s hv hs
    have hv0 := hv v (by simp)
    have hv' : ∀ w ∈ q, w ≠ 0 := fun w hw => hv w (by simp [hw])
    have hs' : (!s) = decide (q.length % 2 = 0) := by
      rw [hs, List.length_cons, ← decide_not]
      apply decide_eq_decide.2
      omega
    have zero : ∀ (a : Bool) (p : Nat) (o : Option Nat),
        ({ pos := p, sym := symbolAt a 0 s, open' := o } : Labeler).spans (emitsFrom a 0 (v :: q)) = segments p o s (0 :: v :: q) := by
      intro a p o
      rw [emitsFrom_zero_cons, segments_zero, ← ih a v p o (!s) hv' hs']
      congr 2
      simp [symbolAt, hv0]
    have sync : ∀ (rem p : Nat) (o : Option Nat), rem ≠ 0 →
        ({ pos := p, sym := s, open' := o } : Labeler).spans (emitsFrom true rem (v :: q)) = segments p o s (rem :: v :: q) := by
      intro rem p o hr
      rw [emitsFrom_sync hr, spans_cons, value_long (by omega), segments_pos hr, segments_split hv0, List.append_assoc]
      congr 2
      simp only [Nat.add_sub_cancel]
      have hi := ih (v - 1 == 0) (v - 1) (p + rem + 1) (labelAt (labelAt o s p).1 (!s) (p + rem)).1 (!s) hv' hs'
      rw [← hi, emitsAfter]
      congr 2
      unfold symbolAt
      by_cases h1 : v - 1 = 0
      · rw [h1]; simp
      · rw [show (v - 1 == 0) = false by simpa using h1]; simp [h1]
    by_cases hr : rem = 0
    · subst hr; exact zero a p o
    · cases a with
      | true => simpa [symbolAt, hr] using sync rem p o hr
      | false =>
        rw [emitsFrom_unsync hr, spans_cons, value_one, segments_split hr]
        simp only [symbolAt, hr, Bool.false_eq_true, if_false, Bool.not_not]
        congr 1
        by_cases h1 : rem - 1 = 0
        · rw [h1]
          simpa [symbolAt] using zero false (p + 1) (labelAt o s p).1
        · rw [show (rem - 1 != 0) = true by simpa using h1]
          exact sync (rem - 1) _ _ h1

/-! ### The flat sequence of a canonical run sequence (00_scope.md R17) -/

/-- The flat sequence of the ranges, whose first may begin at `next` (R17). -/
def flatsFrom : (next : Nat) → List Span → List Nat
  | _, [] => []
  | next, r :: rs => (r.1 - next) :: (r.2 - r.1 + 1) :: flatsFrom (r.2 + 1) rs

/-- The position after the last range, and `next` if there is none. -/
def nextAfter : (next : Nat) → List Span → Nat
  | next, [] => next
  | _, r :: rs => nextAfter (r.2 + 1) rs

theorem flatsFrom_append (next : Nat) (rs qs : List Span) :
    flatsFrom next (rs ++ qs) = flatsFrom next rs ++ flatsFrom (nextAfter next rs) qs := by
  induction rs generalizing next with
  | nil => rfl
  | cons r rs ih => simp [flatsFrom, nextAfter, ih]

theorem flatsFrom_length (next : Nat) (rs : List Span) : (flatsFrom next rs).length = 2 * rs.length := by
  induction rs generalizing next with
  | nil => rfl
  | cons r rs ih => simp only [flatsFrom, List.length_cons, ih]; omega

theorem Canonical.cons {r : Span} {rs : List Span} :
    Canonical (r :: rs) ↔ r.1 ≤ r.2 ∧ (∀ q ∈ rs, r.2 + 1 < q.1) ∧ Canonical rs := by
  simp only [Canonical, List.mem_cons, forall_eq_or_imp, List.pairwise_cons]
  tauto

/-- Only the first value of a flat sequence can be 0 (40_range_merger.md R118). -/
theorem flatsFrom_ne_zero {next : Nat} {rs : List Span} (hc : Canonical rs) (hn : ∀ r ∈ rs, next < r.1) :
    ∀ v ∈ flatsFrom next rs, v ≠ 0 := by
  induction rs generalizing next with
  | nil => simp [flatsFrom]
  | cons r rs ih =>
    obtain ⟨h1, h2, h3⟩ := Canonical.cons.1 hc
    have h4 := hn r (by simp)
    intro v hv
    simp only [flatsFrom, List.mem_cons] at hv
    rcases hv with rfl | rfl | hv
    · omega
    · omega
    · exact ih h3 h2 v hv

/-- The labels of a flat sequence are its ranges. -/
theorem segments_flatsFrom {next : Nat} {rs : List Span} {o : Option Nat} (hc : Canonical rs) (hn : ∀ r ∈ rs, next ≤ r.1)
    (ho : o.isSome = true → ∀ r ∈ rs, next < r.1) :
    segments next o false (flatsFrom next rs) = (labelAt o false next).2 ++ rs := by
  induction rs generalizing next o with
  | nil => simp [flatsFrom, segments]
  | cons r rs ih =>
    obtain ⟨h1, h2, h3⟩ := Canonical.cons.1 hc
    have h4 := hn r (by simp)
    have hi := ih (next := r.2 + 1) (o := some r.1) h3 (fun q hq => by have := h2 q hq; omega)
      (fun _ q hq => h2 q hq)
    have run : segments r.1 none true ((r.2 - r.1 + 1) :: flatsFrom (r.2 + 1) rs) = r :: rs := by
      rw [segments_pos (by omega)]
      simp only [labelAt, List.nil_append, Bool.not_true]
      rw [show r.1 + (r.2 - r.1 + 1) = r.2 + 1 by omega, hi]
      simp [labelAt]
    simp only [flatsFrom]
    by_cases hg : r.1 - next = 0
    · rw [hg, segments_zero]
      obtain rfl : r.1 = next := by omega
      cases o with
      | none => simpa [labelAt] using run
      | some a => exact absurd (ho rfl r (by simp)) (by omega)
    · rw [segments_pos hg, show next + (r.1 - next) = r.1 by omega]
      congr 1
      cases o with
      | none => simpa [labelAt] using run
      | some a => simpa [labelAt] using run

/-- The integers emitted for a canonical run sequence, decoded, give back its ranges (R143, R157). -/
theorem spans_emits {c : CompContext} (hp : c.aphase = .unseeded) {rs : List Span} (hc : Canonical rs) :
    ({ pos := 0, sym := false, open' := none } : Labeler).spans (c.emits (flatsFrom 0 rs)) = rs := by
  cases rs with
  | nil => simp [flatsFrom, CompContext.emits, hp, Labeler.spans, labelAt]
  | cons r rs =>
    have hs := segments_flatsFrom (next := 0) (o := none) hc (by simp) (by simp)
    obtain ⟨h1, h2, h3⟩ := Canonical.cons.1 hc
    simp only [labelAt, List.nil_append] at hs
    have he : c.emits (flatsFrom 0 (r :: rs)) = emitsFrom (r.1 != 0) r.1 ((r.2 - r.1 + 1) :: flatsFrom (r.2 + 1) rs) := by
      simp [flatsFrom, CompContext.emits, hp]
    have hy : symbolAt (r.1 != 0) r.1 false = false := by
      unfold symbolAt
      by_cases h : r.1 = 0
      · rw [h]; rfl
      · simp [h]
    have key := spans_emitsFrom ((r.2 - r.1 + 1) :: flatsFrom (r.2 + 1) rs) (r.1 != 0) r.1 0 none false ?_ ?_
    · rw [hy] at key
      rw [he, key]
      exact hs
    · intro v hv
      simp only [List.mem_cons] at hv
      rcases hv with rfl | hv
      · omega
      · exact flatsFrom_ne_zero h3 h2 v hv
    · rw [List.length_cons, flatsFrom_length]
      symm
      apply decide_eq_false
      omega

theorem emitsFrom_pos (vs : List Nat) : ∀ (a : Bool) (rem : Nat), ∀ x ∈ emitsFrom a rem vs, 1 ≤ x := by
  have hrun : ∀ (a : Bool) (rem : Nat), ∀ x ∈ runEmits a rem, 1 ≤ x := by
    intro a rem x hx
    unfold runEmits at hx
    split at hx
    · simp at hx
    · split at hx
      · simp at hx; omega
      · split at hx
        · simp at hx; omega
        · simp at hx; omega
  induction vs with
  | nil => exact hrun
  | cons v vs ih =>
    intro a rem x hx
    simp only [emitsFrom] at hx
    split at hx
    · exact ih _ _ x hx
    · split at hx
      · simp only [List.mem_cons] at hx
        rcases hx with rfl | hx
        · omega
        · exact ih _ _ x hx
      · rcases List.mem_append.1 hx with hx | hx
        · exact hrun _ _ x hx
        · exact ih _ _ x hx

/-- The automaton emits only integers from 1 on (R130). -/
theorem emits_pos (c : CompContext) (vs : List Nat) : ∀ x ∈ c.emits vs, 1 ≤ x := by
  unfold CompContext.emits
  split <;> first | exact emitsFrom_pos _ _ _ | simp

/-! ### D.NEXT over a stream of codewords (45_decompress_commands.md R224, R225) -/

/-- What the loop of D.NEXT answers where the stream holds the ranges `ss`: the first of them, if there is one, and a context
that stands for the others (R224, R225). -/
inductive NextSpan (d : DecompContext) : List Span → DecompContext × LoopEnd → Prop where
  | none {d'} (hd : d'.dphase = .done) : NextSpan d [] (d', .noRange)
  | last {d'} (r : Span) (hd : d'.dphase = .done) : NextSpan d [r] (d', .range (word64 r.1, word64 r.2))
  | more {d'} (r : Span) (xs : List Nat) (l : Labeler) (hp : d'.dphase = d.dphase) (hi : d'.LoopInv) (hh : d'.Holds xs)
      (hf : l.Fits d') : NextSpan d (r :: l.spans xs) (d', .range (word64 r.1, word64 r.2))

theorem NextSpan.of_phase {d d' : DecompContext} {ss : List Span} {res : DecompContext × LoopEnd} (hp : d'.dphase = d.dphase)
    (h : NextSpan d' ss res) : NextSpan d ss res := by
  cases h with
  | none hd => exact .none hd
  | last r hd => exact .last r hd
  | more r xs l hp' hi hh hf => exact .more r xs l (hp'.trans hp) hi hh hf

/-- At the end of the stream the open run, if there is one, is the last range (R155). -/
theorem finishStream_span {d : DecompContext} {l : Labeler} (hf : l.Fits d) : NextSpan d (l.spans []) d.finishStream := by
  obtain ⟨h1, h2, h3, h4⟩ := hf
  unfold DecompContext.finishStream DecompContext.endOfStream Labeler.spans
  cases ho : l.open' with
  | none =>
    rw [ho] at h3
    simp only [Option.isSome_none] at h3
    simp only [h3, Bool.false_eq_true, if_false, labelAt]
    exact .none rfl
  | some a =>
    rw [ho] at h3 h4
    simp only [Option.isSome_some] at h3
    obtain ⟨h5, h6⟩ := h4 a rfl
    have hw : (word64 a).toNat = a := word64_toNat (by have := d.dstart.isLt; omega)
    have hw' : (word64 (l.pos - 1)).toNat = l.pos - 1 := word64_toNat (by have := d.pos.isLt; omega)
    have e1 : d.dstart = word64 a := BitVec.eq_of_toNat_eq (by omega)
    have e2 : d.pos - 1 = word64 (l.pos - 1) := BitVec.eq_of_toNat_eq (by rw [word64_sub_one (by omega)]; omega)
    simp only [h3, if_true, labelAt, e1, e2]
    exact .last (a, l.pos - 1) rfl

/-- The loop of D.NEXT answers the next range of the stream (R157, R168, R225). -/
theorem decodeLoop_span {n : Nat} {d : DecompContext} {l : Labeler} {xs : List Nat} (hi : d.LoopInv) (hh : d.Holds xs)
    (hf : l.Fits d) (hn : 8 * d.ilen.toNat ≤ d.bpos.toNat + n) : NextSpan d (l.spans xs) (decodeLoop n d) := by
  induction n generalizing d l xs with
  | zero =>
    have hend : d.atEnd = true := atEnd_eq_true.2 (by omega)
    cases xs with
    | nil => exact finishStream_span hf
    | cons x xs => exact absurd hh.advance.2.1 (by simp [hend])
  | succ n ih =>
    cases xs with
    | nil =>
      unfold decodeLoop
      rw [if_pos hh.ends]
      exact finishStream_span hf
    | cons x xs =>
      obtain ⟨h1, h2, h3, h4⟩ := hh.advance
      have hx := hh.inRange x (by simp)
      have hfa : l.Fits d.advance := ⟨hf.pos, hf.sym, hf.dopen, hf.dstart⟩
      have hb : l.pos + x < 2 ^ 64 := by
        have := hi.pos_lt
        have := hf.pos
        have := hx.2
        unfold Config.gammaMax at this
        omega
      obtain ⟨k1, k2⟩ := hfa.value hx.1 hb
      have hc := hi.codeword h2 h1
      rw [h3] at hc
      have hfr := decodeValue_frame d.advance x
      have hho : (d.advance.decodeValue x).1.Holds xs :=
        h4.congr (congrArg (·.bpos) hfr) (congrArg (·.ilen) hfr) (congrArg (·.ibuf) hfr)
      have hil : (d.advance.decodeValue x).1.ilen = d.ilen := congrArg (·.ilen) hfr
      have hph : (d.advance.decodeValue x).1.dphase = d.dphase := congrArg (·.dphase) hfr
      unfold decodeLoop
      rw [if_neg (by simp [h2]), if_neg (by simpa [Config.window] using h1), h3, spans_cons]
      cases hd : d.advance.decodeValue x with
      | mk d' o =>
        rw [hd] at k1 k2 hc hho hil hph
        simp only at k1 k2 hc hho hil hph
        obtain ⟨hc1, hc2, -⟩ := hc
        cases o with
        | none =>
          simp only [Option.toList_none, List.map_nil] at k2
          rw [← k2, List.nil_append]
          exact (ih hc1 hho k1 (by rw [hil, hc2]; omega)).of_phase hph
        | some r =>
          simp only [Option.toList_some, List.map_cons, List.map_nil] at k2
          rw [← k2]
          suffices hl : DecompContext.LoopInv { d' with nranges := d.nranges + 1 } by
            have := NextSpan.more (d := d) (d' := { d' with nranges := d.nranges + 1 }) (r.1.toNat, r.2.toNat) xs (l.value x).1
              hph hl (hho.congr rfl rfl rfl) ⟨k1.pos, k1.sym, k1.dopen, k1.dstart⟩
            simpa only [word64_self, List.singleton_append] using this
          obtain ⟨i1, i2, i3, i4, i5⟩ := hc1
          refine ⟨i1, i2, i3, ?_, i5⟩
          have := hi.count
          show (d.nranges + 1).toNat ≤ d'.bpos.toNat
          rw [BitVec.toNat_add]
          have := d.nranges.isLt
          simp
          omega

end Sys2Proof.Machine
end

