-- ==== Sys2Proof/Laws/PerInstr.lean ====
section
/-! SUPPORT. The statements made once per command, one lemma for each constructor of `Instr`. -/

namespace Sys2Proof.Laws

/-- The word of the command passes the checks of 30_encoding.md R87 and R88: it is in a row of spec/opcode_table.json. -/
def EncodedWordOk.Statement (i : Instr) : Prop := wordOk (encode i) = true

/-- Masking acts on the three fields of a word. -/
theorem mkWord_and (op op' : Byte) (a a' b b' : Word32) :
    mkWord op a b &&& mkWord op' a' b' = mkWord (op &&& op') (a &&& a') (b &&& b') := by
  show (op ++ a ++ b) &&& (op' ++ a' ++ b') = (op &&& op') ++ (a &&& a') ++ (b &&& b')
  exact BitVec.and_append.trans (congrArg (· ++ (b &&& b')) BitVec.and_append)

/-- A word of three fields passes the checks if a row masks it to its own pattern, field by field. -/
theorem wordOk_mkWord {op : Byte} {a b : Word32} (name : String) (a' b' : Word32)
    (hr : ⟨name, mkWord op 0 0, mkWord 0xFF a' b'⟩ ∈ opcodeTable) (ha : a &&& a' = 0) (hb : b &&& b' = 0) :
    wordOk (mkWord op a b) = true := by
  refine List.any_eq_true.mpr ⟨_, hr, beq_iff_eq.mpr ?_⟩
  rw [mkWord_and, ha, hb, show op &&& 0xFF = op from BitVec.and_allOnes]

/-- A byte in the low bits of an operand leaves the bits above them zero. -/
theorem byte_and_high (b : Byte) : (b.setWidth 32 : Word32) &&& 0xFFFFFF00 = 0 := by
  revert b; decide

theorem EncodedWordOk.cInit (maxsize : Word32) : EncodedWordOk.Statement (.cInit maxsize) :=
  wordOk_mkWord "C.INIT" 0 0xFFFFFFFF (by decide) BitVec.and_zero BitVec.zero_and

theorem EncodedWordOk.cPush (start stop : Word32) : EncodedWordOk.Statement (.cPush start stop) :=
  wordOk_mkWord "C.PUSH" 0 0 (by decide) BitVec.and_zero BitVec.and_zero

theorem EncodedWordOk.cFinish : EncodedWordOk.Statement .cFinish :=
  wordOk_mkWord "C.FINISH" 0xFFFFFFFF 0xFFFFFFFF (by decide) BitVec.zero_and BitVec.zero_and

theorem EncodedWordOk.cRdbyte (addr : Word32) : EncodedWordOk.Statement (.cRdbyte addr) :=
  wordOk_mkWord "C.RDBYTE" 0 0xFFFFFFFF (by decide) BitVec.and_zero BitVec.zero_and

theorem EncodedWordOk.nop : EncodedWordOk.Statement .nop :=
  wordOk_mkWord "NOP" 0xFFFFFFFF 0xFFFFFFFF (by decide) BitVec.zero_and BitVec.zero_and

theorem EncodedWordOk.dInit (len : Word32) : EncodedWordOk.Statement (.dInit len) :=
  wordOk_mkWord "D.INIT" 0 0xFFFFFFFF (by decide) BitVec.and_zero BitVec.zero_and

theorem EncodedWordOk.dLoad (addr : Word32) (byte : Byte) : EncodedWordOk.Statement (.dLoad addr byte) :=
  wordOk_mkWord "D.LOAD" 0 0xFFFFFF00 (by decide) BitVec.and_zero (byte_and_high byte)

theorem EncodedWordOk.dNext : EncodedWordOk.Statement .dNext :=
  wordOk_mkWord "D.NEXT" 0xFFFFFFFF 0xFFFFFFFF (by decide) BitVec.zero_and BitVec.zero_and

theorem EncodedWordOk.rdreg (index : Byte) : EncodedWordOk.Statement (.rdreg index) :=
  wordOk_mkWord "RDREG" 0xFFFFFF00 0xFFFFFFFF (by decide) (byte_and_high index) BitVec.zero_and

end Sys2Proof.Laws
end

