-- ==== Sys2Proof/Tests/Slice0.lean ====
section
/-! SUPPORT. Tests: ill-formed terms that each check refuses, words written out from the spec's encodings, one-step tests
whose expected values are the spec's (95_test_vectors.md), and for every statement with hypotheses a state that meets
them. -/

namespace Sys2Proof.Tests

open Sys2Proof
open Sys2Proof.Machine

/-! ### The checks on words (30_encoding.md R87, R88) -/

/-- V8: opcodes 0x00 and 0x05, and the other ends of the reserved ranges. -/
theorem test_reserved_opcodes_refused :
    [0x00, 0x05, 0x0E, 0x10, 0x14, 0x1F, 0x21, 0xFF].all (fun n =>
      !wordOk (mkWord (BitVec.ofNat 8 n) 0 0) &&
        decode (mkWord (BitVec.ofNat 8 n) 0 0) matches .error (.reservedOpcode _)) = true := by decide

/-- V8, and the highest and lowest reserved bit of every command that has one. -/
theorem test_reserved_bits_refused :
    [0x010100000000000001, 0x010000000080000000, 0x030000000100000000, 0x030000000000000001, 0x040000000000000001,
      0x0F8000000000000000, 0x0F0000000000000001, 0x110000000080000000, 0x120000000000000100, 0x120000000080000000,
      0x130000000100000000, 0x130000000080000000, 0x200000010000000000, 0x208000000000000000,
      0x200000000000000001].all (fun n =>
      !wordOk (BitVec.ofNat 72 n) && decode (BitVec.ofNat 72 n) matches .error (.reservedBits _)) = true := by decide

/-- V8: a refused word reports its OP. -/
theorem test_refusal_reports_op : decode 0x120000000000000100#72 = .error (.reservedBits 0x12) := by decide

/-! ### The checks on lines (R91): one literal too large for each field -/

theorem test_line_literals_refused :
    [AsmLine.cInit (some 4294967296), .cPush 4294967296 0, .cPush 0 4294967296, .cPushN 4294967296, .cRdbyte 4294967296,
      .dInit 4294967296, .dLoad 4294967296 0, .dLoad 0 256, .dBuf [0, 256], .rdreg (.literal 256)].all
      (fun l => !l.wf && (assemble l).isNone) = true := by decide

theorem test_line_length_refused : (AsmLine.dBuf (List.replicate 4294967296 0)).wf = false := by
  simp only [AsmLine.wf, fits, List.length_replicate]; decide

theorem test_line_literals_accepted :
    [AsmLine.cInit (some 4294967295), .cPush 4294967295 4294967295, .dLoad 4294967295 255, .rdreg (.literal 255)].all
      (fun l => l.wf && (assemble l).isSome) = true := by decide

/-! ### Words written out from the spec (R86, 95_test_vectors.md L3) -/

/-- OP = 01, A = 01000000, B = 0. -/
theorem test_decode_cInit : decode 0x010100000000000000#72 = .ok (.cInit 0x1000000#32) := by decide
/-- P3: `C.PUSH 6, 10`. -/
theorem test_decode_cPush : decode 0x02000000060000000A#72 = .ok (.cPush 6#32 10#32) := by decide
theorem test_decode_cFinish : decode 0x030000000000000000#72 = .ok .cFinish := by decide
/-- P1: `C.RDBYTE 2`. -/
theorem test_decode_cRdbyte : decode 0x040000000200000000#72 = .ok (.cRdbyte 2#32) := by decide
theorem test_decode_nop : decode 0x0F0000000000000000#72 = .ok .nop := by decide
/-- P5: `D.INIT 3`. -/
theorem test_decode_dInit : decode 0x110000000300000000#72 = .ok (.dInit 3#32) := by decide
/-- P4: `D.LOAD 4, 0x7F`. -/
theorem test_decode_dLoad : decode 0x12000000040000007F#72 = .ok (.dLoad 4#32 0x7F#8) := by decide
theorem test_decode_dNext : decode 0x130000000000000000#72 = .ok .dNext := by decide
/-- P5: `RDREG D_INFO0`. -/
theorem test_decode_rdreg : decode 0x200000001700000000#72 = .ok (.rdreg 0x17#8) := by decide
/-- P4: `C.PUSH 4294967295, 4294967295`. -/
theorem test_encode_cPush : encode (.cPush 4294967295#32 4294967295#32) = 0x02FFFFFFFFFFFFFFFF#72 := by decide

/-! ### The assembler (R91 to R93) -/

theorem test_assemble_pushn :
    assembleText "  c.pushn 0x7 ; seven".toList = some [.cPush 7#32 7#32] := by decide

theorem test_assemble_name : assembleText "RDREG C_LAST_END".toList = some [.rdreg 0x07#8] := by decide

/-- P2: the expansion of `D.BUF 0x44, 0x80`. -/
theorem test_assemble_dbuf :
    assembleText "D.BUF 0x44, 0x80".toList = some [.dInit 2#32, .dLoad 0#32 0x44#8, .dLoad 1#32 0x80#8] := by decide

theorem test_assemble_error : assembleText "D.LOAD 0, 0x100".toList = none := by decide

/-! ### One step of each command -/

/-- The response of one command. -/
def answer (s : State) (i : Instr) : Option (Nat × Nat × Nat) :=
  (s.after i).resp.map fun r => (r.status.toNat, r.v0.toNat, r.v1.toNat)

/-- After C.INIT of the cap and the elements. -/
def pushed (maxsize : Word32) (es : List (Word32 × Word32)) : State :=
  State.reset.afterAll (.cInit maxsize :: es.map fun e => .cPush e.1 e.2)

/-- After a whole compression. -/
def finished (maxsize : Word32) (es : List (Word32 × Word32)) : State := (pushed maxsize es).after .cFinish

/-- After D.INIT and D.LOAD of the bytes. -/
def loaded (bs : List Byte) : State :=
  State.reset.afterAll (.dInit (BitVec.ofNat 32 bs.length) ::
    (List.range bs.length).map fun j => .dLoad (BitVec.ofNat 32 j) (bs.getD j 0))

/-- In the middle of decoding the bytes. -/
def decoding (bs : List Byte) : State := { loaded bs with d := { (loaded bs).d with dphase := .active } }

/-- S12, V8: C.INIT of the default cap, and of one byte more than OBUF holds. -/
theorem test_cInit :
    answer State.reset (.cInit 16777216) = some (0, 0, 0) ∧ answer State.reset (.cInit 16777217) = some (0xD, 1, 0) := by
  decide

/-- P6: C.INIT in DONE empties the output and keeps the operand as the cap. -/
theorem test_cInit_again :
    ((finished 0 []).after (.cInit 1)).c.cphase = .opened ∧ ((finished 0 []).after (.cInit 1)).c.maxsize = 1 ∧
      ((finished 0 []).after (.cInit 1)).c.eoi = false := by decide

/-- P1: the second C.PUSH closes [1, 1]; the automaton emits 2 and blocks in PULL_TOP. -/
theorem test_cPush :
    answer (pushed 16777216 [(1, 1)]) (.cPush 5 6) = some (0, 3, 0) ∧
      (pushed 16777216 [(1, 1), (5, 6)]).c.aphase = .pullTop := by decide

/-- P3: C.PUSH 4, 8 after [1, 5]. -/
theorem test_cPush_overlap :
    answer (pushed 16777216 [(1, 5)]) (.cPush 4 8) = some (8, 4, 8) ∧
      cStatusWord (pushed 16777216 [(1, 5), (4, 8)]).c = 0x183 := by decide

/-- P1: C.FINISH and the end state. -/
theorem test_cFinish :
    answer (pushed 16777216 [(1, 1), (5, 6)]) .cFinish = some (0, 2, 9) ∧
      cStatusWord (finished 16777216 [(1, 1), (5, 6)]).c = 0x4202 := by decide

/-- P6: C.FINISH of the whole domain. -/
theorem test_cFinish_range :
    answer (pushed 16777216 [(0, 4294967295)]) .cFinish = some (9, 4294967296, 0) ∧
      cStatusWord (finished 16777216 [(0, 4294967295)]).c = 0x1693 := by decide

/-- P1: the second byte, and the address after it. -/
theorem test_cRdbyte :
    answer (finished 16777216 [(1, 1), (5, 6)]) (.cRdbyte 1) = some (0, 0x80, 0) ∧
      answer (finished 16777216 [(1, 1), (5, 6)]) (.cRdbyte 2) = some (0xD, 4, 0) := by decide

/-- P3: an error is latched for C.RDBYTE too. -/
theorem test_cRdbyte_error : answer (pushed 16777216 [(1, 5), (4, 8)]) (.cRdbyte 0) = some (8, 4, 8) := by decide

/-- V8. -/
theorem test_nop : answer State.reset .nop = some (0, 0, 0) := by decide

/-- V8: D.INIT of one byte more than IBUF holds. -/
theorem test_dInit :
    answer State.reset (.dInit 2) = some (0, 0, 0) ∧ answer State.reset (.dInit 16777217) = some (0xD, 0x11, 0) := by
  decide

/-- P5: an address at `D.ilen`, and a byte below it. -/
theorem test_dLoad :
    answer (loaded [0, 0, 0]) (.dLoad 3 0) = some (0xD, 0x12, 0) ∧
      ((State.reset.after (.dInit 2)).after (.dLoad 0 0x44)).d.written = [0] := by decide

/-- P2: the first range of 44 80, and the end state of the second D.NEXT. -/
theorem test_dNext :
    answer (loaded [0x44, 0x80]) .dNext = some (0, 1, 1) ∧
      answer ((loaded [0x44, 0x80]).after .dNext) .dNext = some (0, 5, 6) := by decide

/-- P5: five bytes with a window of zeros. -/
theorem test_dNext_zeros :
    answer (loaded [0, 0, 0, 0, 0x80]) .dNext = some (0xB, 0, 0) ∧
      dStatusWord ((loaded [0, 0, 0, 0, 0x80]).after .dNext).d = 0xB4 := by decide

/-- V8: C_LAST_END after reset, and an unlisted index. -/
theorem test_rdreg :
    answer State.reset (.rdreg 7) = some (0, 0xFFFFFFFFFFFFFFFF, 0) ∧
      answer State.reset (.rdreg 0x18) = some (0xD, 0x20, 0) := by decide

/-- P5: CORE_ID. -/
theorem test_rdreg_core_id : answer State.reset (.rdreg 0x1F) = some (0, 0x534D4F4C00010007, 0) := by decide

/-- A word placed for the host's table checks is the one the next step runs. -/
theorem test_step_runs_placed_word :
    step (State.reset.withFetchWord 72 0x010000000100000000) matches
      .next { c := { maxsize := 1#32, cphase := .opened, .. }, pending := [], .. } := by decide

/-- V8: a reserved OP through `step`. -/
theorem test_step_refuses :
    step (State.reset.withFetchWord 72 0x050000000000000000) matches
      .next { resp := some { status := 0xD#4, v0 := 5#64, v1 := 0#64 }, .. } := by decide

/-- R280: a reset between commands. -/
theorem test_reset_clears_latch :
    step { pushed 5 [(10, 5)] with pending := [.reset] } matches
      .next { c := { cphase := .idle, cerr := 0#4, cinfo0 := 0#64, maxsize := 16777216#32, .. }, .. } := by decide

/-! ### States that meet the hypotheses of the statements, at the boundaries of their clauses -/

theorem witness_ReservedOpcodeIsRefused :
    [0x00, 0x05, 0x0E, 0x10, 0x14, 0x1F, 0x21, 0xFF].all (fun n =>
      let w := mkWord (BitVec.ofNat 8 n) 3 4
      let o := (opField w).toNat
      (State.reset.issue w).pending == [.command w] &&
        decide (o = 0x00 ∨ (0x05 ≤ o ∧ o ≤ 0x0E) ∨ o = 0x10 ∨ (0x14 ≤ o ∧ o ≤ 0x1F) ∨ 0x21 ≤ o)) = true := by decide

/-- The lowest and the highest reserved bit of each group. -/
theorem witness_ReservedBitsAreRefused :
    [0x01, 0x04, 0x11].all (fun n =>
      opField (mkWord (BitVec.ofNat 8 n) 0 1) == BitVec.ofNat 8 n && bField (mkWord (BitVec.ofNat 8 n) 0 1) != 0 &&
        bField (mkWord (BitVec.ofNat 8 n) 0 0x80000000) != 0) = true ∧
    [0x03, 0x0F, 0x13].all (fun n =>
      opField (mkWord (BitVec.ofNat 8 n) 1 0) == BitVec.ofNat 8 n && aField (mkWord (BitVec.ofNat 8 n) 1 0) != 0 &&
        bField (mkWord (BitVec.ofNat 8 n) 0 0x80000000) != 0) = true ∧
    (bField (mkWord 0x12 0 0x100)).extractLsb' 8 24 ≠ 0 ∧ (bField (mkWord 0x12 0 0xFF)).extractLsb' 8 24 = 0 ∧
    (aField (mkWord 0x20 0x100 0)).extractLsb' 8 24 ≠ 0 ∧ bField (mkWord 0x20 0 1) ≠ 0 := by decide

theorem witness_StepRunsTheDecodedCommand :
    (State.reset.issue 0x020000000300000007#72).pending = [.command 0x020000000300000007#72] ∧
    decode 0x020000000300000007#72 = .ok (.cPush 3 7) := by decide

theorem witness_EveryCommandWordIsAnswered :
    (State.reset.issue 0xFF0000000000000000#72).pending = .command 0xFF0000000000000000#72 :: [] := by decide

theorem witness_IdleStepHoldsTheState : (finished 0 []).pending = [] := by decide

theorem witness_HardwareResetSetsEveryRegister :
    ({ pushed 5 [(10, 5)] with pending := [.reset, .reset] } : State).pending = .reset :: [.reset] := by decide

theorem witness_RdregReadsTheViews :
    [0x0D, 0x0F, 0x18, 0x1E, 0x20, 0xFF].all (fun n =>
      decide ((0x0D ≤ n ∧ n ≤ 0x0F) ∨ (0x18 ≤ n ∧ n ≤ 0x1E) ∨ 0x20 ≤ n) &&
        answer State.reset (.rdreg (BitVec.ofNat 8 n)) == some (0xD, 0x20, 0)) = true ∧
    [0x0C, 0x10, 0x17, 0x1F].all (fun n =>
      decide ¬ ((0x0D ≤ n ∧ n ≤ 0x0F) ∨ (0x18 ≤ n ∧ n ≤ 0x1E) ∨ 0x20 ≤ n)) = true := by decide

/-- A compression latched in error, and a decompression that has ended, meet the invariant. -/
theorem witness_CStatusHasItsFields : (pushed 16777216 [(1, 5), (4, 8)]).Inv :=
  ⟨by decide, ⟨by decide, by decide, by decide, by decide, by decide⟩, by decide, by decide, by decide, by decide⟩

theorem witness_DStatusHasItsFields : ((loaded [0x80]).afterAll [.dNext, .dNext]).Inv :=
  ⟨by decide, ⟨by decide, by decide, by decide, by decide, by decide⟩, by decide, by decide, by decide, by decide⟩

theorem witness_CInitStartsAnew :
    State.reset.params.obufBytes < (16777217 : Word32).toNat ∧ (16777216 : Word32).toNat ≤ State.reset.params.obufBytes ∧
    (0 : Word32).toNat ≤ State.reset.params.obufBytes := by decide

theorem witness_CompressionPhaseGate :
    State.reset.c.cphase = .idle ∧ (pushed 5 []).c.cphase = .opened ∧ (finished 5 []).c.cphase = .done ∧
    (pushed 5 [(10, 5)]).c.cphase = .error := by decide

/-- Backwards by one; beginning at the end of the open range; beginning at 0. -/
theorem witness_InvalidElementIsLatched :
    (pushed 5 []).c.cphase = .opened ∧ (5 : Word32).toNat < (6 : Word32).toNat ∧
    (pushed 5 [(0, 5)]).c.cphase = .opened ∧ (pushed 5 [(0, 5)]).c.nhave = true ∧
    (5 : Word32).toNat ≤ (pushed 5 [(0, 5)]).c.pe.toNat ∧ (0 : Word32).toNat ≤ (pushed 5 [(0, 5)]).c.pe.toNat := by decide

theorem witness_inv_opened : (pushed 5 []).Inv :=
  ⟨by decide, ⟨by decide, by decide, by decide, by decide, by decide⟩, by decide, by decide, by decide, by decide⟩

theorem witness_FirstElementOpensARange :
    (pushed 5 []).Inv ∧ (pushed 5 []).c.cphase = .opened ∧ (pushed 5 []).c.nhave = false ∧
    (4294967295 : Word32).toNat ≤ (4294967295 : Word32).toNat := ⟨witness_inv_opened, by decide⟩

theorem witness_inv_pushed : (pushed 1 [(1, 1)]).Inv :=
  ⟨by decide, ⟨by decide, by decide, by decide, by decide, by decide⟩, by decide, by decide, by decide, by decide⟩

theorem witness_AdjacentElementExtendsTheRange :
    (pushed 1 [(1, 1)]).Inv ∧ (pushed 1 [(1, 1)]).c.cphase = .opened ∧ (pushed 1 [(1, 1)]).c.nhave = true ∧
    (2 : Word32).toNat ≤ (2 : Word32).toNat ∧ (2 : Word32).toNat = (pushed 1 [(1, 1)]).c.pe.toNat + 1 :=
  ⟨witness_inv_pushed, by decide⟩

/-- The first range, with the gap of R116 still free, and a later one. -/
theorem witness_MergerClosesAndOpens :
    (pushed 1 [(0, 1)]).c.MergerInv ∧ (pushed 1 [(0, 1)]).c.nhave = true ∧
    (pushed 1 [(0, 1)]).c.pe.toNat + 1 < (3 : Word32).toNat ∧
    (pushed 9 [(0, 1), (3, 3)]).c.MergerInv ∧ (pushed 9 [(0, 1), (3, 3)]).c.nhave = true ∧
    (pushed 9 [(0, 1), (3, 3)]).c.lee.toInt ≠ -1 ∧
    (pushed 9 [(0, 1), (3, 3)]).c.pe.toNat + 1 < (4294967295 : Word32).toNat := by decide

theorem witness_EndOfInputClosesTheRange :
    (pushed 5 []).c.MergerInv ∧ (pushed 5 []).c.nhave = false ∧
    (pushed 5 [(0, 4294967295)]).c.MergerInv ∧ (pushed 5 [(0, 4294967295)]).c.nhave = true := by decide

/-- The nearest element that is beyond the open range, with a cap of exactly the bytes needed. -/
theorem witness_FartherElementIsEncoded :
    (pushed 1 [(1, 1)]).Inv ∧ (pushed 1 [(1, 1)]).c.cphase = .opened ∧ (pushed 1 [(1, 1)]).c.nhave = true ∧
    (3 : Word32).toNat ≤ (3 : Word32).toNat ∧ (pushed 1 [(1, 1)]).c.pe.toNat + 1 < (3 : Word32).toNat ∧
    requiredBytes (pushed 1 [(1, 1)]).params.granule ((pushed 1 [(1, 1)]).c.bitlen.toNat +
      streamLength ((pushed 1 [(1, 1)]).c.emits (pushed 1 [(1, 1)]).c.openFlat)) ≤ (pushed 1 [(1, 1)]).c.maxsize.toNat :=
  ⟨witness_inv_pushed, by decide⟩

/-- With nothing pushed, and with one range at a cap of exactly its byte. -/
theorem witness_FinishCompletes :
    (pushed 5 []).Inv ∧ (pushed 5 []).c.cphase = .opened ∧
    (pushed 5 []).c.Packs (pushed 5 []).params.granule ((pushed 5 []).c.emits (pushed 5 []).c.finalFlat) ∧
    (pushed 1 [(1, 1)]).Inv ∧ (pushed 1 [(1, 1)]).c.cphase = .opened ∧
    (pushed 1 [(1, 1)]).c.Packs (pushed 1 [(1, 1)]).params.granule
      ((pushed 1 [(1, 1)]).c.emits (pushed 1 [(1, 1)]).c.finalFlat) :=
  ⟨witness_inv_opened, by decide, ⟨by decide, by decide⟩, witness_inv_pushed, by decide, ⟨by decide, by decide⟩⟩

theorem witness_inv_full : (pushed 0 [(1, 1)]).Inv :=
  ⟨by decide, ⟨by decide, by decide, by decide, by decide, by decide⟩, by decide, by decide, by decide, by decide⟩

/-- The context that range_merger leaves when 3, 3 follows the open range, and when the input ends, at a cap of 0. -/
def mergedPush : CompContext :=
  { (pushed 0 [(1, 1)]).c with
    flatq := (pushed 0 [(1, 1)]).c.openFlat.map (BitVec.ofNat 33), lee := (pushed 0 [(1, 1)]).c.pe.setWidth 33, ps := 3, pe := 3 }

def mergedEnd : CompContext :=
  { (pushed 0 [(1, 1)]).c with
    flatq := (pushed 0 [(1, 1)]).c.finalFlat.map (BitVec.ofNat 33), eoi := true, nhave := false
    lee := if (pushed 0 [(1, 1)]).c.nhave then (pushed 0 [(1, 1)]).c.pe.setWidth 33 else (pushed 0 [(1, 1)]).c.lee }

/-- At a cap of 0 both a C.PUSH beyond the open range and a C.FINISH fail. -/
theorem witness_FailingCodewordIsLatched :
    (pushed 0 [(1, 1)]).Inv ∧ (pushed 0 [(1, 1)]).c.cphase = .opened ∧
    (∃ start stop : Word32, Instr.cPush 3 3 = .cPush start stop ∧ (pushed 0 [(1, 1)]).c.nhave = true ∧
      start.toNat ≤ stop.toNat ∧ (pushed 0 [(1, 1)]).c.pe.toNat + 1 < start.toNat ∧
      mergedPush = { (pushed 0 [(1, 1)]).c with
        flatq := (pushed 0 [(1, 1)]).c.openFlat.map (BitVec.ofNat 33), lee := (pushed 0 [(1, 1)]).c.pe.setWidth 33
        ps := start, pe := stop }) ∧
    ¬ (pushed 0 [(1, 1)]).c.Packs (pushed 0 [(1, 1)]).params.granule
      ((pushed 0 [(1, 1)]).c.emits (pushed 0 [(1, 1)]).c.openFlat) ∧
    mergedEnd = { (pushed 0 [(1, 1)]).c with
      flatq := (pushed 0 [(1, 1)]).c.finalFlat.map (BitVec.ofNat 33), eoi := true, nhave := false
      lee := if (pushed 0 [(1, 1)]).c.nhave then (pushed 0 [(1, 1)]).c.pe.setWidth 33 else (pushed 0 [(1, 1)]).c.lee } ∧
    ¬ (pushed 0 [(1, 1)]).c.Packs (pushed 0 [(1, 1)]).params.granule
      ((pushed 0 [(1, 1)]).c.emits (pushed 0 [(1, 1)]).c.finalFlat) :=
  ⟨witness_inv_full, by decide, ⟨3, 3, rfl, by decide, by decide, by decide, rfl⟩,
    by unfold CompContext.Packs; decide, rfl, by unfold CompContext.Packs; decide⟩

theorem witness_inv_whole_domain : (pushed 1 [(0, 4294967295)]).Inv :=
  ⟨by decide, ⟨by decide, by decide, by decide, by decide, by decide⟩, by decide, by decide, by decide, by decide⟩

/-- The whole domain where its first codeword fits and where it does not, and the largest integer alone. -/
theorem witness_EncodingRangeExceededForTwoSets :
    answer (pushed 0 [(4294967295, 4294967295)]) .cFinish = some (9, 4294967296, 0) ∧
    answer (pushed 0 [(0, 4294967295)]) .cFinish = some (0xA, 1, 0) ∧
    (pushed 1 [(0, 4294967295)]).Inv ∧ (pushed 1 [(0, 4294967295)]).c.cphase = .opened ∧
    ((pushed 1 [(0, 4294967295)]).after .cFinish).c.cerr = 0x9 := ⟨by decide, by decide, witness_inv_whole_domain, by decide⟩

/-- The address at `C.clen` and the one below it. -/
theorem witness_RdbyteReadsTheOutput :
    (finished 16777216 [(1, 1), (5, 6)]).c.cphase = .done ∧
    (finished 16777216 [(1, 1), (5, 6)]).c.clen.toNat ≤ (2 : Word32).toNat ∧
    (1 : Word32).toNat < (finished 16777216 [(1, 1), (5, 6)]).c.clen.toNat := by decide

theorem witness_CompressionErrorRepeats :
    (pushed 5 [(10, 5)]).c.cphase = .error ∧ (∀ j ∈ [Instr.nop, .cFinish, .dInit 1], ∀ m, j ≠ .cInit m) ∧
    (Instr.cPush 1 1).op ∈ ([0x02, 0x03, 0x04] : List Byte) ∧ Instr.cFinish.op ∈ ([0x02, 0x03, 0x04] : List Byte) ∧
    (Instr.cRdbyte 0).op ∈ ([0x02, 0x03, 0x04] : List Byte) :=
  ⟨by decide, by simp, by decide, by decide, by decide⟩

/-- A latch in each context, with a C.INIT, a D.INIT and a reset issued. -/
theorem witness_OnlyInitAndResetClearALatch :
    (∃ t, step ((pushed 5 [(10, 5)]).issue (encode (.cInit 16777216))) = .next t) ∧
    (pushed 5 [(10, 5)]).c.cphase = .error ∧
    decode (encode (.cInit 16777216)) = .ok (.cInit 16777216) ∧
    (∃ t, step (((loaded [0, 0, 0, 0, 0]).after .dNext).issue (encode (.dInit 1))) = .next t) ∧
    ((loaded [0, 0, 0, 0, 0]).after .dNext).d.dphase = .error ∧ decode (encode (.dInit 1)) = .ok (.dInit 1) ∧
    (∃ t, step { pushed 5 [(10, 5)] with pending := [.reset] } = .next t) :=
  ⟨⟨_, rfl⟩, by decide, by decide, ⟨_, rfl⟩, by decide, by decide, ⟨_, rfl⟩⟩

theorem witness_ContextsAreIndependent :
    (Instr.cInit 0).op ∈ ([0x01, 0x02, 0x03, 0x04] : List Byte) ∧ Instr.cFinish.op ∈ ([0x01, 0x02, 0x03, 0x04] : List Byte) ∧
    (Instr.dInit 0).op ∈ ([0x11, 0x12, 0x13] : List Byte) ∧ Instr.dNext.op ∈ ([0x11, 0x12, 0x13] : List Byte) ∧
    (Instr.rdreg 0).op = 0x20 := by decide

/-- A C.PUSH that appends bits, and one that appends none, its first codeword failing with 3 bits in the first byte. -/
theorem witness_OutputStoresStayInTheirBytes :
    (Instr.cPush 3 3).op ∈ ([0x02, 0x03] : List Byte) ∧ Instr.cFinish.op ∈ ([0x02, 0x03] : List Byte) ∧
    (∃ t, exec (.cPush 3 3) (pushed 1 [(1, 1)]) = .next t) ∧ (pushed 1 [(1, 1)]).c.obuf.Wf ∧
    (∃ t, exec (.cPush 30 30) (pushed 1 [(1, 1), (20, 20)]) = .next t) ∧
    (pushed 1 [(1, 1), (20, 20)]).c.bitlen = 3 ∧ (pushed 1 [(1, 1), (20, 20), (30, 30)]).c.bitlen = 3 ∧
    (pushed 1 [(1, 1), (20, 20), (30, 30)]).c.cerr = 0xA :=
  ⟨by decide, by decide, ⟨_, rfl⟩, by decide, ⟨_, rfl⟩, by decide, by decide, by decide⟩

theorem witness_OtherCommandsStoreNothingElse :
    (∃ t, exec (.cInit 3) (pushed 1 [(1, 1)]) = .next t) ∧ (Instr.cInit 3).op ∉ ([0x02, 0x03] : List Byte) ∧
    (∀ (addr : Word32) (byte : Byte), Instr.cInit 3 = .dLoad addr byte → 7 ≠ addr.toNat) :=
  ⟨⟨_, rfl⟩, by decide, by simp⟩

theorem witness_DInitStartsAnew :
    State.reset.params.ibufBytes < (16777217 : Word32).toNat ∧ (16777216 : Word32).toNat ≤ State.reset.params.ibufBytes ∧
    (0 : Word32).toNat ≤ State.reset.params.ibufBytes := by decide

/-- The address at `D.ilen` and the one below it. -/
theorem witness_DLoadWritesOneByte :
    (loaded [1, 2]).d.ibuf.Wf ∧ (loaded [1, 2]).d.dphase = .ready ∧ (loaded [1, 2]).d.ilen.toNat ≤ (2 : Word32).toNat ∧
    (1 : Word32).toNat < (loaded [1, 2]).d.ilen.toNat := by decide

theorem witness_DPhaseGates :
    State.reset.d.dphase = .idle ∧ (loaded [1]).d.dphase = .ready ∧ (decoding [1]).d.dphase = .active ∧
    ((loaded []).after .dNext).d.dphase = .done ∧ ((loaded [0, 0, 0, 0, 0]).after .dNext).d.dphase = .error := by decide

/-- The lowest unwritten address at both ends of the stream, and a stream that is whole. -/
theorem witness_FirstDNextChecksTheInput :
    (State.reset.after (.dInit 2)).d.dphase = .ready ∧
    0 < (State.reset.after (.dInit 2)).d.ilen.toNat ∧ 0 ∉ (State.reset.after (.dInit 2)).d.written ∧
    (State.reset.afterAll [.dInit 2, .dLoad 0 7]).d.dphase = .ready ∧
    1 < (State.reset.afterAll [.dInit 2, .dLoad 0 7]).d.ilen.toNat ∧
    1 ∉ (State.reset.afterAll [.dInit 2, .dLoad 0 7]).d.written ∧
    (∀ b < 1, b ∈ (State.reset.afterAll [.dInit 2, .dLoad 0 7]).d.written) ∧
    (loaded [1, 2]).d.dphase = .ready ∧ (∀ a < (loaded [1, 2]).d.ilen.toNat, a ∈ (loaded [1, 2]).d.written) := by decide

/-- In the middle of decoding the byte 80: its one codeword is read, and a run is open. -/
def afterOneCodeword : State :=
  { decoding [0x80] with d := { (decoding [0x80]).d with bpos := 1, pos := 1, sym := true, dopen := true } }

/-- After the codeword of the byte 80, a run is open; in four bytes of zeros, where exactly 32 bits are left, none is. -/
theorem witness_DNextAtTheEndOfTheStream :
    afterOneCodeword.d.dphase = .active ∧ afterOneCodeword.d.ZerosAt 32 ∧
    8 * afterOneCodeword.d.ilen.toNat ≤ afterOneCodeword.d.bpos.toNat + 32 ∧ afterOneCodeword.d.dopen = true ∧
    (decoding [0, 0, 0, 0]).d.dphase = .active ∧ (decoding [0, 0, 0, 0]).d.ZerosAt 32 ∧
    8 * (decoding [0, 0, 0, 0]).d.ilen.toNat ≤ (decoding [0, 0, 0, 0]).d.bpos.toNat + 32 ∧
    (decoding [0, 0, 0, 0]).d.dopen = false :=
  ⟨by decide, ⟨by decide, by decide, by decide⟩, by decide, by decide, by decide, ⟨by decide, by decide, by decide⟩,
    by decide, by decide⟩

theorem witness_DNextAtALongZeroRun :
    (decoding [0, 0, 0, 0, 0x80]).d.dphase = .active ∧ (decoding [0, 0, 0, 0, 0x80]).d.ZerosAt 32 ∧
    (decoding [0, 0, 0, 0, 0x80]).d.bpos.toNat + 32 < 8 * (decoding [0, 0, 0, 0, 0x80]).d.ilen.toNat :=
  ⟨by decide, ⟨by decide, by decide, by decide⟩, by decide⟩

/-- Codewords of no zeros and of 31. -/
theorem witness_DNextTakesACodeword :
    (decoding [0x80]).d.dphase = .active ∧ (decoding [0x80]).d.ZerosAt 0 ∧
    (decoding [0x80]).d.bpos.toNat + 0 < 8 * (decoding [0x80]).d.ilen.toNat ∧
    (decoding [0, 0, 0, 1, 0, 0, 0, 2]).d.dphase = .active ∧ (decoding [0, 0, 0, 1, 0, 0, 0, 2]).d.ZerosAt 31 ∧
    (decoding [0, 0, 0, 1, 0, 0, 0, 2]).d.bpos.toNat + 31 < 8 * (decoding [0, 0, 0, 1, 0, 0, 0, 2]).d.ilen.toNat :=
  ⟨by decide, ⟨by decide, by decide, by decide⟩, by decide, by decide, ⟨by decide, by decide, by decide⟩, by decide⟩

/-- V6: the codewords 1 and 6 from the start, and 1 and 2 with a run open. -/
theorem witness_CodewordLabelsItsPositions :
    State.reset.d.sym = false ∧ State.reset.d.pos.toNat + 6 < 2 ^ 64 ∧
    (State.reset.d.decodeValue 1).1.sym = true ∧ (State.reset.d.decodeValue 6).1.dstart = 5 ∧
    (State.reset.d.decodeValue 1).1.pos.toNat + 2 < 2 ^ 64 ∧
    ((State.reset.d.decodeValue 1).1.decodeValue 2).2 = some (0, 1) ∧
    ((State.reset.d.decodeValue 1).1.decodeValue 1).2 = some (0, 0) := by decide

theorem witness_inv_loaded : (loaded [0xFF, 0]).Inv :=
  ⟨by decide, ⟨by decide, by decide, by decide, by decide, by decide⟩, by decide, by decide, by decide, by decide⟩

/-- V6: the byte FF gives four ranges. -/
theorem witness_RangesAscendWithGaps :
    (loaded [0xFF, 0]).Inv ∧ (∀ i ∈ List.replicate 5 Instr.dNext, ∀ n, i ≠ .dInit n) ∧
    (loaded [0xFF, 0]).ranges (List.replicate 5 .dNext) = [(0, 0), (2, 2), (4, 4), (6, 6)] :=
  ⟨witness_inv_loaded, by simp, by decide⟩

/-- V6: 2, 1 leave a run open, so that all three clauses speak. -/
theorem witness_CursorsStayInBounds :
    (loaded [0xFF, 0]).Inv ∧
    ((loaded [0xFF, 0]).afterAll [.dInit 2, .dLoad 0 0x44, .dLoad 1 0x80, .dNext]).d.dopen = true :=
  ⟨witness_inv_loaded, by decide⟩

/-- Every phase of the automaton, and phase RUN with nothing left and with both values of `C.async`. -/
theorem witness_AutomatonTakesTheSpecsSteps :
    State.reset.c.aphase = .unseeded ∧ (pushed 16777216 [(1, 1), (5, 6)]).c.aphase = .pullTop ∧
    (pushed 16777216 [(0, 4), (6, 6), (8, 20)]).c.aphase = .pullAfterEmit ∧ (finished 0 []).c.aphase = .done ∧
    (finished 16777216 [(0, 4294967295)]).c.aphase = .run ∧ (finished 16777216 [(0, 4294967295)]).c.async = true ∧
    (finished 16777216 [(0, 4294967295)]).c.rem.toNat ≠ 0 ∧
    (finished 1 [(1, 1), (5, 6)]).c.aphase = .run ∧ (finished 1 [(1, 1), (5, 6)]).c.async = false ∧
    (finished 1 [(1, 1), (5, 6)]).c.rem.toNat ≠ 0 ∧
    ({ State.reset.c with aphase := .run } : CompContext).rem.toNat = 0 := by decide

theorem witness_AutomatonRunsUntilItRests :
    (runAutomaton .one State.reset.c).2 = none ∧
    (runAutomaton .one (mergerEnd (pushed 0 [(1, 1)]).c)).2 = some (bufferCapacityExceeded 1 0) := by decide

/-- R182 (95_test_vectors.md V4): the sizes of 9 and of 33 bits, and of none. -/
theorem test_required_sizes :
    requiredBytes .one 9 = 2 ∧ requiredBytes .four 9 = 4 ∧ requiredBytes .one 33 = 5 ∧ requiredBytes .four 33 = 8 ∧
    requiredBytes .four 0 = 0 := by decide

/-- The smallest and the largest integer, at caps of exactly their required sizes, for both granules. -/
theorem witness_CodewordIsAppended :
    (pushed 1 []).c.obuf.Wf ∧ 1 = (pushed 1 []).c.bitlen.toNat + (2 * Nat.log2 1 + 1) ∧
    (1 + 7) / 8 ≤ (pushed 1 []).c.maxsize.toNat ∧
    (pushed 8 []).c.obuf.Wf ∧ 63 = (pushed 8 []).c.bitlen.toNat + (2 * Nat.log2 4294967295 + 1) ∧
    4 * ((63 + 31) / 32) ≤ (pushed 8 []).c.maxsize.toNat := by
  decide

/-- Under granule 4 the codeword of 1 needs 4 bytes, more than a cap of 3; 2^32 is out of range whatever it needs. -/
theorem witness_CodewordErrorsComeInOrder :
    1 = (pushed 3 []).c.bitlen.toNat + (2 * Nat.log2 1 + 1) ∧ (pushed 3 []).c.maxsize.toNat < 4 * ((1 + 31) / 32) ∧
    gammaEncode .four 1 (pushed 3 []).c = .error (bufferCapacityExceeded 4 3) ∧
    gammaEncode .four 4294967296 (pushed 3 []).c = .error (encodingRangeExceeded 4294967296) := by decide

theorem witness_GrowthIsBounded : 5 ≤ 6 ∧ grow 4 5 6 = 6 ∧ grow 4 5 16777216 = 8 := by decide

theorem witness_UnpackerReadsWhatThePackerWrote :
    (finished 16777216 [(1, 1), (5, 6)]).c.bitlen.toNat ≤ 8 * (finished 16777216 [(1, 1), (5, 6)]).c.clen.toNat ∧
    (loaded [0x44, 0x80]).d.ilen.toNat = (finished 16777216 [(1, 1), (5, 6)]).c.clen.toNat ∧
    (∀ j < (finished 16777216 [(1, 1), (5, 6)]).c.clen.toNat,
      (loaded [0x44, 0x80]).d.ibuf.read j = (finished 16777216 [(1, 1), (5, 6)]).c.outByte j) := by decide

/-- The codewords of 1 and of the largest integer, and padding of no bit and of seven. -/
theorem witness_DecoderReadsBackCodewords :
    (loaded [0x80]).d.bits.drop (loaded [0x80]).d.bpos.toNat = codeword 1 ++ List.replicate 7 false ∧
    (loaded [0, 0, 0, 1, 0xFF, 0xFF, 0xFF, 0xFE]).d.bits.drop 0 = codeword 4294967295 ++ [false] ∧
    (loaded []).d.bits.drop (loaded []).d.bpos.toNat = List.replicate 0 false ∧
    ({ (loaded [0x80]).d with bpos := 1 } : DecompContext).bits.drop 1 = List.replicate 7 false := by decide

theorem witness_MemoryFormIsCanonical :
    Memory.Wf [(0, 7), (3, 1)] ∧ Memory.write [(0, 7), (3, 1)] 3 0 = [(0, 7)] ∧
    Memory.write [(0, 7), (3, 1)] 2 9 = [(0, 7), (2, 9), (3, 1)] := by decide

theorem witness_StepKeepsTheInvariant :
    ((pushed 1 [(1, 1)]).issue (encode .cFinish)).Inv ∧
    ∃ t, step ((pushed 1 [(1, 1)]).issue (encode .cFinish)) = .next t := ⟨witness_inv_pushed, _, rfl⟩

theorem witness_OldContentsNeverShow :
    (pushed 5 []).Inv ∧ (pushed 5 []).c.bitlen = 0 ∧ (pushed 5 []).d.written = [] ∧ Memory.Wf [(0, 0xFF), (9, 1)] :=
  ⟨witness_inv_opened, by decide⟩

/-- P1 and P2 joined: the set of 1, 5 and 6. -/
theorem witness_DecompressionInvertsCompression :
    State.reset.params.Wf ∧ (16777216 : Word32).toNat ≤ State.reset.params.obufBytes ∧
    (State.reset.afterAll (compression 16777216 [(1, 1), (5, 6)])).c.cphase = .done ∧
    (State.reset.afterAll (compression 16777216 [(1, 1), (5, 6)])).c.clen.toNat ≤ State.reset.params.ibufBytes := by decide

theorem test_line_bounds :
    assemble (.dLoad 0 256) = none ∧ assemble (.dLoad 0 255) = some [.dLoad 0 255] ∧
    assemble (.cPush 0 4294967296) = none ∧ assemble (.cPush 0 4294967295) = some [.cPush 0 4294967295] := by decide

end Sys2Proof.Tests
end

section
/-! SUPPORT. What a command does to the state, said once: every command answers, and it changes at most one context, in one
of the ways listed here (00_scope.md R8, R9, 30_encoding.md R83). -/

namespace Sys2Proof.Machine

/-! ### What a command does to a context -/

/-- Everything a command can do to the compression context (44_compress_commands.md R200 to R207). -/
inductive CompEffect (p : Config.Params) (c : CompContext) : CompContext → Prop where
  | init {m : Word32} (hm : m.toNat ≤ p.obufBytes) : CompEffect p c (c.init m)
  | invalid {start stop : Word32} (hp : c.cphase = .opened) (hi : c.Invalid start stop) :
      CompEffect p c (c.latch (invalidRange start stop))
  | pushed {start stop : Word32} {c1 c2 : CompContext} (hp : c.cphase = .opened) (ha : Accepted c start stop c1)
      (hr : runAutomaton p.granule c1 = (c2, none)) : CompEffect p c c2
  | pushRaised {start stop : Word32} {c1 c2 : CompContext} {e : Raised} (hp : c.cphase = .opened)
      (ha : Accepted c start stop c1) (hr : runAutomaton p.granule c1 = (c2, some e)) : CompEffect p c (c2.latch e)
  | finished {c2 : CompContext} (hp : c.cphase = .opened)
      (hr : runAutomaton p.granule (mergerEnd c) = (c2, none)) : CompEffect p c c2.complete
  | finishRaised {c2 : CompContext} {e : Raised} (hp : c.cphase = .opened)
      (hr : runAutomaton p.granule (mergerEnd c) = (c2, some e)) : CompEffect p c (c2.latch e)

/-- Where decoding goes on from: the context itself in ACTIVE, and in READY, once every byte of the stream is written, the
context made ACTIVE (45_decompress_commands.md R223, R224). -/
inductive DecodeStart (d : DecompContext) : DecompContext → Prop where
  | resumed (hp : d.dphase = .active) : DecodeStart d d
  | begun (hp : d.dphase = .ready) (hw : ∀ a < d.ilen.toNat, a ∈ d.written) :
      DecodeStart d { d with dphase := .active }

/-- Everything a command can do to the decompression context (45_decompress_commands.md R220 to R225). -/
inductive DecompEffect (p : Config.Params) (d : DecompContext) : DecompContext → Prop where
  | init {n : Word32} (hn : n.toNat ≤ p.ibufBytes) : DecompEffect p d (d.init n)
  | loaded {a : Nat} {b : Byte} (hp : d.dphase = .ready) (ha : a < d.ilen.toNat) : DecompEffect p d (d.load a b)
  | unwritten {a : Nat} (hp : d.dphase = .ready) (ha : a < d.ilen.toNat) (hw : a ∉ d.written) :
      DecompEffect p d (d.latch (unwrittenInput a))
  | decoded {d0 d' : DecompContext} {e : LoopEnd} (h0 : DecodeStart d d0) (hd : decodeNext d0 = (d', e))
      (he : ∀ x, e ≠ .raised x) : DecompEffect p d d'
  | decodeRaised {d0 d' : DecompContext} {e : Raised} (h0 : DecodeStart d d0)
      (hd : decodeNext d0 = (d', .raised e)) : DecompEffect p d (d'.latch e)

/-- Everything a command can do to the state: it answers, and changes at most one context (R9, R83). -/
inductive Effect (s : State) : State → Prop where
  | answered (r : Response) : Effect s { s with resp := some r }
  | comp {c : CompContext} (r : Response) (h : CompEffect s.params s.c c) : Effect s { s with c := c, resp := some r }
  | decomp {d : DecompContext} (r : Response) (h : DecompEffect s.params s.d d) :
      Effect s { s with d := d, resp := some r }

/-- The parameters and the host's later inputs stay, and a response stands (R83, R282). -/
theorem Effect.frame {s t : State} (h : Effect s t) :
    t.params = s.params ∧ t.pending = s.pending ∧ ∃ r, t.resp = some r := by
  cases h <;> exact ⟨rfl, rfl, _, rfl⟩

/-! ### The commands -/

theorem byteCount_eq (a : Word32) : byteCount a = a.toNat := by
  rw [byteCount, BitVec.toNat_setWidth_of_le (by omega)]

/-- Past its gate a compression command runs in the phase it wants; elsewhere it only answers (R201). -/
theorem gateC_effect {s run : State} {want : CPhase} (op : Byte) (h : s.c.cphase = want → Effect s run) :
    Effect s (s.gateC want op run) := by
  unfold State.gateC
  split
  · exact .answered _
  · split
    · exact h (by assumption)
    · exact .answered _

theorem pushElement_effect {s : State} (hp : s.c.cphase = .opened) (start stop : Word32) :
    Effect s (s.pushElement start stop) := by
  unfold State.pushElement
  split
  next e he =>
    obtain ⟨hi, rfl⟩ := mergerAccept_error.1 he
    exact .comp _ (.invalid hp hi)
  next c1 ha =>
    split
    next c2 e hr => exact .comp _ (.pushRaised hp (mergerAccept_ok.1 ha) hr)
    next c2 hr => exact .comp _ (.pushed hp (mergerAccept_ok.1 ha) hr)

theorem finish_effect {s : State} (hp : s.c.cphase = .opened) : Effect s s.finish := by
  unfold State.finish
  split
  next c2 e hr => exact .comp _ (.finishRaised hp hr)
  next c2 hr => exact .comp _ (.finished hp hr)

theorem readOutput_effect (s : State) (addr : Word32) : Effect s (s.readOutput addr) := by
  unfold State.readOutput
  split <;> exact .answered _

theorem loadByte_effect {s : State} (hp : s.d.dphase = .ready) (addr : Word32) (byte : Byte) :
    Effect s (s.loadByte addr byte) := by
  unfold State.loadByte
  split
  · exact .answered _
  · exact .decomp _ (.loaded hp (by omega))

theorem decodeRange_effect {s : State} {d0 : DecompContext} (h0 : DecodeStart s.d d0) :
    Effect s (s.decodeRange d0) := by
  unfold State.decodeRange
  split
  next d' r hd => exact .decomp _ (.decoded h0 hd (by simp))
  next d' hd => exact .decomp _ (.decoded h0 hd (by simp))
  next d' e hd => exact .decomp _ (.decodeRaised h0 hd)

theorem startDecode_effect {s : State} (hp : s.d.dphase = .ready) : Effect s s.startDecode := by
  unfold State.startDecode
  split
  next a ha =>
    obtain ⟨-, hlt, hw, -⟩ := firstUnwritten_eq_some.1 ha
    exact .decomp _ (.unwritten hp (by omega) hw)
  next hn =>
    have hw := firstUnwritten_eq_none.1 hn
    exact decodeRange_effect (.begun hp fun a ha => hw a (by omega) (by omega))

/-- Every command in every state answers a next state, and what it does is in the list (R8, R9, R83). -/
theorem exec_effect (i : Instr) (s : State) : ∃ t, exec i s = .next t ∧ Effect s t := by
  cases i with
  | cInit maxsize =>
    refine ⟨_, rfl, ?_⟩
    split
    · exact .answered _
    · exact .comp _ (.init (by rw [← byteCount_eq]; omega))
  | cPush start stop => exact ⟨_, rfl, gateC_effect _ fun hp => pushElement_effect hp start stop⟩
  | cFinish => exact ⟨_, rfl, gateC_effect _ finish_effect⟩
  | cRdbyte addr => exact ⟨_, rfl, gateC_effect _ fun _ => readOutput_effect s addr⟩
  | nop => exact ⟨_, rfl, .answered _⟩
  | dInit len =>
    refine ⟨_, rfl, ?_⟩
    split
    · exact .answered _
    · exact .decomp _ (.init (by rw [← byteCount_eq]; omega))
  | dLoad addr byte =>
    refine ⟨_, rfl, ?_⟩
    split
    next hp => exact loadByte_effect hp addr byte
    all_goals exact .answered _
  | dNext =>
    refine ⟨_, rfl, ?_⟩
    split
    next => exact .answered _
    next hp => exact startDecode_effect hp
    next hp => exact decodeRange_effect (.resumed hp)
    all_goals exact .answered _
  | rdreg index =>
    refine ⟨_, rfl, ?_⟩
    split <;> exact .answered _

/-! ### Steps -/

theorem step_decoded {s : State} {w : CmdWord} {rest : List HostInput} {i : Instr}
    (hp : s.pending = .command w :: rest) (hd : decode w = .ok i) : step s = exec i { s with pending := rest } := by
  simp only [step, hp, hd]

theorem step_refused {s : State} {w : CmdWord} {rest : List HostInput} {e : DecodeError}
    (hp : s.pending = .command w :: rest) (hd : decode w = .error e) :
    step s = .next ({ s with pending := rest }.refuse e.op) := by
  simp only [step, hp, hd]

theorem step_reset {s : State} {rest : List HostInput} (hp : s.pending = .reset :: rest) :
    step s = .next { s with pending := rest }.hardwareReset := by
  simp only [step, hp]

theorem step_idle {s : State} (hp : s.pending = []) : step s = .next s := by
  simp only [step, hp]

/-- A command word, decoded or refused, is answered by the next state (R83, R87, R88). -/
theorem step_command {s : State} {w : CmdWord} {rest : List HostInput} (hp : s.pending = .command w :: rest) :
    ∃ t, step s = .next t ∧ Effect { s with pending := rest } t := by
  cases hd : decode w with
  | ok i => rw [step_decoded hp hd]; exact exec_effect i _
  | error e => exact ⟨_, step_refused hp hd, .answered _⟩

theorem instr_wf (i : Instr) : i.wf = true := by cases i <;> rfl

/-! ### The statements about steps -/

/-- Settles O7: every effect of a command leaves a response and keeps the parameters and the later inputs. -/
theorem everyCommandWordIsAnswered : Obligations.EveryCommandWordIsAnswered := by
  intro s w rest hp
  obtain ⟨t, ht, he⟩ := step_command hp
  obtain ⟨hparams, hpending, r, hr⟩ := he.frame
  exact ⟨t, r, ht, hr, hpending, hparams⟩

/-- Settles O6, by the equation of a step for a word that decodes. -/
theorem stepRunsTheDecodedCommand : Obligations.StepRunsTheDecodedCommand :=
  fun _ _ _ i hp hd => ⟨instr_wf i, step_decoded hp hd⟩

/-- Settles O10: both sides are the same literals, register by register. -/
theorem stateAfterResetIsTheSpecs : Obligations.StateAfterResetIsTheSpecs := ⟨rfl, rfl, rfl, rfl, rfl⟩

end Sys2Proof.Machine
end

section
/-! SUPPORT. That the two contexts are independent: replacing the context a command does not belong to commutes with the
command (00_scope.md R9, 60_exceptions.md R262). -/

namespace Sys2Proof.Machine

/-! ### The compression commands and the decompression context -/

theorem gateC_replace_d (s run : State) (want : CPhase) (op : Byte) (d : DecompContext) :
    ({ s with d := d } : State).gateC want op { run with d := d } = { s.gateC want op run with d := d } := by
  simp only [State.gateC, apply_ite (fun t : State => { t with d := d })]
  rfl

theorem pushElement_replace_d (s : State) (start stop : Word32) (d : DecompContext) :
    ({ s with d := d } : State).pushElement start stop = { s.pushElement start stop with d := d } := by
  simp only [State.pushElement]
  cases mergerAccept start stop s.c with
  | error e => rfl
  | ok c1 =>
    simp only
    obtain ⟨c2, _ | e⟩ := runAutomaton s.params.granule c1
    · rfl
    · rfl

theorem finish_replace_d (s : State) (d : DecompContext) :
    ({ s with d := d } : State).finish = { s.finish with d := d } := by
  simp only [State.finish]
  obtain ⟨c2, _ | e⟩ := runAutomaton s.params.granule (mergerEnd s.c)
  · rfl
  · rfl

theorem readOutput_replace_d (s : State) (addr : Word32) (d : DecompContext) :
    ({ s with d := d } : State).readOutput addr = { s.readOutput addr with d := d } := by
  simp only [State.readOutput, apply_ite (fun t : State => { t with d := d })]
  rfl

/-- A command that commutes with replacing the decompression context neither writes nor reads it. -/
theorem independent_of_d {i : Instr} {f : State → State} (hf : ∀ s, exec i s = .next (f s))
    (hd : ∀ s d, f { s with d := d } = { f s with d := d }) (s : State) (d : DecompContext) :
    ∃ t, exec i s = .next t ∧ t.d = s.d ∧ exec i { s with d := d } = .next { t with d := d } := by
  refine ⟨f s, hf s, ?_, by rw [hf, hd]⟩
  exact (congrArg State.d (hd s s.d) :)

/-- C.INIT, C.PUSH, C.FINISH and C.RDBYTE neither read nor write the decompression context. -/
theorem compression_independent {i : Instr} (hi : i.op ∈ ([0x01, 0x02, 0x03, 0x04] : List Byte)) (s : State)
    (d : DecompContext) :
    ∃ t, exec i s = .next t ∧ t.d = s.d ∧ exec i { s with d := d } = .next { t with d := d } := by
  cases i with
  | cInit maxsize =>
    refine independent_of_d (fun _ => rfl) (fun s d => ?_) s d
    split <;> rfl
  | cPush start stop =>
    refine independent_of_d (fun _ => rfl) (fun s d => ?_) s d
    rw [pushElement_replace_d, gateC_replace_d]
  | cFinish =>
    refine independent_of_d (fun _ => rfl) (fun s d => ?_) s d
    rw [finish_replace_d, gateC_replace_d]
  | cRdbyte addr =>
    refine independent_of_d (fun _ => rfl) (fun s d => ?_) s d
    rw [readOutput_replace_d, gateC_replace_d]
  | _ => exact absurd hi (by simp [Instr.op])

/-! ### The decompression commands and the compression context -/

theorem loadByte_replace_c (s : State) (addr : Word32) (byte : Byte) (c : CompContext) :
    ({ s with c := c } : State).loadByte addr byte = { s.loadByte addr byte with c := c } := by
  simp only [State.loadByte, apply_ite (fun t : State => { t with c := c })]
  rfl

theorem decodeRange_replace_c (s : State) (d0 : DecompContext) (c : CompContext) :
    ({ s with c := c } : State).decodeRange d0 = { s.decodeRange d0 with c := c } := by
  simp only [State.decodeRange]
  obtain ⟨d', r | _ | e⟩ := decodeNext d0
  · rfl
  · rfl
  · rfl

theorem startDecode_replace_c (s : State) (c : CompContext) :
    ({ s with c := c } : State).startDecode = { s.startDecode with c := c } := by
  simp only [State.startDecode]
  cases firstUnwritten s.d.written s.d.ilen.toNat 0 with
  | none => exact decodeRange_replace_c s _ c
  | some a => rfl

/-- A command that commutes with replacing the compression context neither writes nor reads it. -/
theorem independent_of_c {i : Instr} {f : State → State} (hf : ∀ s, exec i s = .next (f s))
    (hc : ∀ s c, f { s with c := c } = { f s with c := c }) (s : State) (c : CompContext) :
    ∃ t, exec i s = .next t ∧ t.c = s.c ∧ exec i { s with c := c } = .next { t with c := c } := by
  refine ⟨f s, hf s, ?_, by rw [hf, hc]⟩
  exact (congrArg State.c (hc s s.c) :)

/-- D.INIT, D.LOAD and D.NEXT neither read nor write the compression context. -/
theorem decompression_independent {i : Instr} (hi : i.op ∈ ([0x11, 0x12, 0x13] : List Byte)) (s : State)
    (c : CompContext) :
    ∃ t, exec i s = .next t ∧ t.c = s.c ∧ exec i { s with c := c } = .next { t with c := c } := by
  cases i with
  | dInit len =>
    refine independent_of_c (fun _ => rfl) (fun s c => ?_) s c
    split <;> rfl
  | dLoad addr byte =>
    refine independent_of_c (fun _ => rfl) (fun s c => ?_) s c
    cases s.d.dphase with
    | ready => exact loadByte_replace_c s addr byte c
    | _ => rfl
  | dNext =>
    refine independent_of_c (fun _ => rfl) (fun s c => ?_) s c
    cases s.d.dphase with
    | ready => exact startDecode_replace_c s c
    | active => exact decodeRange_replace_c s s.d c
    | _ => rfl
  | _ => exact absurd hi (by simp [Instr.op])

/-! ### RDREG, and the statement -/

/-- RDREG only answers (R240). -/
theorem rdreg_answers (index : Byte) (s : State) :
    ∃ r, exec (.rdreg index) s = .next { s with resp := some r } := by
  show ∃ r, execRdreg index s = _
  unfold execRdreg
  cases s.view index with
  | none => exact ⟨_, rfl⟩
  | some v => exact ⟨_, rfl⟩

/-- Settles O29: the case of each context by commuting, RDREG because it only answers. -/
theorem contextsAreIndependent : Obligations.ContextsAreIndependent := by
  refine fun s i c d =>
    ⟨fun hi => compression_independent hi s d, fun hi => decompression_independent hi s c, fun hi => ?_⟩
  cases i with
  | rdreg index =>
    obtain ⟨r, hr⟩ := rdreg_answers index s
    exact ⟨_, hr, rfl, rfl⟩
  | _ => exact absurd hi (by simp [Instr.op])

end Sys2Proof.Machine
end

section
/-! The required size (43_bitstream.md R182). -/

namespace Sys2Proof.Machine

theorem requiredBytes_four (b : Nat) : requiredBytes .four b = 4 * ((b + 31) / 32) := by
  show roundUp (ceilDiv b 8) 4 = _
  rw [roundUp_four, ceilDiv_eight]
  omega

/-- The required size is a multiple of the granule. -/
theorem granule_dvd_requiredBytes (g : Config.Granule) (b : Nat) : g.bytes ∣ requiredBytes g b :=
  Nat.dvd_mul_left _ _

/-- No smaller multiple of the granule holds the bits. -/
theorem requiredBytes_le {g : Config.Granule} {b n : Nat} (hg : g.bytes ∣ n) (hn : b ≤ 8 * n) :
    requiredBytes g b ≤ n := by
  cases g with
  | one => rw [requiredBytes_one, ceilDiv_eight]; omega
  | four =>
    obtain ⟨k, rfl⟩ : 4 ∣ n := hg
    rw [requiredBytes_four]
    omega

/-- Settles O58: each granule's size as a quotient, and its leastness from the quotient. -/
theorem requiredSizeRoundsUpToTheGranule : Obligations.RequiredSizeRoundsUpToTheGranule := by
  intro b
  have hone : requiredBytes .one b = (b + 7) / 8 := by rw [requiredBytes_one, ceilDiv_eight]
  have hfour := requiredBytes_four b
  exact ⟨hone, hfour,
    fun g => ⟨granule_dvd_requiredBytes g b, le_requiredBytes g b, fun n hg hn => requiredBytes_le hg hn⟩,
    by omega⟩

end Sys2Proof.Machine
end

section
/-! SUPPORT. That every command keeps the invariant of the compression context. -/

namespace Sys2Proof.Machine

/-! ### The merger's registers and the queue -/

/-- The open range is in order and beyond the last one closed, in every phase (40_range_merger.md R113, R116). -/
structure CompContext.RangeInv (c : CompContext) : Prop where
  lee : -1 ≤ c.lee.toInt
  inOrder : c.nhave = true → c.ps ≤ c.pe ∧ (c.lee.toInt = -1 ∨ c.lee.toInt + 2 ≤ c.ps.toNat)

/-- What holds of the compression context from the merger on, while the automaton runs, and where an error leaves it
(R256). -/
structure CompContext.PathInv (p : Config.Params) (c : CompContext) : Prop where
  range : c.RangeInv
  run : c.RunInv
  buffer : c.BufferInv p

theorem AutoMove.pathInv {p : Config.Params} {g : Config.Granule} {c c' : CompContext} (hi : c.PathInv p)
    (h : AutoMove g c c') : c'.PathInv p := by
  refine ⟨?_, h.runInv hi.run, h.bufferInv hi.buffer⟩
  rw [h.frame]
  exact ⟨hi.range.lee, hi.range.inOrder⟩

theorem runAutomaton_pathInv {p : Config.Params} {g : Config.Granule} {c c' : CompContext} {o : Option Raised}
    (hi : c.PathInv p) (h : runAutomaton g c = (c', o)) : c'.PathInv p := by
  have hk := runAutomaton_keeps (g := g) (fun _ _ hx hm => AutoMove.pathInv (p := p) hx hm) hi
  rwa [h] at hk

/-- Nothing is queued, so only the sizes of the automaton's values are left to say. -/
theorem runInv_of_empty {c : CompContext} (ha : c.AutoInv) (hq : c.flatq = []) : c.RunInv :=
  ⟨ha, by simp [hq], by simp [hq]⟩

/-- What the invariant says of OPEN alone. -/
theorem CompContext.Inv.opened {p : Config.Params} {c : CompContext} (h : c.Inv p) (hp : c.cphase = .opened) :
    c.Waiting ∧ c.clen = 0 ∧ (c.aphase = .unseeded ↔ c.lee.toInt = -1) ∧ (c.nhave = false → c.lee.toInt = -1) := by
  obtain ⟨-, ⟨-, -, hopen⟩, -⟩ := h
  exact hopen hp

/-- In OPEN nothing is queued, and the context may take an element or the end of input. -/
theorem CompContext.Inv.pathInv {p : Config.Params} {c : CompContext} (h : c.Inv p) (hp : c.cphase = .opened) :
    c.PathInv p := by
  obtain ⟨⟨hq, -, -⟩, -⟩ := h.opened hp
  obtain ⟨-, ⟨hlee, hps, -⟩, hauto, hbuf, -⟩ := h
  exact ⟨⟨hlee, hps⟩, runInv_of_empty hauto hq, hbuf⟩

theorem ne_zero_of_toNat {v : Word33} (h : v.toNat ≠ 0) : v ≠ 0 := by
  rintro rfl
  exact h rfl

/-- The two flat values that closing a range pushes have the sizes of R11, and only the first gap of a compression can be 0
(R116 to R118). -/
theorem closeRange_runInv {p : Config.Params} {c : CompContext} (h : c.Inv p) (hp : c.cphase = .opened)
    (hn : c.nhave = true) : c.closeRange.RunInv := by
  obtain ⟨⟨hq, -, -⟩, -, hseed, -⟩ := h.opened hp
  obtain ⟨-, ⟨hlee, hps, -⟩, ⟨hrem, -, -⟩, -, -⟩ := h
  obtain ⟨hle, hgt⟩ := hps hn
  rw [BitVec.le_def] at hle
  have hpe := c.pe.isLt
  have hgap := gap_toNat (c := c) hlee (by omega)
  have hrun := runLength_toNat (c := c) hle
  have hflat : c.closeRange.flatq = [c.gap, c.runLength] := by simp [hq]
  have hrun0 : c.runLength ≠ 0 := ne_zero_of_toNat (by omega)
  refine ⟨⟨hrem, by rw [hflat]; exact Nat.le_refl 2, ?_⟩, ?_, ?_⟩
  · rw [hflat]
    simp only [List.map_cons, List.map_nil, List.forall_mem_cons]
    exact ⟨by omega, by omega, by simp⟩
  · rw [hflat]
    simpa using fun _ => hrun0
  · intro ha
    have hne : c.lee.toInt ≠ -1 := fun h1 => ha (hseed.2 h1)
    have hgap0 : c.gap ≠ 0 := ne_zero_of_toNat (by omega)
    rw [hflat]
    simpa using ⟨hgap0, hrun0⟩

/-- After a range is closed, `C.lee` is not its reset value. -/
theorem closeRange_lee_toInt (c : CompContext) : c.closeRange.lee.toInt = c.pe.toNat := lee_of_pe c.pe

/-! ### What range_merger leaves -/

theorem Accepted.pathInv {p : Config.Params} {c c1 : CompContext} {start stop : Word32} (h : c.Inv p)
    (hp : c.cphase = .opened) (ha : Accepted c start stop c1) : c1.PathInv p := by
  have hpath := h.pathInv hp
  obtain ⟨hlee, hps⟩ := hpath.range
  obtain ⟨⟨hq, -, -⟩, -, -, hfirst⟩ := h.opened hp
  cases ha with
  | first hv hn => exact ⟨⟨hlee, fun _ => ⟨hv, .inl (hfirst hn)⟩⟩, hpath.run, hpath.buffer⟩
  | merge hv hn hs =>
    obtain ⟨hle, hgt⟩ := hps hn
    rw [BitVec.le_def] at hle
    refine ⟨⟨hlee, fun _ => ⟨?_, hgt⟩⟩, hpath.run, hpath.buffer⟩
    show c.ps.toNat ≤ stop.toNat
    omega
  | close hv hn hs =>
    have hl := closeRange_lee_toInt c
    refine ⟨⟨?_, fun _ => ⟨hv, .inr ?_⟩⟩, closeRange_runInv h hp hn, hpath.buffer⟩
    · show -1 ≤ c.closeRange.lee.toInt
      omega
    · show c.closeRange.lee.toInt + 2 ≤ start.toNat
      omega

theorem mergerEnd_pathInv {p : Config.Params} {c : CompContext} (h : c.Inv p) (hp : c.cphase = .opened) :
    (mergerEnd c).PathInv p := by
  have hpath := h.pathInv hp
  unfold mergerEnd
  split
  next hn =>
    have hl := closeRange_lee_toInt c
    refine ⟨⟨?_, by simp⟩, closeRange_runInv h hp hn, hpath.buffer⟩
    show -1 ≤ c.closeRange.lee.toInt
    omega
  next hn => exact ⟨⟨hpath.range.lee, hpath.range.inOrder⟩, hpath.run, hpath.buffer⟩

/-- The merger writes neither the phase, nor the latch, nor the automaton's phase, nor `C.clen` (R111 to R117). -/
theorem Accepted.frame {c c1 : CompContext} {start stop : Word32} (ha : Accepted c start stop c1) :
    c1 = { c with ps := c1.ps, pe := c1.pe, nhave := true, lee := c1.lee, flatq := c1.flatq } := by
  cases ha with
  | first hv hn => rfl
  | merge hv hn hs => rw [← hn]
  | close hv hn hs => rw [← hn]; rfl

/-- The end of input writes the merger's registers and the queue (R117). -/
theorem mergerEnd_frame (c : CompContext) :
    mergerEnd c = { c with eoi := true, nhave := false, lee := (mergerEnd c).lee, flatq := (mergerEnd c).flatq } := by
  unfold mergerEnd
  split
  · rfl
  · simp_all

/-- Where the automaton stops, only its own registers and the packer's are written (R139, R140). -/
theorem run_frame {g : Config.Granule} {c c' : CompContext} {o : Option Raised} (h : runAutomaton g c = (c', o)) :
    c' = { c with
      flatq := c'.flatq, rem := c'.rem, async := c'.async, aphase := c'.aphase
      obuf := c'.obuf, bitlen := c'.bitlen, cap := c'.cap } := by
  have hf := runAutomaton_frame g c
  rwa [h] at hf

/-! ### The invariant after each effect -/

/-- An error of the compression commands keeps the invariant wherever it is raised (R255). -/
theorem CompContext.PathInv.latch_inv {p : Config.Params} {c : CompContext} {e : Raised} (hi : c.PathInv p)
    (he : e.status.code = 0x8 ∨ e.status.code = 0x9 ∨ e.status.code = 0xA) : (c.latch e).Inv p := by
  have hne : e.status.code ≠ 0 := by rcases he with h | h | h <;> rw [h] <;> decide
  refine ⟨⟨?_, fun h => absurd h hne, .inr he⟩, ⟨hi.range.lee, hi.range.inOrder, by simp⟩, hi.run.1, hi.buffer, ?_⟩
  · simpa using hne
  · intro h; cases h

/-- What running the automaton raises is one of the encoder's two errors (R161, R183). -/
theorem runAutomaton_status {g : Config.Granule} {c c' : CompContext} {e : Raised}
    (h : runAutomaton g c = (c', some e)) : e.status.code = 0x9 ∨ e.status.code = 0xA := by
  obtain ⟨-, -, he⟩ := autoStep_raised.1 (runAutomaton_raised h)
  rcases gammaEncode_error.1 he with ⟨-, rfl⟩ | ⟨-, -, rfl⟩
  · exact .inl rfl
  · exact .inr rfl

theorem CompContext.PathInv.run_latch_inv {p : Config.Params} {g : Config.Granule} {c c' : CompContext} {e : Raised}
    (hi : c.PathInv p) (h : runAutomaton g c = (c', some e)) : (c'.latch e).Inv p :=
  (runAutomaton_pathInv hi h).latch_inv (.inr (runAutomaton_status h))

theorem CompContext.init_lee_toInt (c : CompContext) (m : Word32) : (c.init m).lee.toInt = -1 := by
  rw [CompContext.init_lee]
  decide

theorem CompContext.init_inv {p : Config.Params} {c : CompContext} {m : Word32} (h : c.Inv p)
    (hm : m.toNat ≤ p.obufBytes) : (c.init m).Inv p := by
  obtain ⟨-, -, -, ⟨-, -, -, -, hwf, hmem⟩, -⟩ := h
  have hlee := c.init_lee_toInt m
  refine ⟨⟨by simp, by simp, .inl rfl⟩, ⟨hlee.ge, by simp, ?_⟩, ⟨by simp, by simp, by simp⟩, ?_, by simp⟩
  · exact fun _ => ⟨⟨rfl, rfl, .inl rfl⟩, rfl, iff_of_true rfl hlee, fun _ => hlee⟩
  · exact ⟨hm, by simp, by simp, by simp, hwf, hmem⟩

/-- In OPEN the latch is clear. -/
theorem CompContext.Inv.latch_clear {p : Config.Params} {c : CompContext} (h : c.Inv p) (hp : c.cphase = .opened) :
    c.cerr = 0 ∧ c.cinfo0 = 0 ∧ c.cinfo1 = 0 := by
  obtain ⟨⟨hphase, hinfo, -⟩, -⟩ := h
  have h0 : c.cerr = 0 := by
    by_contra hne
    rw [hphase.2 hne] at hp
    cases hp
  exact ⟨h0, hinfo h0⟩

/-- An automaton that waits is not DONE. -/
theorem CompContext.Waiting.not_done {c : CompContext} (h : c.Waiting) : c.aphase ≠ .done := by
  obtain ⟨-, -, hp | hp | hp⟩ := h <;> simp [hp]

/-- The automaton has left UNSEEDED exactly when a range has been closed (R118, R132). -/
theorem Accepted.seeded_iff {p : Config.Params} {g : Config.Granule} {c c1 c2 : CompContext} {start stop : Word32}
    (h : c.Inv p) (hp : c.cphase = .opened) (ha : Accepted c start stop c1) (hr : runAutomaton g c1 = (c2, none))
    (hw : c2.Waiting) : c2.aphase = .unseeded ↔ c1.lee.toInt = -1 := by
  obtain ⟨⟨hq, he, hpull⟩, -, hseed, -⟩ := h.opened hp
  have hidle : c1.aphase = c.aphase → c1.flatq = c.flatq → c1.eoi = c.eoi → c2 = c1 := by
    intro h1 h2 h3
    have hrest : autoStep g c1 = .rests :=
      autoStep_rests.2 (.inl ⟨by rw [h1]; exact hpull, by rw [h2]; exact hq, by rw [h3]; exact he⟩)
    have hsame := autoSteps_of_rests hrest (autoBound c1)
    rw [← runAutomaton, hr] at hsame
    exact congrArg Prod.fst hsame
  cases ha with
  | first hv hn => rw [hidle rfl rfl rfl]; exact hseed
  | merge hv hn hs => rw [hidle rfl rfl rfl]; exact hseed
  | close hv hn hs =>
    have hl : ({ c.closeRange with ps := start, pe := stop } : CompContext).lee.toInt = c.pe.toNat := lee_of_pe c.pe
    have hseeded := runAutomaton_seeded (g := g) (c := { c.closeRange with ps := start, pe := stop }) (by simp)
    rw [hr] at hseeded
    exact iff_of_false (hseeded hw.1) (by omega)

/-- An accepted C.PUSH stays in OPEN, waiting for the next element, with its range open (R113, R139, R203). -/
theorem pushed_inv {p : Config.Params} {g : Config.Granule} {c c1 c2 : CompContext} {start stop : Word32}
    (h : c.Inv p) (hp : c.cphase = .opened) (ha : Accepted c start stop c1)
    (hr : runAutomaton g c1 = (c2, none)) : c2.Inv p := by
  obtain ⟨hwaiting, hclen, -, -⟩ := h.opened hp
  have hpath := runAutomaton_pathInv (ha.pathInv h hp) hr
  have hf1 := ha.frame
  have hf2 := run_frame hr
  have hwait : c2.Waiting :=
    runAutomaton_waits (by rw [hf1]; exact hwaiting.2.1) (by rw [hf1]; exact hwaiting.not_done) hr
  have hseed : c2.aphase = .unseeded ↔ c2.lee.toInt = -1 := by
    have hlee : c2.lee = c1.lee := by rw [hf2]
    rw [hlee]
    exact ha.seeded_iff h hp hr hwait
  have hnhave : c2.nhave = true := by rw [hf2, hf1]
  have hphase : c2.cphase = .opened := by rw [hf2, hf1]; exact hp
  have hclen2 : c2.clen = 0 := by rw [hf2, hf1]; exact hclen
  have hlatch : c2.LatchInv := by
    obtain ⟨hlatch, -⟩ := h
    rw [hf2, hf1]
    exact hlatch
  exact ⟨hlatch, ⟨hpath.range.lee, hpath.range.inOrder, fun _ => ⟨hwait, hclen2, hseed, by simp [hnhave]⟩⟩,
    hpath.run.1, hpath.buffer, by simp [hphase]⟩

/-- After the end of input the automaton stops DONE, with nothing queued and no range open (R117, R139, R206). -/
theorem mergerEnd_run {g : Config.Granule} {c c2 : CompContext} (hw : c.Waiting)
    (hr : runAutomaton g (mergerEnd c) = (c2, none)) :
    c2.eoi = true ∧ c2.nhave = false ∧ c2.flatq = [] ∧ c2.aphase = .done := by
  have hf1 := mergerEnd_frame c
  have hf2 := run_frame hr
  have hdone : c2.aphase = .done := runAutomaton_done (by rw [hf1]) hr
  have hdrained := runAutomaton_drained (g := g) (c := mergerEnd c) (by rw [hf1]; exact hw.not_done)
  rw [hr] at hdrained
  exact ⟨by rw [hf2, hf1], by rw [hf2, hf1], hdrained hdone, hdone⟩

/-- The exact byte count fits its register (R185). -/
theorem complete_clen_toNat {p : Config.Params} {c : CompContext} (h : c.BufferInv p) :
    c.complete.clen.toNat = ceilDiv c.bitlen.toNat 8 := by
  obtain ⟨-, hbits, hcap, -⟩ := h
  have hm := c.maxsize.isLt
  refine word33_toNat ?_
  rw [ceilDiv_eight]
  omega

/-- Finalizing keeps the packer's bounds: the exact byte count holds the bits and is at most the capacity (R185). -/
theorem complete_bufferInv {p : Config.Params} {c : CompContext} (h : c.BufferInv p) : c.complete.BufferInv p := by
  have hsize := complete_clen_toNat h
  have hceil := ceilDiv_eight c.bitlen.toNat
  have hcaps : c.complete.cap = c.complete.clen := rfl
  obtain ⟨hmax, hbits, hcap, -, hwf, hmem⟩ := h
  refine ⟨hmax, ?_, ?_, Nat.le_refl _, hwf, hmem⟩
  · rw [hcaps, hsize, CompContext.complete_bitlen]
    omega
  · rw [hcaps, hsize, CompContext.complete_maxsize]
    omega

/-- C.FINISH ends in DONE with the output at its exact size (R185, R206, R207). -/
theorem finished_inv {p : Config.Params} {g : Config.Granule} {c c2 : CompContext} (h : c.Inv p)
    (hp : c.cphase = .opened) (hr : runAutomaton g (mergerEnd c) = (c2, none)) : c2.complete.Inv p := by
  obtain ⟨hwaiting, -⟩ := h.opened hp
  have hpath := runAutomaton_pathInv (mergerEnd_pathInv h hp) hr
  obtain ⟨heoi, hnhave, hempty, hdone⟩ := mergerEnd_run hwaiting hr
  have hclear : c2.cerr = 0 ∧ c2.cinfo0 = 0 ∧ c2.cinfo1 = 0 := by
    rw [run_frame hr, mergerEnd_frame c]
    exact h.latch_clear hp
  obtain ⟨herr, hinfo⟩ := hclear
  exact ⟨⟨by simp [herr], fun _ => hinfo, .inl herr⟩, ⟨hpath.range.lee, by simp [hnhave], by simp⟩,
    hpath.run.1, complete_bufferInv hpath.buffer,
    fun _ => ⟨heoi, hnhave, hempty, hdone, complete_clen_toNat hpath.buffer, rfl⟩⟩

/-- Every effect on the compression context keeps its invariant. -/
theorem CompEffect.inv {p : Config.Params} {c c' : CompContext} (h : c.Inv p) (he : CompEffect p c c') : c'.Inv p := by
  cases he with
  | init hm => exact CompContext.init_inv h hm
  | invalid hp hi => exact (h.pathInv hp).latch_inv (.inl rfl)
  | pushed hp ha hr => exact pushed_inv h hp ha hr
  | pushRaised hp ha hr => exact (ha.pathInv h hp).run_latch_inv hr
  | finished hp hr => exact finished_inv h hp hr
  | finishRaised hp hr => exact (mergerEnd_pathInv h hp).run_latch_inv hr

end Sys2Proof.Machine
end

section
/-! SUPPORT. That every command keeps the invariant of the decompression context. -/

namespace Sys2Proof.Machine

/-! ### One pass of the loop of D.NEXT -/

/-- The invariant gives what a codeword needs: the stream is short enough for 64-bit cursors (R10, R226). -/
theorem DecompContext.Inv.loopInv {p : Config.Params} {d : DecompContext} (hw : p.Wf) (h : d.Inv p)
    (hd : d.dphase ≠ .done) : d.LoopInv := by
  obtain ⟨-, -, -, hibuf⟩ := hw
  obtain ⟨-, ⟨hcursor, hreach, -, hcount, hopen⟩, -, ⟨hlen, -⟩⟩ := h
  exact ⟨by omega, hcursor, hreach, hcount hd, hopen⟩

/-- What a codeword leaves of the registers it does not write (42_elias_gamma.md R166, 41_gap_run_automaton.md R150). -/
theorem codeword_frame (d : DecompContext) :
    (d.advance.decodeValue d.codewordValue).1 = { d with
      bpos := (d.advance.decodeValue d.codewordValue).1.bpos
      lastd := (d.advance.decodeValue d.codewordValue).1.lastd
      pos := (d.advance.decodeValue d.codewordValue).1.pos
      sym := (d.advance.decodeValue d.codewordValue).1.sym
      dopen := (d.advance.decodeValue d.codewordValue).1.dopen
      dstart := (d.advance.decodeValue d.codewordValue).1.dstart } := by
  rw [decodeValue_frame]
  rfl

/-- In ACTIVE the invariant is that of the loop, with the latch clear and every byte of the stream written. -/
theorem DecompContext.inv_of_active {p : Config.Params} {d : DecompContext} (hd : d.dphase = .active)
    (hl : d.LoopInv) (hlatch : d.LatchInv) (hw : ∀ a < d.ilen.toNat, a ∈ d.written) (hb : d.BufferInv p) : d.Inv p := by
  have hcount := hl.count
  exact ⟨hlatch, ⟨hl.cursor, hl.reach, by omega, fun _ => hcount, hl.opened⟩,
    ⟨by simp [hd], fun _ => hw, by simp [hd]⟩, hb⟩

/-- A codeword in ACTIVE keeps the invariant, and leaves room for one more range to be counted. -/
theorem codeword_inv {p : Config.Params} {d d' : DecompContext} {o : Option Range} (hw : p.Wf) (h : d.Inv p)
    (hd : d.dphase = .active) (he : d.atEnd = false) (hz : d.zeros ≠ 32)
    (hv : d.advance.decodeValue d.codewordValue = (d', o)) :
    d'.Inv p ∧ d'.dphase = .active ∧ d.nranges.toNat + 1 ≤ d'.bpos.toNat := by
  have hl := h.loopInv hw (by simp [hd])
  obtain ⟨hl', hbpos, -⟩ := hl.codeword he hz
  have hf := codeword_frame d
  rw [hv] at hl' hbpos hf
  simp only at hl' hbpos hf
  have hcount := hl.count
  obtain ⟨hlatch, -, ⟨-, hwritten, -⟩, hbuf⟩ := h
  have hd' : d'.dphase = .active := by rw [hf]; exact hd
  have hlatch' : d'.LatchInv := by rw [hf]; exact hlatch
  have hwritten' : ∀ a < d'.ilen.toNat, a ∈ d'.written := by rw [hf]; exact hwritten (.inl hd)
  have hbuf' : d'.BufferInv p := by rw [hf]; exact hbuf
  exact ⟨DecompContext.inv_of_active hd' hl' hlatch' hwritten' hbuf', hd', by omega⟩

/-- A count that goes up by one goes up by at most one in its register. -/
theorem toNat_add_one_le (n : Word64) : (n + 1).toNat ≤ n.toNat + 1 := by
  rw [BitVec.toNat_add]
  exact Nat.mod_le _ _

/-- One more range counted in ACTIVE keeps the invariant, as long as the count stays behind the bit cursor. -/
theorem DecompContext.Inv.count {p : Config.Params} {d : DecompContext} {n : Word64} (h : d.Inv p)
    (hd : d.dphase = .active) (hn : n.toNat + 1 ≤ d.bpos.toNat) :
    ({ d with nranges := n + 1 } : DecompContext).Inv p := by
  obtain ⟨hlatch, ⟨hcursor, hreach, -, -, hopen⟩, ⟨-, hwritten, -⟩, hbuf⟩ := h
  have hle := toNat_add_one_le n
  exact ⟨hlatch, ⟨hcursor, hreach, by simp only; omega, fun _ => by simp only; omega, hopen⟩,
    ⟨by simp [hd], hwritten, by simp [hd]⟩, hbuf⟩

/-- Outside ERROR the latch is clear. -/
theorem DecompContext.LatchInv.derr_eq_zero {d : DecompContext} (h : d.LatchInv) (hd : d.dphase ≠ .error) :
    d.derr = 0 := by
  obtain ⟨hphase, -⟩ := h
  by_contra hne
  exact hd (hphase.2 hne)

/-- DONE reached from ACTIVE with no run open, and at most one range more than the bits read. -/
theorem DecompContext.Inv.stop {p : Config.Params} {d : DecompContext} {n : Word64} (h : d.Inv p)
    (hd : d.dphase = .active) (hn : n.toNat ≤ d.bpos.toNat + 1) :
    ({ d with dopen := false, dphase := .done, nranges := n } : DecompContext).Inv p := by
  obtain ⟨hlatch, ⟨hcursor, hreach, -, -, -⟩, ⟨-, hwritten, -⟩, hbuf⟩ := h
  have herr := DecompContext.LatchInv.derr_eq_zero hlatch (by simp [hd])
  obtain ⟨-, hinfo, hcodes⟩ := hlatch
  exact ⟨⟨by simp [herr], hinfo, hcodes⟩, ⟨hcursor, hreach, hn, by simp, by simp⟩,
    ⟨by simp, fun _ => hwritten (.inl hd), fun _ => rfl⟩, hbuf⟩

/-- The end of the stream, by whether a run is open (R155, R224). -/
theorem finishStream_eq (d : DecompContext) :
    d.finishStream =
      if d.dopen = true then
        ({ d with dopen := false, dphase := .done, nranges := d.nranges + 1 }, .range (d.dstart, d.pos - 1))
      else ({ d with dphase := .done }, .noRange) := by
  unfold DecompContext.finishStream DecompContext.endOfStream
  by_cases ho : d.dopen = true
  · simp only [if_pos ho]
  · simp only [if_neg ho]

/-- The end of the stream closes the open run and keeps the invariant (R155, R224). -/
theorem finishStream_inv {p : Config.Params} {d : DecompContext} (h : d.Inv p) (hd : d.dphase = .active) :
    d.finishStream.1.Inv p := by
  obtain ⟨-, -, -, hcount, -⟩ := h.2.1
  have hn := hcount (by simp [hd])
  rw [finishStream_eq]
  split
  · have hle := toNat_add_one_le d.nranges
    exact h.stop hd (by omega)
  next ho =>
    have hs := h.stop hd (n := d.nranges) (by omega)
    rwa [← (by simpa using ho : d.dopen = false)] at hs

/-- The end of the stream is no error (R155). -/
theorem finishStream_not_raised (d : DecompContext) (e : Raised) : d.finishStream.2 ≠ .raised e := by
  rw [finishStream_eq]
  split <;> simp

/-! ### The invariant after each effect -/

/-- An error of the decompression commands keeps the invariant (R255). -/
theorem DecompContext.Inv.latch_inv {p : Config.Params} {d : DecompContext} {e : Raised} (h : d.Inv p)
    (hd : d.dphase ≠ .done) (he : e.status.code = 0xB ∨ e.status.code = 0xC) : (d.latch e).Inv p := by
  obtain ⟨-, ⟨hcursor, hreach, hlast, hcount, hopen⟩, -, hbuf⟩ := h
  have hne : e.status.code ≠ 0 := by rcases he with h | h <;> rw [h] <;> decide
  refine ⟨⟨by simpa using hne, fun h => absurd h hne, .inr he⟩,
    ⟨hcursor, hreach, hlast, fun _ => hcount hd, hopen⟩, ⟨by simp, by simp, by simp⟩, hbuf⟩

theorem DecompContext.init_inv {p : Config.Params} {d : DecompContext} {n : Word32} (h : d.Inv p)
    (hn : n.toNat ≤ p.ibufBytes) : (d.init n).Inv p := by
  obtain ⟨-, -, -, ⟨-, -, -, hwf, hmem⟩⟩ := h
  refine ⟨⟨by simp, by simp, .inl rfl⟩, ⟨by simp, by simp, by simp, by simp, by simp⟩, ⟨?_, by simp, by simp⟩,
    ⟨hn, by simp [WrittenWf], by simp, hwf, hmem⟩⟩
  exact fun _ => ⟨rfl, rfl, rfl, rfl, rfl, rfl⟩

theorem DecompContext.load_inv {p : Config.Params} {d : DecompContext} {a : Nat} {b : Byte} (h : d.Inv p)
    (hd : d.dphase = .ready) (ha : a < d.ilen.toNat) : (d.load a b).Inv p := by
  obtain ⟨hlatch, hcursor, ⟨hidle, -, -⟩, ⟨hlen, hwf, hlt, hmwf, hmem⟩⟩ := h
  refine ⟨hlatch, hcursor, ⟨hidle, by simp [hd], by simp [hd]⟩,
    ⟨hlen, markWritten_wf hwf a, fun x hx => ?_, Memory.write_wf hmwf a b, fun x hx => ?_⟩⟩
  · rcases mem_markWritten.1 hx with rfl | hx
    · exact ha
    · exact hlt x hx
  · rcases Memory.mem_write hx with hx | rfl
    · exact hmem x hx
    · show a < p.ibufBytes
      omega

theorem DecodeStart.inv {p : Config.Params} {d d0 : DecompContext} (h : d.Inv p) (hs : DecodeStart d d0) :
    d0.Inv p ∧ d0.dphase = .active := by
  cases hs with
  | resumed hp => exact ⟨h, hp⟩
  | begun hp hw =>
    obtain ⟨hlatch, ⟨hcursor, hreach, hlast, hcount, hopen⟩, -, hbuf⟩ := h
    have herr := DecompContext.LatchInv.derr_eq_zero hlatch (by simp [hp])
    obtain ⟨-, hinfo, hcodes⟩ := hlatch
    exact ⟨⟨⟨by simp [herr], hinfo, hcodes⟩, ⟨hcursor, hreach, hlast, fun _ => hcount (by simp [hp]), hopen⟩,
      ⟨by simp, fun _ => hw, by simp⟩, hbuf⟩, rfl⟩

/-- The last pass of the loop keeps the invariant, and an error it raises is LongZeroRun, raised in ACTIVE (R167, R225). -/
theorem LastPass.inv {p : Config.Params} {x d' : DecompContext} {e : LoopEnd} (hw : p.Wf) (h : x.Inv p)
    (hx : x.dphase = .active) (hl : LastPass x d' e) :
    d'.Inv p ∧ ∀ r, e = .raised r → d'.dphase = .active ∧ r.status = .longZeroRun := by
  cases hl with
  | ended hend => exact ⟨finishStream_inv h hx, fun r hr => absurd hr (finishStream_not_raised x r)⟩
  | longZeros hend hz =>
    refine ⟨h, fun r hr => ⟨hx, ?_⟩⟩
    cases hr
    rfl
  | range hend hz hd =>
    obtain ⟨hi, ha, hn⟩ := codeword_inv hw h hx hend hz hd
    exact ⟨hi.count ha hn, by simp⟩

/-- Decoding keeps the invariant on every pass of its loop (R224, R225). -/
theorem decodeNext_inv {p : Config.Params} {d d' : DecompContext} {e : LoopEnd} (hw : p.Wf) (h : d.Inv p)
    (hd : d.dphase = .active) (hn : decodeNext d = (d', e)) :
    d'.Inv p ∧ ∀ r, e = .raised r → d'.dphase = .active ∧ r.status = .longZeroRun := by
  have hpass : ∀ x y, x.Inv p ∧ x.dphase = .active → SilentPass x y → y.Inv p ∧ y.dphase = .active := by
    rintro x y ⟨hx, ha⟩ hs
    obtain ⟨hy, hya, -⟩ := codeword_inv hw hx ha hs.notEnd hs.short hs.decoded
    exact ⟨hy, hya⟩
  obtain ⟨x, ⟨hx, ha⟩, hl⟩ := decodeNext_cases (P := fun x => x.Inv p ∧ x.dphase = .active) hpass ⟨h, hd⟩ hn
  exact hl.inv hw hx ha

/-- Every effect on the decompression context keeps its invariant. -/
theorem DecompEffect.inv {p : Config.Params} {d d' : DecompContext} (hw : p.Wf) (h : d.Inv p)
    (he : DecompEffect p d d') : d'.Inv p := by
  cases he with
  | init hn => exact DecompContext.init_inv h hn
  | loaded hp ha => exact DecompContext.load_inv h hp ha
  | unwritten hp ha hu => exact h.latch_inv (by simp [hp]) (.inr rfl)
  | decoded h0 hd he =>
    obtain ⟨h0, ha⟩ := h0.inv h
    exact (decodeNext_inv hw h0 ha hd).1
  | decodeRaised h0 hd =>
    obtain ⟨h0, ha⟩ := h0.inv h
    obtain ⟨hi, hr⟩ := decodeNext_inv hw h0 ha hd
    obtain ⟨hact, hs⟩ := hr _ rfl
    exact hi.latch_inv (by simp [hact]) (.inl (by rw [hs]; rfl))

end Sys2Proof.Machine
end

section
/-! The headline: every step keeps the invariant of the machine. -/

namespace Sys2Proof.Machine

/-- The state after reset meets the invariant, whatever legal parameters it keeps (R43, R280). -/
theorem CompContext.reset_inv (p : Config.Params) (hw : p.Wf) : CompContext.reset.Inv p := by
  obtain ⟨hobuf, -⟩ := hw
  have hlee : CompContext.reset.lee.toInt = -1 := by decide
  have hmax : CompContext.reset.maxsize.toNat = 16777216 := by decide
  refine ⟨by decide, ⟨hlee.ge, by decide, by decide⟩, by decide, ?_, by decide⟩
  exact ⟨by omega, by decide, by decide, by decide, by decide, by simp [CompContext.reset]⟩

theorem DecompContext.reset_inv (p : Config.Params) : DecompContext.reset.Inv p :=
  ⟨by decide, by decide, ⟨by decide, by decide, by decide⟩,
    Nat.zero_le _, by decide, by decide, by decide, by simp [DecompContext.reset]⟩

/-- Every effect of a command keeps the invariant of the machine. -/
theorem Effect.inv {s t : State} (h : s.Inv) (he : Effect s t) : t.Inv := by
  obtain ⟨hw, hc, hd⟩ := h
  cases he with
  | answered r => exact ⟨hw, hc, hd⟩
  | comp r hcomp => exact ⟨hw, hcomp.inv hc, hd⟩
  | decomp r hdecomp => exact ⟨hw, hc, hdecomp.inv hw hd⟩

/-- Settles O52: an idle step changes nothing, a reset gives the reset values, and each effect of a command keeps the
invariant. -/
theorem stepKeepsTheInvariant : Obligations.StepKeepsTheInvariant := by
  intro s t hs ht
  match hp : s.pending with
  | [] =>
    rw [step_idle hp] at ht
    cases ht
    exact hs
  | .reset :: rest =>
    rw [step_reset hp] at ht
    cases ht
    exact ⟨hs.1, CompContext.reset_inv s.params hs.1, DecompContext.reset_inv s.params⟩
  | .command w :: rest =>
    obtain ⟨t', ht', he⟩ := step_command hp
    rw [ht'] at ht
    cases ht
    exact he.inv (s := { s with pending := rest }) hs

end Sys2Proof.Machine
end

section
/-! The invariant after reset and after any commands, and the bounds of the decoder's cursors that it holds (10_state.md
R41, R43, 45_decompress_commands.md R226). -/

namespace Sys2Proof.Machine

/-- Settles O51: the default parameters are legal, and each context's reset value meets its invariant. -/
theorem resetMeetsTheInvariant : Obligations.ResetMeetsTheInvariant := by
  have hw : State.reset.params.Wf := by decide
  exact ⟨hw, CompContext.reset_inv _ hw, DecompContext.reset_inv _⟩

theorem State.after_inv {s : State} (h : s.Inv) (i : Instr) : (s.after i).Inv := by
  obtain ⟨t, ht, he⟩ := exec_effect i s
  have hafter : s.after i = t := by rw [State.after, ht]
  rw [hafter]
  exact he.inv h

theorem State.afterAll_inv {s : State} (h : s.Inv) (is : List Instr) : (s.afterAll is).Inv := by
  induction is generalizing s with
  | nil => exact h
  | cons i is ih => exact ih (State.after_inv h i)

/-- Settles O42: the invariant after the commands bounds `D.bpos`, and `D.pos` in proportion to it. -/
theorem cursorsStayInBounds : Obligations.CursorsStayInBounds := by
  intro s is hs
  obtain ⟨⟨-, -, -, hibuf⟩, -, -, ⟨hcursor, hreach, -, -, hopen⟩, -, hlen, -⟩ := State.afterAll_inv hs is
  exact ⟨by omega, hcursor, hopen⟩

end Sys2Proof.Machine
end

section
/-! The canonical form of the byte memories (20_memory.md R60; log 5, log 15). -/

namespace Sys2Proof.Machine

/-- A memory in the form lists no address below the first that another one with the same bytes lists. -/
theorem Memory.head_le_of_read_eq {x y : Host.Cell} {m n : Memory} (hm : Memory.Wf (x :: m)) (hn : Memory.Wf (y :: n))
    (h : Memory.read (x :: m) x.1 = Memory.read (y :: n) x.1) : y.1 ≤ x.1 := by
  obtain ⟨-, hx, -⟩ := Memory.wf_cons.1 hm
  obtain ⟨hy, -, -⟩ := Memory.wf_cons.1 hn
  by_contra hlt
  rw [Nat.not_le] at hlt
  have hblank : Memory.read (y :: n) x.1 = blankByte :=
    Memory.read_below (List.forall_mem_cons.2 ⟨hlt, fun z hz => Nat.lt_trans hlt (hy z hz)⟩)
  rw [hblank, Memory.read_cons, if_pos rfl] at h
  exact hx h

/-- A memory in the form that reads blank everywhere lists nothing. -/
theorem Memory.eq_nil_of_read_blank {m : Memory} (hm : m.Wf) (h : ∀ a, m.read a = blankByte) : m = [] := by
  cases m with
  | nil => rfl
  | cons x m =>
    obtain ⟨-, hx, -⟩ := Memory.wf_cons.1 hm
    have hread := h x.1
    rw [Memory.read_cons, if_pos rfl] at hread
    exact absurd hread hx

/-- The form is canonical: the bytes read determine the list, cell by cell from the lowest address. -/
theorem Memory.ext_of_wf {m n : Memory} (hm : m.Wf) (hn : n.Wf) (h : ∀ a, m.read a = n.read a) : m = n := by
  induction m generalizing n with
  | nil => exact (Memory.eq_nil_of_read_blank hn fun a => (h a).symm).symm
  | cons x m ih =>
    cases n with
    | nil => exact Memory.eq_nil_of_read_blank hm h
    | cons y n =>
      have haddr : x.1 = y.1 := Nat.le_antisymm (Memory.head_le_of_read_eq hn hm (h y.1).symm)
        (Memory.head_le_of_read_eq hm hn (h x.1))
      have hbyte : x.2 = y.2 := by simpa [Memory.read_cons, haddr] using h x.1
      obtain ⟨hx, -, hm'⟩ := Memory.wf_cons.1 hm
      obtain ⟨hy, -, hn'⟩ := Memory.wf_cons.1 hn
      have htail : m = n := ih hm' hn' fun a => by
        by_cases ha : a = x.1
        · rw [ha, Memory.read_below hx, haddr, Memory.read_below hy]
        · simpa [Memory.read_cons, ← haddr, ha] using h a
      rw [htail, Prod.ext haddr hbyte]

/-- Settles O50: what a write keeps and gives back are the laws of the memories, and reads determine a memory in the
form. -/
theorem memoryFormIsCanonical : Obligations.MemoryFormIsCanonical :=
  ⟨fun _ a b hm => ⟨Memory.write_wf hm a b, Memory.read_write_same hm a b⟩,
    fun m _ _ b h => Memory.read_write_other m b h, fun _ _ hm hn h => Memory.ext_of_wf hm hn h⟩

end Sys2Proof.Machine
end

section
/-! The registers as reset leaves them and as RDREG and the assembler name them (10_state.md R36 to R43). -/

namespace Sys2Proof.Machine

/-! ### Hardware reset (R43, R280) -/

/-- Settles O9: a step that takes a reset leaves the reset value of each context. -/
theorem hardwareResetSetsEveryRegister : Obligations.HardwareResetSetsEveryRegister := by
  intro s rest hp
  have hlee : CompContext.reset.lee.toInt = -1 := by decide
  refine ⟨_, step_reset hp, ?_⟩
  simp only [State.hardwareReset_params, State.hardwareReset_pending, State.hardwareReset_resp,
    State.hardwareReset_c, State.hardwareReset_d, hlee, true_and]
  simp [CompContext.reset, DecompContext.reset, Config.maxsizeDefault]

/-! ### RDREG (R36, R240) -/

theorem exec_rdreg_of_view {s : State} {index : Byte} {v : Word64} (h : s.view index = some v) :
    exec (.rdreg index) s = .next { s with resp := some { status := 0x0, v0 := v, v1 := 0 } } := by
  show execRdreg index s = _
  rw [execRdreg, h]
  rfl

theorem exec_rdreg_of_no_view {s : State} {index : Byte} (h : s.view index = none) :
    exec (.rdreg index) s = .next { s with resp := some { status := 0xD, v0 := 0x20, v1 := 0 } } := by
  show execRdreg index s = _
  rw [execRdreg, h]
  rfl

/-- The indices between the entries of the map and beyond its last one have no view (R36). -/
theorem view_eq_none (s : State) {index : Byte} (h : (0x0D ≤ index.toNat ∧ index.toNat ≤ 0x0F) ∨
    (0x18 ≤ index.toNat ∧ index.toNat ≤ 0x1E) ∨ 0x20 ≤ index.toNat) : s.view index = none := by
  unfold State.view
  split
  case h_23 => rfl
  all_goals omega

/-- Settles O11: each index of the map has the view of its row, and the others have none. -/
theorem rdregReadsTheViews : Obligations.RdregReadsTheViews := by
  intro s
  refine ⟨fun v hv => exec_rdreg_of_view ?_, fun index h => exec_rdreg_of_no_view (view_eq_none s h)⟩
  revert v
  simp only [List.forall_mem_cons]
  exact ⟨rfl, rfl, rfl, rfl, rfl, rfl, rfl, rfl, rfl, rfl, rfl, rfl, rfl, rfl, rfl, rfl, rfl, rfl, rfl, rfl, rfl, rfl,
    List.forall_mem_nil _⟩

/-! ### Register names (R36, R91) -/

theorem assemble_reg_name (r : RegName) : assemble (.rdreg (.name r)) = some [.rdreg (regIndex r)] := rfl

/-- Every name of the map is read as its register, for none of them is a literal (R91). -/
theorem regOperand_of_mem_regNames : ∀ p ∈ regNames, regOperand p.1.toList = some (.name p.2) := by decide

/-- Settles O59: every register has a name in the list, and each name of R36 leads through the operand to its index. -/
theorem registerNamesHaveTheirIndices : Obligations.RegisterNamesHaveTheirIndices := by
  refine ⟨assemble_reg_name, fun r => ?_, ?_⟩
  · obtain ⟨p, hp, rfl⟩ : ∃ p ∈ regNames, p.2 = r := by cases r <;> simp [regNames]
    exact ⟨p.1, regOperand_of_mem_regNames p hp⟩
  · decide

end Sys2Proof.Machine
end

section
/-! The two status words as sums of their fields at their places, and the fields read back (10_state.md R37, R38). -/

namespace Sys2Proof.Machine

/-! ### Fields of a word -/

/-- Two bit vectors side by side, as a number. -/
theorem toNat_append_eq {a b : Nat} (x : BitVec a) (y : BitVec b) : (x ++ y).toNat = 2 ^ b * x.toNat + y.toNat := by
  rw [BitVec.toNat_append, Nat.shiftLeft_eq, Nat.mul_comm, Nat.two_pow_add_eq_or_of_lt y.isLt]

theorem extractLsb'_eq_of_toNat {w : Word64} {start len : Nat} {f : BitVec len}
    (h : w.toNat / 2 ^ start % 2 ^ len = f.toNat) : w.extractLsb' start len = f := by
  apply BitVec.eq_of_toNat_eq
  rw [BitVec.extractLsb'_toNat, Nat.shiftRight_eq_div_pow, h]

theorem extractLsb'_eq_zero_of_toNat {w : Word64} {start len : Nat} (h : w.toNat / 2 ^ start % 2 ^ len = 0) :
    w.extractLsb' start len = 0 := extractLsb'_eq_of_toNat h

theorem getLsbD_eq_of_toNat {w : Word64} {i : Nat} {b : Bool} (h : w.toNat / 2 ^ i % 2 = b.toNat) :
    w.getLsbD i = b := by
  rw [BitVec.getLsbD, Nat.testBit_eq_decide_div_mod_eq, h]
  cases b <;> rfl

theorem getLsbD_eq_false_of_toNat {w : Word64} {i : Nat} (h : w.toNat / 2 ^ i % 2 = 0) : w.getLsbD i = false :=
  getLsbD_eq_of_toNat h

/-! ### C_STATUS (R37) -/

/-- C_STATUS as the sum of its fields at their places (R37). -/
theorem cStatusWord_toNat {c : CompContext} (hq : c.flatq.length ≤ 2) : (cStatusWord c).toNat =
    65536 * c.flatq.length + 4096 * c.aphase.code.toNat + 1024 * c.async.toNat + 512 * c.eoi.toNat +
      256 * c.nhave.toNat + 16 * c.cerr.toNat + c.cphase.code.toNat := by
  show BitVec.toNat (w := 46 + 2 + 1 + 3 + 1 + 1 + 1 + 1 + 4 + 1 + 3) _ = _
  unfold cStatusWord
  simp only [toNat_append_eq, flagBit, BitVec.toNat_ofBool, BitVec.toNat_ofNat]
  omega

/-- Settles O12: each field is read back from the sum, and the invariant bounds the error code and the queue. -/
theorem cStatusHasItsFields : Obligations.CStatusHasItsFields := by
  rintro s ⟨-, ⟨⟨-, -, hcerr⟩, -, ⟨-, hlen, -⟩, -⟩, -⟩
  have hq : s.c.flatq.length ≤ 2 := hlen
  have hword := cStatusWord_toNat hq
  have hcode := s.c.cphase.code.isLt
  have hacode := s.c.aphase.code.isLt
  have herr := s.c.cerr.isLt
  have hasync := s.c.async.toNat_lt
  have heoi := s.c.eoi.toNat_lt
  have hnhave := s.c.nhave.toNat_lt
  have hqcount : ((cStatusWord s.c).extractLsb' 16 2).toNat = s.c.flatq.length := by
    rw [BitVec.extractLsb'_toNat, Nat.shiftRight_eq_div_pow]
    omega
  have hphase : (cStatusWord s.c).extractLsb' 0 3 = s.c.cphase.code := extractLsb'_eq_of_toNat (by omega)
  have haphase : (cStatusWord s.c).extractLsb' 12 3 = s.c.aphase.code := extractLsb'_eq_of_toNat (by omega)
  exact ⟨hphase.trans (by cases s.c.cphase <;> rfl), getLsbD_eq_false_of_toNat (by omega),
    extractLsb'_eq_of_toNat (by omega), hcerr, getLsbD_eq_of_toNat (by omega), getLsbD_eq_of_toNat (by omega),
    getLsbD_eq_of_toNat (by omega), getLsbD_eq_false_of_toNat (by omega),
    haphase.trans (by cases s.c.aphase <;> rfl), getLsbD_eq_false_of_toNat (by omega), hqcount, hq,
    extractLsb'_eq_zero_of_toNat (by omega)⟩

/-! ### D_STATUS (R38) -/

/-- D_STATUS as the sum of its fields at their places (R38). -/
theorem dStatusWord_toNat (d : DecompContext) : (dStatusWord d).toNat =
    512 * d.dopen.toNat + 256 * d.sym.toNat + 16 * d.derr.toNat + d.dphase.code.toNat := by
  show BitVec.toNat (w := 54 + 1 + 1 + 4 + 1 + 3) _ = _
  unfold dStatusWord
  simp only [toNat_append_eq, flagBit, BitVec.toNat_ofBool, BitVec.toNat_ofNat]
  omega

/-- Settles O13: each field is read back from the sum, and the invariant bounds the error code. -/
theorem dStatusHasItsFields : Obligations.DStatusHasItsFields := by
  rintro s ⟨-, -, ⟨-, -, hderr⟩, -⟩
  have hword := dStatusWord_toNat s.d
  have hcode := s.d.dphase.code.isLt
  have herr := s.d.derr.isLt
  have hsym := s.d.sym.toNat_lt
  have hopen := s.d.dopen.toNat_lt
  have hphase : (dStatusWord s.d).extractLsb' 0 3 = s.d.dphase.code := extractLsb'_eq_of_toNat (by omega)
  exact ⟨hphase.trans (by cases s.d.dphase <;> rfl), getLsbD_eq_false_of_toNat (by omega),
    extractLsb'_eq_of_toNat (by omega), hderr, getLsbD_eq_of_toNat (by omega), getLsbD_eq_of_toNat (by omega),
    extractLsb'_eq_zero_of_toNat (by omega)⟩

end Sys2Proof.Machine
end

section
/-! SUPPORT. That OBUF shows only the stream bits below `C.bitlen`: two compression contexts that differ only in the
others answer alike and stay alike (10_state.md R43, 20_memory.md R61, R62). -/

namespace Sys2Proof.Machine

/-! ### Alike contexts -/

/-- Two contents of OBUF, both in the canonical form, with the same first `n` stream bits. -/
structure Memory.SameBits (n : Nat) (m m' : Memory) : Prop where
  wf : m.Wf
  wf' : m'.Wf
  bits : ∀ i < n, m'.streamBit i = m.streamBit i

/-- The context with other contents of OBUF. -/
def CompContext.withObuf (c : CompContext) (m : Memory) : CompContext := { c with obuf := m }

theorem CompContext.withObuf_pull (c : CompContext) (m : Memory) : (c.withObuf m).pull = c.pull := rfl

/-- Two compression contexts that differ only in OBUF, and there only at or beyond `C.bitlen`. -/
inductive CompContext.Alike (c : CompContext) : CompContext → Prop where
  | mk {m : Memory} (h : Memory.SameBits c.bitlen.toNat c.obuf m) : Alike c (c.withObuf m)

/-- What a fallible operation answers from two alike contexts: the same error, or alike contexts. -/
inductive ExceptAlike : Except Raised CompContext → Except Raised CompContext → Prop where
  | error (e : Raised) : ExceptAlike (.error e) (.error e)
  | ok {c c' : CompContext} (h : c.Alike c') : ExceptAlike (.ok c) (.ok c')

/-- What one step of the automaton does from two alike contexts: alike moves, a rest, or the same error. -/
inductive StepAlike : AutoStep → AutoStep → Prop where
  | moved {c c' : CompContext} (h : c.Alike c') : StepAlike (.moved c) (.moved c')
  | rests : StepAlike .rests .rests
  | raised (e : Raised) : StepAlike (.raised e) (.raised e)

/-- A choice by one and the same condition between related values. -/
theorem ite_related {α : Type} {r : α → α → Prop} {p : Prop} {hp hp' : Decidable p} {a a' b b' : α}
    (ht : p → r a a') (he : ¬p → r b b') : r (@ite α p hp a b) (@ite α p hp' a' b') := by
  by_cases h : p
  · rw [if_pos h, if_pos h]
    exact ht h
  · rw [if_neg h, if_neg h]
    exact he h

/-- Two results whose contexts are related and whose other part is the same. -/
inductive SameAnswer {α β : Type} (r : α → α → Prop) : α × β → α × β → Prop where
  | mk {a a' : α} (h : r a a') (b : β) : SameAnswer r (a, b) (a', b)

/-! ### The packer and the encoder -/

theorem word64_toNat_le (n : Nat) : (word64 n).toNat ≤ n := by
  rw [word64, BitVec.toNat_ofNat]
  exact Nat.mod_le _ _

/-- The bit appended is the same one, and it is the only one that comes to show (R181). -/
theorem appendBit_alike {c c' : CompContext} (h : c.Alike c') (b : Bool) : (c.appendBit b).Alike (c'.appendBit b) := by
  obtain @⟨m, hwf, hwf', hbits⟩ := h
  refine .mk ⟨Memory.writeStreamBit_wf hwf _ _, Memory.writeStreamBit_wf hwf' _ _, fun i hi => ?_⟩
  have hlt : i < c.bitlen.toNat + 1 := Nat.lt_of_lt_of_le hi (word64_toNat_le _)
  rw [CompContext.appendBit_obuf, Memory.streamBit_writeStreamBit hwf]
  refine (Memory.streamBit_writeStreamBit hwf' _ _ _).trans ?_
  exact ite_related (r := Eq) (p := i = c.bitlen.toNat) (fun _ => rfl) fun hne => hbits i (by omega)

theorem bitAppend_alike {c c' : CompContext} (h : c.Alike c') (v n : Nat) :
    (bitAppend v n c).Alike (bitAppend v n c') := by
  induction n generalizing c c' with
  | zero => exact h
  | succ n ih => exact ih (appendBit_alike h (v.testBit n))

/-- Whether a codeword fits depends on the sizes alone (R183, R184). -/
theorem packCodeword_alike {c c' : CompContext} (h : c.Alike c') (g : Config.Granule) (v n : Nat) :
    ExceptAlike (packCodeword g v n c) (packCodeword g v n c') := by
  obtain ⟨hm⟩ := h
  refine ite_related (fun _ => .error _) fun _ => ite_related (fun _ => ?_) fun _ => ?_
  · refine .ok (bitAppend_alike ?_ v n)
    exact .mk hm
  · exact .ok (bitAppend_alike (.mk hm) v n)

theorem gammaEncode_alike {c c' : CompContext} (h : c.Alike c') (g : Config.Granule) (x : Nat) :
    ExceptAlike (gammaEncode g x c) (gammaEncode g x c') :=
  ite_related (fun _ => .error _) fun _ => packCodeword_alike h g x _

/-! ### The automaton -/

theorem emitThen_alike {c c' : CompContext} (h : c.Alike c') (g : Config.Granule) (x : Nat)
    {f f' : CompContext → CompContext} (hf : ∀ y y', CompContext.Alike y y' → (f y).Alike (f' y')) :
    StepAlike (emitThen g x c f) (emitThen g x c' f') := by
  have he := gammaEncode_alike h g x
  unfold emitThen
  generalize gammaEncode g x c = r, gammaEncode g x c' = r' at he
  cases he with
  | error e => exact .raised e
  | ok hy => exact .moved (hf _ _ hy)

theorem runStep_alike {c c' : CompContext} (h : c.Alike c') (g : Config.Granule) :
    StepAlike (runStep g c) (runStep g c') := by
  have hc := h
  obtain @⟨m, hm⟩ := h
  refine ite_related (fun _ => .moved (.mk hm)) fun _ => ite_related (fun _ => ?_) fun _ => ?_
  · refine emitThen_alike hc g _ ?_
    rintro y _ ⟨hy⟩
    exact .mk hy
  · refine emitThen_alike hc g _ ?_
    rintro y _ ⟨hy⟩
    exact .mk hy

/-- The steps at a pull (R132, R134, R138): they differ only in the move `f` that a value makes. -/
def CompContext.onPull (c : CompContext) (f : Word33 → List Word33 → CompContext) : AutoStep :=
  match c.pull with
  | .value v rest => .moved (f v rest)
  | .exhausted => .moved c.autoDone
  | .blocked => .rests

theorem seedStep_eq_onPull (c : CompContext) : seedStep c =
    c.onPull fun v rest => { c with flatq := rest, rem := v, async := seedSync v, aphase := .run } := rfl

theorem refillStep_eq_onPull (c : CompContext) : refillStep c =
    c.onPull fun v rest => { c with flatq := rest, rem := v, aphase := .run } := rfl

theorem pullAfterStep_eq_onPull (c : CompContext) : pullAfterStep c =
    c.onPull fun v rest => { c with flatq := rest, rem := v - 1, async := pullSync (v - 1), aphase := .run } := rfl

/-- A pull reads the queue, not OBUF (R133). -/
theorem onPull_alike {c c' : CompContext} (h : c.Alike c') {f f' : Word33 → List Word33 → CompContext}
    (hf : ∀ v rest, (f v rest).Alike (f' v rest)) : StepAlike (c.onPull f) (c'.onPull f') := by
  obtain ⟨hm⟩ := h
  unfold CompContext.onPull
  rw [CompContext.withObuf_pull]
  cases c.pull with
  | value v rest => exact .moved (hf v rest)
  | exhausted => exact .moved (.mk hm)
  | blocked => exact .rests

theorem autoStep_alike {c c' : CompContext} (h : c.Alike c') (g : Config.Granule) :
    StepAlike (autoStep g c) (autoStep g c') := by
  have hc := h
  obtain @⟨m, hm⟩ := h
  have hphase : (c.withObuf m).aphase = c.aphase := rfl
  unfold autoStep
  rw [hphase]
  cases c.aphase with
  | unseeded =>
    rw [seedStep_eq_onPull, seedStep_eq_onPull]
    exact onPull_alike hc fun _ _ => .mk hm
  | run => exact runStep_alike hc g
  | pullTop =>
    rw [refillStep_eq_onPull, refillStep_eq_onPull]
    exact onPull_alike hc fun _ _ => .mk hm
  | pullAfterEmit =>
    rw [pullAfterStep_eq_onPull, pullAfterStep_eq_onPull]
    exact onPull_alike hc fun _ _ => .mk hm
  | done => exact .rests

theorem autoSteps_alike {c c' : CompContext} (h : c.Alike c') (g : Config.Granule) (n : Nat) :
    SameAnswer CompContext.Alike (autoSteps g n c) (autoSteps g n c') := by
  induction n generalizing c c' with
  | zero => exact .mk h none
  | succ n ih =>
    have hs := autoStep_alike h g
    unfold autoSteps
    generalize autoStep g c = r, autoStep g c' = r' at hs
    cases hs with
    | moved hy => exact ih hy
    | rests => exact .mk h none
    | raised e => exact .mk h (some e)

theorem runAutomaton_alike {c c' : CompContext} (h : c.Alike c') (g : Config.Granule) :
    SameAnswer CompContext.Alike (runAutomaton g c) (runAutomaton g c') := by
  have hbound : autoBound c' = autoBound c := by
    cases h
    rfl
  unfold runAutomaton
  rw [hbound]
  exact autoSteps_alike h g _

/-! ### range_merger and the commands' own changes -/

/-- range_merger reads its own registers, not OBUF (R111 to R116). -/
theorem mergerAccept_alike {c c' : CompContext} (h : c.Alike c') (start stop : Word32) :
    ExceptAlike (mergerAccept start stop c) (mergerAccept start stop c') := by
  obtain @⟨m, hm⟩ := h
  exact ite_related (fun _ => .error _) fun _ => ite_related (fun _ => .ok (.mk hm)) fun _ =>
    ite_related (fun _ => .error _) fun _ => ite_related (fun _ => .ok (.mk hm)) fun _ => .ok (.mk hm)

theorem mergerEnd_alike {c c' : CompContext} (h : c.Alike c') : (mergerEnd c).Alike (mergerEnd c') := by
  obtain @⟨m, hm⟩ := h
  exact ite_related (fun _ => .mk hm) fun _ => .mk hm

theorem CompContext.Alike.latch {c c' : CompContext} (h : c.Alike c') (e : Raised) :
    (c.latch e).Alike (c'.latch e) := by
  obtain ⟨hm⟩ := h
  exact .mk hm

theorem CompContext.Alike.complete {c c' : CompContext} (h : c.Alike c') : c.complete.Alike c'.complete := by
  obtain ⟨hm⟩ := h
  exact .mk hm

/-- After C.INIT no stream bit shows (R62, R200). -/
theorem CompContext.Alike.init {c c' : CompContext} (h : c.Alike c') (maxsize : Word32) :
    (c.init maxsize).Alike (c'.init maxsize) := by
  obtain ⟨hwf, hwf', -⟩ := h
  exact .mk ⟨hwf, hwf', fun i hi => absurd hi (Nat.not_lt_zero i)⟩

/-! ### What the context shows -/

theorem CompContext.Alike.outBit_eq {c c' : CompContext} (h : c.Alike c') (i : Nat) : c'.outBit i = c.outBit i := by
  obtain @⟨m, -, -, hbits⟩ := h
  exact ite_related (fun hi => hbits i hi) fun _ => rfl

theorem CompContext.Alike.outByte_eq {c c' : CompContext} (h : c.Alike c') (j : Nat) : c'.outByte j = c.outByte j := by
  simp only [CompContext.outByte, h.outBit_eq]

end Sys2Proof.Machine
end

section
/-! SUPPORT. That decoding shows only IBUF bytes that were loaded: two decompression contexts that differ only in
unwritten bytes answer alike and stay alike (10_state.md R43, R44, 20_memory.md R63, R64). -/

namespace Sys2Proof.Machine

/-! ### Alike contexts -/

/-- Two contents of IBUF, both in the canonical form, with the same bytes at the addresses `ws`. -/
structure Memory.SameBytes (ws : List Nat) (m m' : Memory) : Prop where
  wf : m.Wf
  wf' : m'.Wf
  bytes : ∀ a ∈ ws, m'.read a = m.read a

/-- The context with other contents of IBUF. -/
def DecompContext.withIbuf (d : DecompContext) (m : Memory) : DecompContext := { d with ibuf := m }

/-- Two decompression contexts that differ only in IBUF, and there only in bytes whose `written` bit is 0. -/
inductive DecompContext.Alike (d : DecompContext) : DecompContext → Prop where
  | mk {m : Memory} (h : Memory.SameBytes d.written d.ibuf m) : Alike d (d.withIbuf m)

/-- The contents of IBUF agree on the stream, which is what decoding reads (R186). -/
def DecompContext.SameStream (d : DecompContext) (m : Memory) : Prop :=
  ∀ a < d.ilen.toNat, m.read a = d.ibuf.read a

/-! ### What is read from the stream -/

theorem inBit_withIbuf {d : DecompContext} {m : Memory} (h : d.SameStream m) (i : Nat) :
    (d.withIbuf m).inBit i = d.inBit i := by
  refine ite_related (r := Eq) (p := i < 8 * d.ilen.toNat) (fun hi => ?_) fun _ => rfl
  have hbyte : (d.withIbuf m).ibuf.read (i / 8) = d.ibuf.read (i / 8) := h _ (by omega)
  rw [Memory.streamBit, Memory.streamBit, hbyte]

theorem inBits_withIbuf {d : DecompContext} {m : Memory} (h : d.SameStream m) (b n : Nat) :
    (d.withIbuf m).inBits b n = d.inBits b n := by
  induction n with
  | zero => rfl
  | succ n ih => rw [DecompContext.inBits, DecompContext.inBits, ih, inBit_withIbuf h]

theorem zeros_withIbuf {d : DecompContext} {m : Memory} (h : d.SameStream m) : (d.withIbuf m).zeros = d.zeros :=
  congrArg (fun n => countLeadingZeros32 (BitVec.ofNat 32 n)) (inBits_withIbuf h d.bpos.toNat Config.window)

theorem codewordValue_withIbuf {d : DecompContext} {m : Memory} (h : d.SameStream m) :
    (d.withIbuf m).codewordValue = d.codewordValue := by
  rw [DecompContext.codewordValue, zeros_withIbuf h]
  exact inBits_withIbuf h _ _

theorem atEnd_withIbuf {d : DecompContext} {m : Memory} (h : d.SameStream m) : (d.withIbuf m).atEnd = d.atEnd := by
  rw [DecompContext.atEnd, zeros_withIbuf h]
  rfl

/-! ### Decoding -/

theorem advance_withIbuf {d : DecompContext} {m : Memory} (h : d.SameStream m) :
    (d.withIbuf m).advance = d.advance.withIbuf m := by
  rw [DecompContext.advance, zeros_withIbuf h, codewordValue_withIbuf h]
  rfl

theorem decodeValue_withIbuf (d : DecompContext) (m : Memory) (v : Nat) :
    (d.withIbuf m).decodeValue v = ((d.decodeValue v).1.withIbuf m, (d.decodeValue v).2) := by
  rw [decodeValue_eq, decodeValue_eq]
  rfl

/-- A codeword decoded from the same stream, with other bytes elsewhere. -/
theorem codeword_withIbuf {d : DecompContext} {m : Memory} (h : d.SameStream m) :
    (d.withIbuf m).advance.decodeValue (d.withIbuf m).codewordValue =
      ((d.advance.decodeValue d.codewordValue).1.withIbuf m, (d.advance.decodeValue d.codewordValue).2) := by
  rw [advance_withIbuf h, codewordValue_withIbuf h, decodeValue_withIbuf]

theorem finishStream_withIbuf (d : DecompContext) (m : Memory) :
    (d.withIbuf m).finishStream = (d.finishStream.1.withIbuf m, d.finishStream.2) := by
  simp only [finishStream_eq, apply_ite Prod.fst, apply_ite Prod.snd]
  by_cases ho : d.dopen = true
  · simp [ho, DecompContext.withIbuf]
  · simp [ho, DecompContext.withIbuf]

/-- The loop of D.NEXT reads the stream and nothing else of IBUF (R186, R224). -/
theorem decodeLoop_withIbuf {d : DecompContext} {m : Memory} (h : d.SameStream m) (n : Nat) :
    decodeLoop n (d.withIbuf m) = ((decodeLoop n d).1.withIbuf m, (decodeLoop n d).2) := by
  induction n generalizing d with
  | zero => exact finishStream_withIbuf d m
  | succ n ih =>
    have hstream : (d.advance.decodeValue d.codewordValue).1.SameStream m := by
      rw [codeword_frame]
      exact h
    simp only [decodeLoop, atEnd_withIbuf h, zeros_withIbuf h, codeword_withIbuf h]
    split_ifs
    · exact finishStream_withIbuf d m
    · rfl
    · generalize d.advance.decodeValue d.codewordValue = r at hstream
      obtain ⟨d', _ | r⟩ := r
      · exact ih hstream
      · rfl

theorem codeword_keeps_ibuf {d d' : DecompContext} {o : Option Range}
    (h : d.advance.decodeValue d.codewordValue = (d', o)) : d'.ibuf = d.ibuf ∧ d'.written = d.written := by
  have hf := codeword_frame d
  rw [h] at hf
  exact ⟨congrArg (·.ibuf) hf, congrArg (·.written) hf⟩

theorem finishStream_keeps_ibuf (d : DecompContext) :
    d.finishStream.1.ibuf = d.ibuf ∧ d.finishStream.1.written = d.written := by
  rw [finishStream_eq]
  split
  · exact ⟨rfl, rfl⟩
  · exact ⟨rfl, rfl⟩

/-- Decoding writes neither IBUF nor its `written` bits (R224). -/
theorem decodeNext_keeps_ibuf {d d' : DecompContext} {e : LoopEnd} (h : decodeNext d = (d', e)) :
    d'.ibuf = d.ibuf ∧ d'.written = d.written := by
  obtain ⟨x, ⟨hibuf, hwritten⟩, hl⟩ := decodeNext_cases
    (P := fun x => x.ibuf = d.ibuf ∧ x.written = d.written)
    (fun x y ⟨hi, hw⟩ hs => by
      obtain ⟨hyi, hyw⟩ := codeword_keeps_ibuf hs.decoded
      exact ⟨hyi.trans hi, hyw.trans hw⟩) ⟨rfl, rfl⟩ h
  rw [← hibuf, ← hwritten]
  cases hl with
  | ended hend => exact finishStream_keeps_ibuf x
  | longZeros hend hz => exact ⟨rfl, rfl⟩
  | range hend hz hd =>
    have hkeeps := codeword_keeps_ibuf hd
    exact hkeeps

/-- With every byte of the stream written, alike contexts decode alike (R44, R224). -/
theorem decodeNext_alike {d d' : DecompContext} (h : d.Alike d') (hw : ∀ a < d.ilen.toNat, a ∈ d.written) :
    SameAnswer DecompContext.Alike (decodeNext d) (decodeNext d') := by
  obtain @⟨m, hm⟩ := h
  have hstream : d.SameStream m := fun a ha => hm.bytes a (hw a ha)
  have hsame : decodeNext (d.withIbuf m) = ((decodeNext d).1.withIbuf m, (decodeNext d).2) :=
    decodeLoop_withIbuf hstream _
  rw [hsame]
  obtain ⟨hibuf, hwritten⟩ := decodeNext_keeps_ibuf (d := d) rfl
  rw [← hibuf, ← hwritten] at hm
  exact .mk (.mk hm) _

/-! ### The commands' own changes -/

theorem DecompContext.Alike.latch {d d' : DecompContext} (h : d.Alike d') (e : Raised) :
    (d.latch e).Alike (d'.latch e) := by
  obtain ⟨hm⟩ := h
  exact .mk hm

theorem DecompContext.Alike.activate {d d' : DecompContext} (h : d.Alike d') :
    ({ d with dphase := .active } : DecompContext).Alike { d' with dphase := .active } := by
  obtain ⟨hm⟩ := h
  exact .mk hm

/-- After D.INIT no byte is written (R220). -/
theorem DecompContext.Alike.init {d d' : DecompContext} (h : d.Alike d') (len : Word32) :
    (d.init len).Alike (d'.init len) := by
  obtain ⟨hwf, hwf', -⟩ := h
  exact .mk ⟨hwf, hwf', fun a ha => absurd ha List.not_mem_nil⟩

/-- The byte loaded is the same one, and it is the only one that comes to be written (R221). -/
theorem DecompContext.Alike.load {d d' : DecompContext} (h : d.Alike d') (addr : Nat) (byte : Byte) :
    (d.load addr byte).Alike (d'.load addr byte) := by
  obtain @⟨m, hwf, hwf', hbytes⟩ := h
  refine .mk ⟨Memory.write_wf hwf _ _, Memory.write_wf hwf' _ _, fun a ha => ?_⟩
  rw [DecompContext.load_ibuf, Memory.read_write hwf]
  refine (Memory.read_write hwf' _ _ _).trans ?_
  refine ite_related (r := Eq) (p := a = addr) (fun _ => rfl) fun hne => hbytes a ?_
  exact (mem_markWritten.1 ha).resolve_left hne

end Sys2Proof.Machine
end

section
/-! The headline: what OBUF and IBUF held before never shows. -/

namespace Sys2Proof.Machine

/-- Two states that differ only in what their buffers do not show. -/
inductive State.Alike (s : State) : State → Prop where
  | mk {c : CompContext} {d : DecompContext} (hc : s.c.Alike c) (hd : s.d.Alike d) :
      Alike s { s with c := c, d := d }

/-! ### Ending a command -/

theorem State.Alike.respond {s s' : State} (h : s.Alike s') (k : Code) (v0 v1 : Word64) :
    (s.respond k v0 v1).Alike (s'.respond k v0 v1) := by
  obtain ⟨hc, hd⟩ := h
  exact .mk hc hd

theorem State.Alike.setC {s s' : State} (h : s.Alike s') {c c' : CompContext} (hc : c.Alike c') :
    ({ s with c := c } : State).Alike { s' with c := c' } := by
  obtain ⟨-, hd⟩ := h
  exact .mk hc hd

theorem State.Alike.setD {s s' : State} (h : s.Alike s') {d d' : DecompContext} (hd : d.Alike d') :
    ({ s with d := d } : State).Alike { s' with d := d' } := by
  obtain ⟨hc, -⟩ := h
  exact .mk hc hd

theorem State.Alike.raiseC {s s' : State} (h : s.Alike s') {c c' : CompContext} (hc : c.Alike c') (e : Raised) :
    (s.raiseC c e).Alike (s'.raiseC c' e) := (h.setC (hc.latch e)).respond _ _ _

theorem State.Alike.raiseD {s s' : State} (h : s.Alike s') {d d' : DecompContext} (hd : d.Alike d') (e : Raised) :
    (s.raiseD d e).Alike (s'.raiseD d' e) := (h.setD (hd.latch e)).respond _ _ _

theorem State.Alike.repeatC {s s' : State} (h : s.Alike s') : s.repeatC.Alike s'.repeatC := by
  obtain ⟨⟨hm⟩, hd⟩ := h
  exact .mk (.mk hm) hd

theorem State.Alike.repeatD {s s' : State} (h : s.Alike s') : s.repeatD.Alike s'.repeatD := by
  obtain ⟨hc, ⟨hm⟩⟩ := h
  exact .mk hc (.mk hm)

theorem gateC_alike {s s' run run' : State} {want : CPhase} (op : Byte) (h : s.Alike s') (hr : run.Alike run') :
    (s.gateC want op run).Alike (s'.gateC want op run') := by
  have hphase : s'.c.cphase = s.c.cphase := by
    obtain ⟨⟨-⟩, -⟩ := h
    rfl
  rw [State.gateC, State.gateC, hphase]
  exact ite_related (fun _ => h.repeatC) fun _ => ite_related (fun _ => hr) fun _ => h.respond _ _ _

/-! ### The commands -/

theorem pushElement_alike {s s' : State} (h : s.Alike s') (start stop : Word32) :
    (s.pushElement start stop).Alike (s'.pushElement start stop) := by
  have hs := h
  obtain @⟨c, d, hc, hd⟩ := h
  have hm := mergerAccept_alike hc start stop
  unfold State.pushElement
  dsimp only
  generalize mergerAccept start stop s.c = r, mergerAccept start stop c = r' at hm
  cases hm with
  | error e => exact hs.raiseC hc e
  | @ok c1 c1' h1 =>
    have hrun := runAutomaton_alike h1 s.params.granule
    dsimp only
    generalize runAutomaton s.params.granule c1 = q, runAutomaton s.params.granule c1' = q' at hrun
    obtain ⟨h2, _ | e⟩ := hrun
    · obtain ⟨h2⟩ := h2
      exact .mk (.mk h2) hd
    · exact hs.raiseC h2 e

theorem finish_alike {s s' : State} (h : s.Alike s') : s.finish.Alike s'.finish := by
  have hs := h
  obtain @⟨c, d, hc, hd⟩ := h
  have hrun := runAutomaton_alike (mergerEnd_alike hc) s.params.granule
  unfold State.finish
  dsimp only
  generalize runAutomaton s.params.granule (mergerEnd s.c) = q, runAutomaton s.params.granule (mergerEnd c) = q' at hrun
  obtain ⟨h2, _ | e⟩ := hrun
  · obtain ⟨h2⟩ := h2
    exact .mk (.mk h2) hd
  · exact hs.raiseC h2 e

theorem readOutput_alike {s s' : State} (h : s.Alike s') (addr : Word32) :
    (s.readOutput addr).Alike (s'.readOutput addr) := by
  have hbyte : s'.c.outByte (byteAddr addr) = s.c.outByte (byteAddr addr) := by
    obtain ⟨hc, -⟩ := h
    exact hc.outByte_eq _
  have hclen : s'.c.clen = s.c.clen := by
    obtain ⟨⟨-⟩, -⟩ := h
    rfl
  rw [State.readOutput, State.readOutput, hbyte, hclen]
  exact ite_related (fun _ => h.respond _ _ _) fun _ => h.respond _ _ _

theorem loadByte_alike {s s' : State} (h : s.Alike s') (addr : Word32) (byte : Byte) :
    (s.loadByte addr byte).Alike (s'.loadByte addr byte) := by
  have hs := h
  obtain ⟨hc, ⟨hm⟩⟩ := h
  exact ite_related (fun _ => hs.respond _ _ _) fun _ => (hs.setD (DecompContext.Alike.load (.mk hm) _ _)).respond _ _ _

theorem decodeRange_alike {s s' : State} (h : s.Alike s') {d d' : DecompContext} (hd : d.Alike d')
    (hw : ∀ a < d.ilen.toNat, a ∈ d.written) : (s.decodeRange d).Alike (s'.decodeRange d') := by
  have hn := decodeNext_alike hd hw
  unfold State.decodeRange
  generalize decodeNext d = r, decodeNext d' = r' at hn
  obtain ⟨h2, r | _ | e⟩ := hn
  · exact (h.setD h2).respond _ _ _
  · exact (h.setD h2).respond _ _ _
  · exact h.raiseD h2 e

/-- Decoding begins alike, for it begins only with every byte of the stream written (R44, R224). -/
theorem startDecode_alike {s s' : State} (h : s.Alike s') : s.startDecode.Alike s'.startDecode := by
  have hfirst : firstUnwritten s'.d.written s'.d.ilen.toNat 0 = firstUnwritten s.d.written s.d.ilen.toNat 0 := by
    obtain ⟨-, ⟨-⟩⟩ := h
    rfl
  have hd : s.d.Alike s'.d := by
    obtain ⟨-, hd⟩ := h
    exact hd
  rw [State.startDecode, State.startDecode, hfirst]
  cases hf : firstUnwritten s.d.written s.d.ilen.toNat 0 with
  | some a => exact h.raiseD hd _
  | none =>
    have hw : ∀ a < s.d.ilen.toNat, a ∈ s.d.written := fun a ha =>
      firstUnwritten_eq_none.1 hf a (Nat.zero_le a) (by omega)
    exact decodeRange_alike h hd.activate hw

theorem view_alike {s s' : State} (h : s.Alike s') (index : Byte) : s'.view index = s.view index := by
  obtain ⟨⟨-⟩, ⟨-⟩⟩ := h
  rfl

/-- Alike states in order answer every command alike. -/
theorem after_alike {s s' : State} (hs : s.Inv) (h : s.Alike s') (i : Instr) : (s.after i).Alike (s'.after i) := by
  have ha := h
  obtain @⟨c, d, hc, hd⟩ := h
  have hphase : d.dphase = s.d.dphase := by
    cases hd
    rfl
  cases i with
  | cInit maxsize =>
    exact ite_related (fun _ => ha.respond _ _ _) fun _ => (ha.setC (hc.init maxsize)).respond _ _ _
  | cPush start stop => exact gateC_alike _ ha (pushElement_alike ha start stop)
  | cFinish => exact gateC_alike _ ha (finish_alike ha)
  | cRdbyte addr => exact gateC_alike _ ha (readOutput_alike ha addr)
  | nop => exact ha.respond _ _ _
  | dInit len => exact ite_related (fun _ => ha.respond _ _ _) fun _ => (ha.setD (hd.init len)).respond _ _ _
  | dLoad addr byte =>
    simp only [State.after, exec, execDLoad, hphase]
    cases s.d.dphase with
    | ready => exact loadByte_alike ha addr byte
    | error => exact ha.repeatD
    | _ => exact ha.respond _ _ _
  | dNext =>
    obtain ⟨-, -, -, -, ⟨-, hwritten, -⟩, -⟩ := hs
    simp only [State.after, exec, execDNext, hphase]
    cases hp : s.d.dphase with
    | ready => exact startDecode_alike ha
    | active => exact decodeRange_alike ha hd (hwritten (.inl hp))
    | error => exact ha.repeatD
    | _ => exact ha.respond _ _ _
  | rdreg index =>
    simp only [State.after, exec, execRdreg, view_alike ha]
    cases s.view index with
    | some v => exact ha.respond _ _ _
    | none => exact ha.respond _ _ _

/-- Alike states in order answer any commands with the same responses, by induction on the commands. -/
theorem responses_alike {s s' : State} (hs : s.Inv) (h : s.Alike s') (is : List Instr) :
    s'.responses is = s.responses is := by
  induction is generalizing s s' with
  | nil => rfl
  | cons i is ih =>
    have ha := after_alike hs h i
    have hresp : (s'.after i).resp = (s.after i).resp := by
      generalize s.after i = t, s'.after i = t' at ha
      cases ha
      rfl
    rw [State.responses, State.responses, hresp, ih (State.after_inv hs i) ha]

/-- Settles O53: with no stream bit and no input byte written, states that differ in the memories alone are alike, and
alike states answer every command alike. -/
theorem oldContentsNeverShow : Obligations.OldContentsNeverShow := by
  intro s obuf ibuf is hs hbits hwritten hobuf hibuf
  have hwf : s.c.obuf.Wf ∧ s.d.ibuf.Wf := by
    obtain ⟨-, ⟨-, -, -, ⟨-, -, -, -, hc, -⟩, -⟩, -, -, -, -, -, -, hd, -⟩ := hs
    exact ⟨hc, hd⟩
  obtain ⟨hwfc, hwfd⟩ := hwf
  have hc : s.c.Alike (s.c.withObuf obuf) := .mk ⟨hwfc, hobuf, by simp [hbits]⟩
  have hd : s.d.Alike (s.d.withIbuf ibuf) := .mk ⟨hwfd, hibuf, by simp [hwritten]⟩
  exact responses_alike hs (.mk hc hd) is

end Sys2Proof.Machine
end

section
/-! SUPPORT. How a command ends: past its phase gate or with an answer alone, and in the words of a response
(00_scope.md R15, 44_compress_commands.md R201, 60_exceptions.md R257). -/

namespace Sys2Proof.Machine

/-- The gate of a compression command lets it run or only answers (R201). -/
theorem gateC_runs_or_answers (s run : State) (want : CPhase) (op : Byte) :
    s.gateC want op run = run ∨ ∃ r, s.gateC want op run = { s with resp := some r } := by
  unfold State.gateC
  split
  · exact .inr ⟨_, rfl⟩
  · split
    · exact .inl rfl
    · exact .inr ⟨_, rfl⟩

/-- In the phase it wants, a compression command runs (R201). -/
theorem gateC_of_phase {s : State} {want : CPhase} (op : Byte) (run : State) (hp : s.c.cphase = want)
    (hne : want ≠ .error) : s.gateC want op run = run := by
  rw [State.gateC, if_neg (by rwa [hp]), if_pos hp]

theorem readOutput_c (s : State) (addr : Word32) : (s.readOutput addr).c = s.c := by
  unfold State.readOutput
  split
  · exact State.refuse_c _ _
  · exact State.respondOk_c _ _ _

end Sys2Proof.Machine
end

section
/-! What C.PUSH and C.FINISH store in OBUF (20_memory.md R60, R61, 43_bitstream.md R181). -/

namespace Sys2Proof.Machine

/-! ### Appending to the stream -/

/-- The second context comes from the first one by appending bits to the stream: OBUF differs at most in the bytes that hold
the new bits, and there the earlier bits stay. -/
structure CompContext.Appended (c c' : CompContext) : Prop where
  grows : c.bitlen.toNat ≤ c'.bitlen.toNat
  bytes : ∀ a, a < c.bitlen.toNat / 8 ∨ c'.bitlen.toNat ≤ 8 * a → c'.obuf.read a = c.obuf.read a
  stays : c'.bitlen = c.bitlen → c'.obuf = c.obuf
  wf : c.obuf.Wf → c'.obuf.Wf
  bits : c.obuf.Wf → ∀ j < c.bitlen.toNat, c'.cbit j = c.cbit j

/-- Where neither OBUF nor `C.bitlen` is written, no bit is appended. -/
theorem CompContext.Appended.of_eq {c c' : CompContext} (ho : c'.obuf = c.obuf) (hb : c'.bitlen = c.bitlen) :
    c.Appended c' where
  grows := by rw [hb]
  bytes _ _ := by rw [ho]
  stays _ := ho
  wf h := by rwa [ho]
  bits _ _ _ := by rw [CompContext.cbit, CompContext.cbit, ho]

theorem CompContext.Appended.trans {c c' c'' : CompContext} (h : c.Appended c') (h' : c'.Appended c'') :
    c.Appended c'' := by
  have hgrows := h.grows
  have hgrows' := h'.grows
  refine ⟨by omega, fun a ha => ?_, fun heq => ?_, fun hw => h'.wf (h.wf hw), fun hw j hj => ?_⟩
  · rw [h'.bytes a (by omega), h.bytes a (by omega)]
  · have hmid : c'.bitlen = c.bitlen := BitVec.eq_of_toNat_eq (by rw [heq] at hgrows'; omega)
    rw [h'.stays (heq.trans hmid.symm), h.stays hmid]
  · rw [h'.bits (h.wf hw) j (by omega), h.bits hw j hj]

/-! ### The encoder, the automaton and range_merger -/

/-- Encoding an integer appends its codeword, which is not empty, so `C.bitlen` moves (R160, R181). -/
theorem gammaEncode_appended {g : Config.Granule} {x : Nat} {c c' : CompContext} (h : gammaEncode g x c = .ok c') :
    c.Appended c' := by
  obtain ⟨-, hfits, rfl⟩ := gammaEncode_ok h
  have hlt := bitlen_lt_of_required hfits
  have hlen := bitAppend_bitlen x (codewordLength x) c hlt
  have hpos : 0 < codewordLength x := Nat.succ_pos _
  refine ⟨?_, fun a ha => ?_, fun heq => ?_, bitAppend_wf x _, fun hw j hj => ?_⟩
  · show c.bitlen.toNat ≤ (bitAppend x (codewordLength x) c).bitlen.toNat
    omega
  · exact bitAppend_read x _ hlt (ha.imp_right fun ha => hlen ▸ ha)
  · have hsame : (bitAppend x (codewordLength x) c).bitlen = c.bitlen := heq
    rw [hsame] at hlen
    omega
  · exact (bitAppend_cbit x _ hw hlt j).trans (if_neg (by omega))

/-- A step of the automaton appends a codeword or leaves the stream (R132 to R138, R140). -/
theorem AutoMove.appended {g : Config.Granule} {c c' : CompContext} (h : AutoMove g c c') : c.Appended c' := by
  cases h with
  | sync hp hr ha he => exact (gammaEncode_appended he).trans (.of_eq rfl rfl)
  | unsync hp hr ha he => exact (gammaEncode_appended he).trans (.of_eq rfl rfl)
  | _ => exact .of_eq rfl rfl

theorem runAutomaton_appended {g : Config.Granule} {c c' : CompContext} {o : Option Raised}
    (h : runAutomaton g c = (c', o)) : c.Appended c' := by
  have hkeeps := runAutomaton_keeps (g := g) (P := c.Appended) (fun _ _ hx hm => hx.trans hm.appended) (.of_eq rfl rfl)
  rwa [h] at hkeeps

theorem Accepted.appended {c c1 : CompContext} {start stop : Word32} (ha : Accepted c start stop c1) : c.Appended c1 :=
  .of_eq (congrArg (·.obuf) ha.frame) (congrArg (·.bitlen) ha.frame)

theorem mergerEnd_appended (c : CompContext) : c.Appended (mergerEnd c) :=
  .of_eq (congrArg (·.obuf) (mergerEnd_frame c)) (congrArg (·.bitlen) (mergerEnd_frame c))

/-! ### The commands -/

theorem pushElement_appended (s : State) (start stop : Word32) : s.c.Appended (s.pushElement start stop).c := by
  unfold State.pushElement
  split
  next e _ => exact .of_eq rfl rfl
  next c1 ha =>
    have haccept := (mergerAccept_ok.1 ha).appended
    split
    next c2 e hr => exact (haccept.trans (runAutomaton_appended hr)).trans (.of_eq rfl rfl)
    next c2 hr => exact haccept.trans (runAutomaton_appended hr)

theorem finish_appended (s : State) : s.c.Appended s.finish.c := by
  unfold State.finish
  split
  next c2 e hr => exact ((mergerEnd_appended s.c).trans (runAutomaton_appended hr)).trans (.of_eq rfl rfl)
  next c2 hr => exact ((mergerEnd_appended s.c).trans (runAutomaton_appended hr)).trans (.of_eq rfl rfl)

theorem gateC_appended {s run : State} (want : CPhase) (op : Byte) (h : s.c.Appended run.c) :
    s.c.Appended (s.gateC want op run).c := by
  rcases gateC_runs_or_answers s run want op with hg | ⟨r, hg⟩
  · rwa [hg]
  · rw [hg]
    exact .of_eq rfl rfl

/-- C.PUSH and C.FINISH only append to the stream, whether they complete, raise, refuse or repeat (R201 to R206). -/
theorem exec_appended {s t : State} {i : Instr} (hi : i.op ∈ ([0x02, 0x03] : List Byte)) (h : exec i s = .next t) :
    s.c.Appended t.c := by
  cases i with
  | cPush start stop =>
    cases h
    exact gateC_appended _ _ (pushElement_appended s start stop)
  | cFinish =>
    cases h
    exact gateC_appended _ _ (finish_appended s)
  | _ => exact absurd hi (by simp [Instr.op])

/-- Settles O30: every step of the two commands appends to the stream or leaves it, and appending composes. -/
theorem outputStoresStayInTheirBytes : Obligations.OutputStoresStayInTheirBytes := by
  intro s t i hi h
  obtain ⟨hgrows, hbytes, hstays, -, hbits⟩ := exec_appended hi h
  exact ⟨hgrows, hbytes, fun heq a => by rw [hstays heq], hbits⟩

end Sys2Proof.Machine
end

section
/-! What the other commands store in OBUF and IBUF (20_memory.md R60, R63). -/

namespace Sys2Proof.Machine

/-! ### OBUF -/

/-- Every command but C.PUSH and C.FINISH leaves OBUF (R60; for C.INIT log 11). -/
theorem exec_keeps_obuf {s t : State} {i : Instr} (hi : i.op ∉ ([0x02, 0x03] : List Byte)) (h : exec i s = .next t) :
    t.c.obuf = s.c.obuf := by
  have hdecomp (hd : i.op ∈ ([0x11, 0x12, 0x13] : List Byte)) : t.c.obuf = s.c.obuf := by
    obtain ⟨u, hu, hc, -⟩ := decompression_independent hd s s.c
    cases h.symm.trans hu
    rw [hc]
  cases i with
  | cInit maxsize =>
    cases h
    split <;> rfl
  | cPush start stop => exact absurd hi (by simp [Instr.op])
  | cFinish => exact absurd hi (by simp [Instr.op])
  | cRdbyte addr =>
    cases h
    rcases gateC_runs_or_answers s (s.readOutput addr) .done (Instr.cRdbyte addr).op with hg | ⟨r, hg⟩
    · rw [hg, readOutput_c]
    · rw [hg]
  | nop => cases h; rfl
  | dInit len => exact hdecomp (by simp [Instr.op])
  | dLoad addr byte => exact hdecomp (by simp [Instr.op])
  | dNext => exact hdecomp (by simp [Instr.op])
  | rdreg index =>
    obtain ⟨r, hr⟩ := rdreg_answers index s
    cases h.symm.trans hr
    rfl

/-! ### IBUF -/

theorem decodeRange_ibuf (s : State) (d0 : DecompContext) : (s.decodeRange d0).d.ibuf = d0.ibuf := by
  unfold State.decodeRange
  split
  next d' r hd => exact (decodeNext_keeps_ibuf hd).1
  next d' hd => exact (decodeNext_keeps_ibuf hd).1
  next d' e hd => exact (decodeNext_keeps_ibuf hd).1

theorem startDecode_ibuf (s : State) : s.startDecode.d.ibuf = s.d.ibuf := by
  unfold State.startDecode
  split
  next a _ => rfl
  next _ => exact decodeRange_ibuf s _

theorem loadByte_read_other (s : State) {addr : Word32} (byte : Byte) {a : Nat} (ha : a ≠ addr.toNat) :
    (s.loadByte addr byte).d.ibuf.read a = s.d.ibuf.read a := by
  unfold State.loadByte
  split
  · rfl
  · exact Memory.read_write_other s.d.ibuf byte ha

/-- A byte of IBUF at an address that no D.LOAD gives is as before (R63, R220, R221). -/
theorem exec_read_ibuf {s t : State} {i : Instr} (h : exec i s = .next t) {a : Nat}
    (ha : ∀ (addr : Word32) (byte : Byte), i = .dLoad addr byte → a ≠ addr.toNat) :
    t.d.ibuf.read a = s.d.ibuf.read a := by
  have hcomp (hc : i.op ∈ ([0x01, 0x02, 0x03, 0x04] : List Byte)) : t.d.ibuf.read a = s.d.ibuf.read a := by
    obtain ⟨u, hu, hd, -⟩ := compression_independent hc s s.d
    cases h.symm.trans hu
    rw [hd]
  cases i with
  | cInit maxsize => exact hcomp (by simp [Instr.op])
  | cPush start stop => exact hcomp (by simp [Instr.op])
  | cFinish => exact hcomp (by simp [Instr.op])
  | cRdbyte addr => exact hcomp (by simp [Instr.op])
  | nop => cases h; rfl
  | dInit len =>
    cases h
    split <;> rfl
  | dLoad addr byte =>
    cases h
    split
    next => exact loadByte_read_other s byte (ha addr byte rfl)
    all_goals rfl
  | dNext =>
    cases h
    split
    next => rfl
    next => rw [startDecode_ibuf]
    next => rw [decodeRange_ibuf]
    all_goals rfl
  | rdreg index =>
    obtain ⟨r, hr⟩ := rdreg_answers index s
    cases h.symm.trans hr
    rfl

/-- Settles O31: command by command, the context of the other buffer by independence. -/
theorem otherCommandsStoreNothingElse : Obligations.OtherCommandsStoreNothingElse :=
  fun _ _ _ h => ⟨fun hi a => by rw [exec_keeps_obuf hi h], fun _ ha => exec_read_ibuf h ha⟩

end Sys2Proof.Machine
end

section
/-! What D.LOAD writes past its gate (45_decompress_commands.md R221). -/

namespace Sys2Proof.Machine

theorem exec_dLoad_of_ready {s : State} (hp : s.d.dphase = .ready) (addr : Word32) (byte : Byte) :
    exec (.dLoad addr byte) s = .next (s.loadByte addr byte) := by
  show execDLoad addr byte s = _
  rw [execDLoad, hp]

theorem loadByte_beyond {s : State} {addr : Word32} (byte : Byte) (h : s.d.ilen.toNat ≤ addr.toNat) :
    s.loadByte addr byte = s.refuse 0x12 := if_pos h

theorem loadByte_below {s : State} {addr : Word32} (byte : Byte) (h : addr.toNat < s.d.ilen.toNat) :
    s.loadByte addr byte = { s with d := s.d.load addr.toNat byte }.respondOk 0 0 := if_neg (Nat.not_le.2 h)

/-- Settles O33: the two sides of `D.ilen`, and below it what a write and a mark do. -/
theorem dLoadWritesOneByte : Obligations.DLoadWritesOneByte := by
  intro s addr byte hw hp
  rw [exec_dLoad_of_ready hp]
  refine ⟨fun h => ?_, fun h => ?_⟩
  · rw [loadByte_beyond byte h]
    rfl
  · rw [loadByte_below byte h]
    exact ⟨s.d.ibuf.write addr.toNat byte, markWritten s.d.written addr.toNat, rfl, Memory.read_write_same hw _ _,
      fun a ha => Memory.read_write_other _ _ ha, fun a => mem_markWritten⟩

end Sys2Proof.Machine
end

section
/-! The output byte and C.RDBYTE (20_memory.md R62, 44_compress_commands.md R208). -/

namespace Sys2Proof.Machine

/-! ### Packing bits into a byte -/

/-- The bits `f 0`, …, `f (n - 1)` packed into a byte from the most significant end, the sum of R62. -/
def packedBits (f : Nat → Bool) (n : Nat) : Byte :=
  (List.range n).foldl (fun acc t => acc + ((flagBit (f t)).setWidth 8 <<< (7 - t))) 0

theorem packedBits_succ (f : Nat → Bool) (n : Nat) :
    packedBits f (n + 1) = packedBits f n + ((flagBit (f n)).setWidth 8 <<< (7 - n)) := by
  rw [packedBits, List.range_succ, List.foldl_append]
  rfl

theorem flagBit_shiftLeft_getLsbD (b : Bool) {k i : Nat} (hi : i < 8) :
    ((flagBit b).setWidth 8 <<< k : Byte).getLsbD i = (decide (i = k) && b) := by
  have hflag : ∀ j, (flagBit b).getLsbD j = (decide (j = 0) && b) := fun j => BitVec.getLsbD_ofBool b j
  rw [BitVec.getLsbD_shiftLeft, BitVec.getLsbD_setWidth, hflag]
  by_cases hik : i < k
  · simp [hi, hik, Nat.ne_of_lt hik]
  · have hsub : i - k < 8 := by omega
    have heq : i - k = 0 ↔ i = k := by omega
    simp [hi, hik, hsub, heq]

/-- Each summand has its own place, so the sum holds the bits packed so far and 0 below them. -/
theorem packedBits_getLsbD (f : Nat → Bool) {n : Nat} (hn : n ≤ 8) {t : Nat} (ht : t < 8) :
    (packedBits f n).getLsbD (7 - t) = (decide (t < n) && f t) := by
  induction n generalizing t with
  | zero => simp [packedBits]
  | succ n ih =>
    have hplace {u : Nat} (hu : u < 8) :
        ((flagBit (f n)).setWidth 8 <<< (7 - n) : Byte).getLsbD (7 - u) = (decide (u = n) && f n) := by
      rw [flagBit_shiftLeft_getLsbD _ (by omega), decide_eq_decide.2 (by omega : 7 - u = 7 - n ↔ u = n)]
    have hdisjoint : packedBits f n &&& ((flagBit (f n)).setWidth 8 <<< (7 - n)) = 0#8 := by
      refine BitVec.eq_of_getLsbD_eq fun i hi => ?_
      have hu : 7 - (7 - i) = i := by omega
      rw [BitVec.getLsbD_and, ← hu, ih (by omega) (by omega), hplace (by omega)]
      by_cases hlast : 7 - i = n
      · simp [hlast]
      · simp [hlast]
    rw [packedBits_succ, BitVec.add_eq_or_of_and_eq_zero _ _ hdisjoint, BitVec.getLsbD_or, ih (by omega) ht, hplace ht]
    rcases Nat.lt_trichotomy t n with h | rfl | h
    · simp [h, Nat.lt_succ_of_lt h, Nat.ne_of_lt h]
    · simp
    · simp [Nat.not_lt_of_lt h, Nat.ne_of_gt h, Nat.not_lt.2 (Nat.succ_le_of_lt h)]

/-! ### The output byte (R62) -/

theorem outByte_eq_packedBits (c : CompContext) (j : Nat) :
    c.outByte j = packedBits (fun t => c.outBit (8 * j + t)) 8 := rfl

theorem outByte_getLsbD (c : CompContext) (j : Nat) {t : Nat} (ht : t < 8) :
    (c.outByte j).getLsbD (7 - t) = c.outBit (8 * j + t) := by
  rw [outByte_eq_packedBits, packedBits_getLsbD _ (Nat.le_refl 8) ht, decide_eq_true ht, Bool.true_and]

/-- A stream bit of a byte is a bit of that byte, and 0 from `C.bitlen` on. -/
theorem outBit_eq_read (c : CompContext) (j : Nat) {t : Nat} (ht : t < 8) :
    c.outBit (8 * j + t) = (decide (8 * j + t < c.bitlen.toNat) && (c.obuf.read j).getLsbD (7 - t)) := by
  have hbyte : (8 * j + t) / 8 = j := by omega
  have hplace : (8 * j + t) % 8 = t := by omega
  rw [CompContext.outBit, CompContext.cbit, Memory.streamBit, hbyte, hplace]
  by_cases h : 8 * j + t < c.bitlen.toNat
  · simp [h]
  · simp [h]

/-! ### C.RDBYTE (R208) -/

theorem exec_cRdbyte_of_done {s : State} (hp : s.c.cphase = .done) (addr : Word32) :
    exec (.cRdbyte addr) s = .next (s.readOutput addr) :=
  congrArg Host.Outcome.next (gateC_of_phase _ _ hp (by simp))

theorem readOutput_beyond {s : State} {addr : Word32} (h : s.c.clen.toNat ≤ addr.toNat) :
    s.readOutput addr = s.refuse 0x04 := if_pos h

theorem readOutput_below {s : State} {addr : Word32} (h : addr.toNat < s.c.clen.toNat) :
    s.readOutput addr = s.respondOk ((s.c.outByte addr.toNat).setWidth 64) 0 := if_neg (Nat.not_le.2 h)

/-- Settles O26: the two sides of `C.clen`, and below it the bits of the output byte. -/
theorem rdbyteReadsTheOutput : Obligations.RdbyteReadsTheOutput := by
  intro s addr hp
  rw [exec_cRdbyte_of_done hp]
  refine ⟨fun h => ?_, fun h => ?_⟩
  · rw [readOutput_beyond h]
    rfl
  · rw [readOutput_below h]
    refine ⟨s.c.outByte addr.toNat, rfl, fun t ht => ?_⟩
    rw [outByte_getLsbD s.c _ ht, outBit_eq_read s.c _ ht]

end Sys2Proof.Machine
end

section
/-! SUPPORT. The fields of a command word, and what the decoder answers for each opcode (30_encoding.md R80 to R88). -/

namespace Sys2Proof

/-! ### The fields of a word (R80) -/

@[simp] theorem opField_mkWord (op : Byte) (a b : Word32) : opField (mkWord op a b) = op := by
  rw [opField, mkWord, BitVec.append_assoc, BitVec.extractLsb'_cast]
  exact BitVec.extractLsb'_append_eq_left

@[simp] theorem aField_mkWord (op : Byte) (a b : Word32) : aField (mkWord op a b) = a := by
  rw [aField, mkWord, BitVec.extractLsb'_append_eq_of_le (Nat.le_refl 32)]
  exact BitVec.extractLsb'_append_eq_right

@[simp] theorem bField_mkWord (op : Byte) (a b : Word32) : bField (mkWord op a b) = b :=
  BitVec.extractLsb'_append_eq_right

theorem mkWord_fields (w : CmdWord) : mkWord (opField w) (aField w) (bField w) = w := by
  have hopA : opField w ++ aField w = w.extractLsb' 32 40 := BitVec.extractLsb'_append_extractLsb'_eq_extractLsb' rfl
  have hword : w.extractLsb' 32 40 ++ bField w = w.extractLsb' 0 72 :=
    BitVec.extractLsb'_append_extractLsb'_eq_extractLsb' rfl
  rw [mkWord, hopA, hword, BitVec.extractLsb'_eq_self]

theorem mkWord_inj {op op' : Byte} {a a' b b' : Word32} :
    mkWord op a b = mkWord op' a' b' ↔ op = op' ∧ a = a' ∧ b = b' := by
  refine ⟨fun h => ⟨?_, ?_, ?_⟩, fun ⟨hop, ha, hb⟩ => by rw [hop, ha, hb]⟩
  · simpa using congrArg opField h
  · simpa using congrArg aField h
  · simpa using congrArg bField h

/-! ### A byte in an operand (R82): the 24 bits above it are reserved -/

theorem lowByte_setWidth (v : Byte) : (v.setWidth 32).extractLsb' 0 8 = v := by
  rw [BitVec.extractLsb'_setWidth_of_le (by decide), BitVec.extractLsb'_eq_self]

theorem highBits_setWidth (v : Byte) : (v.setWidth 32).extractLsb' 8 24 = 0 := by
  revert v; decide

theorem setWidth_lowByte {x : Word32} (h : x.extractLsb' 8 24 = 0) : (x.extractLsb' 0 8).setWidth 32 = x := by
  have hhigh : x.toNat / 256 % 2 ^ 24 = 0 := by simpa [Nat.shiftRight_eq_div_pow] using congrArg BitVec.toNat h
  apply BitVec.eq_of_toNat_eq
  rw [BitVec.toNat_setWidth, BitVec.extractLsb'_toNat, Nat.shiftRight_zero]
  omega

/-! ### The decoder, opcode by opcode (R86 to R88) -/

/-- The opcodes of the table of R86; every other OP is reserved (R87). -/
def definedOpcodes : List Byte := [0x01, 0x02, 0x03, 0x04, 0x0F, 0x11, 0x12, 0x13, 0x20]

theorem decode_of_reserved_op {w : CmdWord} (h : opField w ∉ definedOpcodes) :
    decode w = .error (.reservedOpcode (opField w)) := by
  simp only [definedOpcodes, List.mem_cons, List.not_mem_nil, not_or] at h
  obtain ⟨h01, h02, h03, h04, h0F, h11, h12, h13, h20, -⟩ := h
  rw [decode, if_neg h01, if_neg h02, if_neg h03, if_neg h04, if_neg h0F, if_neg h11, if_neg h12, if_neg h13, if_neg h20]

variable (a b : Word32)

theorem decode_cInit : decode (mkWord 0x01 a b) = checked (b == 0) 0x01 (.cInit a) := by simp [decode]

theorem decode_cPush : decode (mkWord 0x02 a b) = .ok (.cPush a b) := by simp [decode]

theorem decode_cFinish : decode (mkWord 0x03 a b) = checked (a == 0 && b == 0) 0x03 .cFinish := by simp [decode]

theorem decode_cRdbyte : decode (mkWord 0x04 a b) = checked (b == 0) 0x04 (.cRdbyte a) := by simp [decode]

theorem decode_nop : decode (mkWord 0x0F a b) = checked (a == 0 && b == 0) 0x0F .nop := by simp [decode]

theorem decode_dInit : decode (mkWord 0x11 a b) = checked (b == 0) 0x11 (.dInit a) := by simp [decode]

theorem decode_dLoad :
    decode (mkWord 0x12 a b) = checked (b.extractLsb' 8 24 == 0) 0x12 (.dLoad a (b.extractLsb' 0 8)) := by simp [decode]

theorem decode_dNext : decode (mkWord 0x13 a b) = checked (a == 0 && b == 0) 0x13 .dNext := by simp [decode]

theorem decode_rdreg :
    decode (mkWord 0x20 a b) = checked (a.extractLsb' 8 24 == 0 && b == 0) 0x20 (.rdreg (a.extractLsb' 0 8)) := by
  simp [decode]

end Sys2Proof
end

section
/-! The headline of the encoding: a word decodes to a command exactly if it is that command's word (30_encoding.md R80 to
R82, R86, R88), and the words that decode are those of spec/opcode_table.json. -/

namespace Sys2Proof.Machine

theorem checked_eq_ok {ok : Bool} {op : Byte} {i j : Instr} : checked ok op i = .ok j ↔ ok = true ∧ i = j := by
  cases ok <;> simp [checked]

theorem decode_encode (i : Instr) : decode (encode i) = .ok i := by
  cases i with
  | cInit maxsize => exact decode_cInit maxsize 0
  | cPush start stop => exact decode_cPush start stop
  | cFinish => exact decode_cFinish 0 0
  | cRdbyte addr => exact decode_cRdbyte addr 0
  | nop => exact decode_nop 0 0
  | dInit len => exact decode_dInit len 0
  | dLoad addr byte => rw [encode, decode_dLoad, highBits_setWidth, lowByte_setWidth]; rfl
  | dNext => exact decode_dNext 0 0
  | rdreg index => rw [encode, decode_rdreg, highBits_setWidth, lowByte_setWidth]; rfl

/-- Opcode by opcode: the check of the reserved bits leaves only the word the encoder writes. -/
theorem eq_encode_of_decode {w : CmdWord} {i : Instr} (h : decode w = .ok i) : w = encode i := by
  have hop : opField w ∈ definedOpcodes := by
    by_contra hop
    cases (decode_of_reserved_op hop).symm.trans h
  rw [← mkWord_fields w] at h ⊢
  generalize opField w = op, aField w = a, bField w = b at h hop ⊢
  simp only [definedOpcodes, List.mem_cons, List.not_mem_nil, or_false] at hop
  rcases hop with rfl | rfl | rfl | rfl | rfl | rfl | rfl | rfl | rfl <;>
    simp only [decode_cInit, decode_cPush, decode_cFinish, decode_cRdbyte, decode_nop, decode_dInit, decode_dLoad,
      decode_dNext, decode_rdreg, checked_eq_ok, Except.ok.injEq, Bool.and_eq_true, beq_iff_eq] at h
  · obtain ⟨rfl, rfl⟩ := h; rfl
  · obtain rfl := h; rfl
  · obtain ⟨⟨rfl, rfl⟩, rfl⟩ := h; rfl
  · obtain ⟨rfl, rfl⟩ := h; rfl
  · obtain ⟨⟨rfl, rfl⟩, rfl⟩ := h; rfl
  · obtain ⟨rfl, rfl⟩ := h; rfl
  · obtain ⟨hb, rfl⟩ := h; rw [encode, setWidth_lowByte hb]
  · obtain ⟨⟨rfl, rfl⟩, rfl⟩ := h; rfl
  · obtain ⟨⟨ha, rfl⟩, rfl⟩ := h; rw [encode, setWidth_lowByte ha]

/-- Settles O1: the encoder's word of each command decodes to it, and no other word does. -/
theorem encodeAndDecodeAgree : Obligations.EncodeAndDecodeAgree := by
  refine fun w i => ⟨fun h => ⟨instr_wf i, eq_encode_of_decode h⟩, ?_⟩
  rintro ⟨-, rfl⟩
  exact decode_encode i

/-- Settles O3: each word is the one the encoder writes. -/
theorem specWordsDecode : Obligations.SpecWordsDecode :=
  ⟨decode_encode (.cInit 16777216), decode_encode (.cPush 3 7), decode_encode .cFinish, decode_encode (.cRdbyte 2),
    decode_encode .nop, decode_encode (.dInit 9), decode_encode (.dLoad 4 0x7F), decode_encode .dNext,
    decode_encode (.rdreg 0x1F)⟩

/-! ### The table -/

theorem eq_zero_of_and_all {x : Word32} (h : x &&& 0xFFFFFFFF = 0) : x = 0 :=
  BitVec.and_allOnes.symm.trans h

theorem highBits_of_and {x : Word32} (h : x &&& 0xFFFFFF00 = 0) : x.extractLsb' 8 24 = 0 := by
  have hhigh : x.extractLsb' 8 24 &&& BitVec.allOnes 24 = 0 := by
    simpa [BitVec.extractLsb'_and] using congrArg (BitVec.extractLsb' 8 24) h
  rwa [BitVec.and_allOnes] at hhigh

/-- A row's bits under its mask, field by field. -/
theorem and_mask_eq {op op' : Byte} {a a' b b' : Word32} :
    mkWord op a b &&& mkWord 0xFF a' b' = mkWord op' 0 0 ↔ op = op' ∧ a &&& a' = 0 ∧ b &&& b' = 0 := by
  rw [Laws.mkWord_and, mkWord_inj, show op &&& 0xFF = op from BitVec.and_allOnes]

theorem encode_mem_opcodeTable (i : Instr) : ∃ r ∈ opcodeTable, encode i &&& r.mask = r.pattern := by
  have hok : wordOk (encode i) = true := by
    cases i with
    | cInit maxsize => exact Laws.EncodedWordOk.cInit maxsize
    | cPush start stop => exact Laws.EncodedWordOk.cPush start stop
    | cFinish => exact Laws.EncodedWordOk.cFinish
    | cRdbyte addr => exact Laws.EncodedWordOk.cRdbyte addr
    | nop => exact Laws.EncodedWordOk.nop
    | dInit len => exact Laws.EncodedWordOk.dInit len
    | dLoad addr byte => exact Laws.EncodedWordOk.dLoad addr byte
    | dNext => exact Laws.EncodedWordOk.dNext
    | rdreg index => exact Laws.EncodedWordOk.rdreg index
  simpa [wordOk] using hok

/-- The table with its patterns and masks in the fields of R80. -/
theorem opcodeTable_eq : opcodeTable =
    [ ⟨"C.INIT", mkWord 0x01 0 0, mkWord 0xFF 0 0xFFFFFFFF⟩, ⟨"C.PUSH", mkWord 0x02 0 0, mkWord 0xFF 0 0⟩,
      ⟨"C.FINISH", mkWord 0x03 0 0, mkWord 0xFF 0xFFFFFFFF 0xFFFFFFFF⟩,
      ⟨"C.RDBYTE", mkWord 0x04 0 0, mkWord 0xFF 0 0xFFFFFFFF⟩,
      ⟨"NOP", mkWord 0x0F 0 0, mkWord 0xFF 0xFFFFFFFF 0xFFFFFFFF⟩,
      ⟨"D.INIT", mkWord 0x11 0 0, mkWord 0xFF 0 0xFFFFFFFF⟩, ⟨"D.LOAD", mkWord 0x12 0 0, mkWord 0xFF 0 0xFFFFFF00⟩,
      ⟨"D.NEXT", mkWord 0x13 0 0, mkWord 0xFF 0xFFFFFFFF 0xFFFFFFFF⟩,
      ⟨"RDREG", mkWord 0x20 0 0, mkWord 0xFF 0xFFFFFF00 0xFFFFFFFF⟩ ] := by decide

/-- Row by row: the bits the mask leaves free are the operands of the row's command. -/
theorem eq_encode_of_row {w : CmdWord} {r : OpcodeRow} (hr : r ∈ opcodeTable) (hw : w &&& r.mask = r.pattern) :
    ∃ i, w = encode i := by
  rw [← mkWord_fields w] at hw ⊢
  generalize opField w = op, aField w = a, bField w = b at hw ⊢
  simp only [opcodeTable_eq, List.mem_cons, List.not_mem_nil, or_false] at hr
  rcases hr with rfl | rfl | rfl | rfl | rfl | rfl | rfl | rfl | rfl <;>
    obtain ⟨rfl, ha, hb⟩ := and_mask_eq.1 hw
  · exact ⟨.cInit a, by rw [eq_zero_of_and_all hb]; rfl⟩
  · exact ⟨.cPush a b, rfl⟩
  · exact ⟨.cFinish, by rw [eq_zero_of_and_all ha, eq_zero_of_and_all hb]; rfl⟩
  · exact ⟨.cRdbyte a, by rw [eq_zero_of_and_all hb]; rfl⟩
  · exact ⟨.nop, by rw [eq_zero_of_and_all ha, eq_zero_of_and_all hb]; rfl⟩
  · exact ⟨.dInit a, by rw [eq_zero_of_and_all hb]; rfl⟩
  · exact ⟨.dLoad a (b.extractLsb' 0 8), by rw [encode, setWidth_lowByte (highBits_of_and hb)]⟩
  · exact ⟨.dNext, by rw [eq_zero_of_and_all ha, eq_zero_of_and_all hb]; rfl⟩
  · exact ⟨.rdreg (a.extractLsb' 0 8), by
      rw [encode, setWidth_lowByte (highBits_of_and ha), eq_zero_of_and_all hb]⟩

/-- Settles O2: the words that decode are the words the encoder writes, and each of them is in the table. -/
theorem decoderAcceptsExactlyTheTable : Obligations.DecoderAcceptsExactlyTheTable := by
  refine fun w => ⟨?_, ?_⟩
  · rintro ⟨i, hd⟩
    rw [eq_encode_of_decode hd]
    exact encode_mem_opcodeTable i
  · rintro ⟨r, hr, hw⟩
    obtain ⟨i, rfl⟩ := eq_encode_of_row hr hw
    exact ⟨i, decode_encode i⟩

end Sys2Proof.Machine
end

section
/-! The command words that are refused whatever the state (30_encoding.md R87, R88), and NOP (46_control_commands.md R241). -/

namespace Sys2Proof.Machine

theorem checked_false {ok : Bool} (op : Byte) (i : Instr) (h : ok = false) :
    checked ok op i = .error (.reservedBits op) := by rw [h]; rfl

/-! ### Reserved bits that are not zero (R88) -/

theorem decode_of_reserved_b {op : Byte} (hop : op ∈ ([0x01, 0x04, 0x11] : List Byte)) (a : Word32) {b : Word32}
    (hb : b ≠ 0) : decode (mkWord op a b) = .error (.reservedBits op) := by
  have hok : (b == 0) = false := beq_false_of_ne hb
  simp only [List.mem_cons, List.not_mem_nil, or_false] at hop
  rcases hop with rfl | rfl | rfl
  · rw [decode_cInit, checked_false _ _ hok]
  · rw [decode_cRdbyte, checked_false _ _ hok]
  · rw [decode_dInit, checked_false _ _ hok]

theorem decode_of_reserved_ab {op : Byte} (hop : op ∈ ([0x03, 0x0F, 0x13] : List Byte)) {a b : Word32}
    (hab : a ≠ 0 ∨ b ≠ 0) : decode (mkWord op a b) = .error (.reservedBits op) := by
  have hok : (a == 0 && b == 0) = false := Bool.and_eq_false_iff.2 (hab.imp beq_false_of_ne beq_false_of_ne)
  simp only [List.mem_cons, List.not_mem_nil, or_false] at hop
  rcases hop with rfl | rfl | rfl
  · rw [decode_cFinish, checked_false _ _ hok]
  · rw [decode_nop, checked_false _ _ hok]
  · rw [decode_dNext, checked_false _ _ hok]

theorem decode_dLoad_of_reserved (a : Word32) {b : Word32} (hb : b.extractLsb' 8 24 ≠ 0) :
    decode (mkWord 0x12 a b) = .error (.reservedBits 0x12) := by
  rw [decode_dLoad, checked_false _ _ (beq_false_of_ne hb)]

theorem decode_rdreg_of_reserved {a b : Word32} (hab : a.extractLsb' 8 24 ≠ 0 ∨ b ≠ 0) :
    decode (mkWord 0x20 a b) = .error (.reservedBits 0x20) := by
  rw [decode_rdreg, checked_false]
  exact Bool.and_eq_false_iff.2 (hab.imp beq_false_of_ne beq_false_of_ne)

/-! ### The statements -/

/-- Settles O4: none of the reserved ranges holds a defined opcode, so the decoder refuses by the opcode alone. -/
theorem reservedOpcodeIsRefused : Obligations.ReservedOpcodeIsRefused := by
  intro s w rest hp hres
  have hop : opField w ∉ definedOpcodes := by
    intro hmem
    simp only [definedOpcodes, List.mem_cons, List.not_mem_nil, or_false] at hmem
    bv_omega
  exact step_refused hp (decode_of_reserved_op hop)

/-- Settles O5, by the group of opcodes with the same reserved operand bits. -/
theorem reservedBitsAreRefused : Obligations.ReservedBitsAreRefused := by
  intro s w rest hp hres
  have hd : decode w = .error (.reservedBits (opField w)) := by
    rw [← mkWord_fields w]
    generalize opField w = op, aField w = a, bField w = b at hres ⊢
    rw [opField_mkWord]
    rcases hres with ⟨hop, hb⟩ | ⟨hop, hab⟩ | ⟨rfl, hb⟩ | ⟨rfl, hab⟩
    · exact decode_of_reserved_b hop a hb
    · exact decode_of_reserved_ab hop hab
    · exact decode_dLoad_of_reserved a hb
    · exact decode_rdreg_of_reserved hab
  exact step_refused hp hd

/-- Settles O14: NOP's arm is its answer. -/
theorem nopDoesNothing : Obligations.NopDoesNothing := fun _ => rfl

end Sys2Proof.Machine
end

section
/-! The assembler: the commands of each line and the hexadecimal form of a command (30_encoding.md R82, R91 to R93). -/

namespace Sys2Proof.Machine

/-! ### The commands of a line (R92) -/

theorem loadsFrom_eq_map (k : Nat) (bs : List Nat) : loadsFrom k bs =
    (List.range bs.length).map fun j => .dLoad (BitVec.ofNat 32 (k + j)) (BitVec.ofNat 8 (bs.getD j 0)) := by
  induction bs generalizing k with
  | nil => rfl
  | cons byte bs ih =>
    rw [loadsFrom, ih (k + 1), List.length_cons, List.range_succ_eq_map, List.map_cons, List.map_map]
    refine congrArg _ (List.map_congr_left fun j _ => ?_)
    rw [Function.comp_apply, List.getD_cons_succ, Nat.add_right_comm, Nat.add_assoc]

theorem expand_dBuf (bs : List Nat) : expand (.dBuf bs) = .dInit (BitVec.ofNat 32 bs.length) ::
    (List.range bs.length).map fun j => .dLoad (BitVec.ofNat 32 j) (BitVec.ofNat 8 (bs.getD j 0)) := by
  rw [expand, loadsFrom_eq_map]
  simp only [Nat.zero_add]

/-- Settles O55: D.BUF by its lemma, every other line by its own equation. -/
theorem pseudoInstructionsExpand : Obligations.PseudoInstructionsExpand :=
  ⟨rfl, fun _ => rfl, expand_dBuf, rfl, fun _ => rfl, fun _ _ => rfl, rfl, fun _ => rfl, rfl, fun _ => rfl, fun _ _ => rfl,
    rfl, fun _ => rfl⟩

/-! ### Literals that fit (R82, R91) -/

theorem fits_iff {width n : Nat} : fits width n = true ↔ n < 2 ^ width := decide_eq_true_iff

theorem fits_and_fits {width width' n n' : Nat} :
    (fits width n && fits width' n') = true ↔ n < 2 ^ width ∧ n' < 2 ^ width' := by
  rw [Bool.and_eq_true, fits_iff, fits_iff]

theorem dBuf_wf_iff {bs : List Nat} : (AsmLine.dBuf bs).wf = true ↔ bs.length < 2 ^ 32 ∧ ∀ b ∈ bs, b < 2 ^ 8 := by
  simp only [AsmLine.wf, Bool.and_eq_true, List.all_eq_true, fits_iff]

/-- A line gives its commands exactly where its literals fit. -/
theorem assemble_eq_ite {l : AsmLine} {P : Prop} [Decidable P] (h : l.wf = true ↔ P) :
    assemble l = if P then some (expand l) else none := by
  rw [assemble]
  exact if_congr h rfl rfl

/-- Settles O57: each line's check is the bound of its literals, and past it the line is its expansion. -/
theorem assemblerRejectsMisfits : Obligations.AssemblerRejectsMisfits :=
  ⟨rfl, fun _ => assemble_eq_ite fits_iff, fun _ _ => assemble_eq_ite fits_and_fits, fun _ => assemble_eq_ite fits_iff,
    rfl, fun _ => assemble_eq_ite fits_iff, rfl, fun _ => assemble_eq_ite fits_iff,
    fun _ _ => assemble_eq_ite fits_and_fits,
    fun bs => by rw [← expand_dBuf]; exact assemble_eq_ite dBuf_wf_iff, rfl, fun _ => assemble_eq_ite fits_iff⟩

/-! ### Hexadecimal (R93) -/

theorem hexDigits_length (w n : Nat) : (hexDigits w n).length = n := by
  induction n with
  | zero => rfl
  | succ n ih => rw [hexDigits, List.length_cons, ih]

theorem digitValue_toUpper_digitChar {v : Nat} (h : v < 16) :
    digitValue (Nat.digitChar v).toUpper = some v := by
  revert v; decide

/-- Reading the last `n` digits of `w` after `acc` gives `acc` followed by them. -/
theorem digits_hexDigits (w acc n : Nat) :
    digits 16 acc ((hexDigits w n).map Char.toUpper) = some (acc * 16 ^ n + w % 16 ^ n) := by
  induction n generalizing acc with
  | zero => simp [hexDigits, digits, Nat.mod_one]
  | succ n ih =>
    have hlt : w / 16 ^ n % 16 < 16 := Nat.mod_lt _ (by decide)
    rw [hexDigits, List.map_cons, digits, digitValue_toUpper_digitChar hlt]
    simp only [if_pos hlt]
    rw [ih, Nat.mod_pow_succ]
    congr 1
    ring

/-- Settles O56: 18 digits hold 72 bits, so the word is read back whole. -/
theorem hexFormDenotesTheWord : Obligations.HexFormDenotesTheWord := by
  refine ⟨fun i => ⟨?_, ?_⟩, by decide⟩
  · rw [hexWord, List.length_map, hexDigits_length]
  · have hlt : (encode i).toNat < 16 ^ 18 := (encode i).isLt
    rw [hexWord, digits_hexDigits, Nat.zero_mul, Nat.zero_add, Nat.mod_eq_of_lt hlt]

end Sys2Proof.Machine
end

section
/-! SUPPORT. The integers a flat sequence emits: how large they are, that there are some, and that more input only adds to
them (41_gap_run_automaton.md R132 to R138, R144). -/

namespace Sys2Proof.Machine

/-! ### Their sizes (R144) -/

theorem runEmits_le (a : Bool) (rem : Nat) : ∀ x ∈ runEmits a rem, x ≤ rem + 1 := by
  intro x hx
  unfold runEmits at hx
  split at hx
  · simp at hx
  · split at hx
    · simp at hx; omega
    · split at hx <;> simp at hx <;> omega

/-- No integer exceeds the largest flat value by more than 1. -/
theorem emitsFrom_le {m : Nat} (vs : List Nat) : ∀ (a : Bool) (rem : Nat), rem ≤ m → (∀ v ∈ vs, v ≤ m) →
    ∀ x ∈ emitsFrom a rem vs, x ≤ m + 1 := by
  induction vs with
  | nil => exact fun a rem hr _ x hx => (runEmits_le a rem x hx).trans (by omega)
  | cons v vs ih =>
    intro a rem hr hvs x hx
    obtain ⟨hv, hvs⟩ := List.forall_mem_cons.1 hvs
    simp only [emitsFrom] at hx
    split at hx
    · exact ih _ _ hv hvs x hx
    · split at hx
      · rcases List.mem_cons.1 hx with rfl | hx
        · omega
        · exact ih _ _ hv hvs x hx
      · rcases List.mem_append.1 hx with hx | hx
        · exact (runEmits_le a rem x hx).trans (by omega)
        · exact ih _ _ (by omega) hvs x hx

/-- At a pull `C.rem` is spent, so only the flat values to come bound what is emitted. -/
theorem emits_le {c : CompContext} {m : Nat} {vs : List Nat} (hp : c.aphase.Pulls) (hvs : ∀ v ∈ vs, v ≤ m) :
    ∀ x ∈ c.emits vs, x ≤ m + 1 := by
  cases vs with
  | nil => rcases hp with hp | hp | hp <;> simp [CompContext.emits, hp]
  | cons v vs =>
    obtain ⟨hv, hvs⟩ := List.forall_mem_cons.1 hvs
    rcases hp with hp | hp | hp <;> simp only [CompContext.emits, hp]
    · exact emitsFrom_le vs _ _ hv hvs
    · exact emitsFrom_le vs _ _ hv hvs
    · exact emitsFrom_le vs _ _ (by omega) hvs

/-! ### That there are some -/

theorem emitsFrom_ne_nil_of_rem {rem : Nat} (a : Bool) (h : rem ≠ 0) (vs : List Nat) : emitsFrom a rem vs ≠ [] := by
  cases a
  · simp [emitsFrom_unsync h]
  · simp [emitsFrom_sync h]

/-- A last flat value that is not 0 is emitted, whatever stands before it. -/
theorem emitsFrom_singleton_ne_nil (a : Bool) (rem : Nat) {r : Nat} (h : r ≠ 0) : emitsFrom a rem [r] ≠ [] := by
  by_cases hr : rem = 0
  · rw [hr, emitsFrom_zero_cons]
    exact emitsFrom_ne_nil_of_rem a h []
  · exact emitsFrom_ne_nil_of_rem a hr [r]

/-- A gap and a run make the automaton emit something, since the run is not empty. -/
theorem emits_pair_ne_nil {c : CompContext} (hp : c.aphase.Pulls) (g : Nat) {r : Nat} (h : r ≠ 0) :
    c.emits [g, r] ≠ [] := by
  rcases hp with hp | hp | hp <;> simp only [CompContext.emits, hp] <;> exact emitsFrom_singleton_ne_nil _ _ h

/-! ### More input only adds to them -/

theorem runEmits_prefix (a : Bool) (rem : Nat) (vs : List Nat) : runEmits a rem <+: emitsFrom a rem vs := by
  cases vs with
  | nil => exact List.prefix_refl _
  | cons v vs =>
    rw [emitsFrom]
    split
    next hr => simp [hr, runEmits_zero]
    next hr =>
      split
      next h => simp [runEmits, h]
      next h => exact List.prefix_append _ _

theorem emitsFrom_prefix (vs ws : List Nat) : ∀ (a : Bool) (rem : Nat),
    emitsFrom a rem vs <+: emitsFrom a rem (vs ++ ws) := by
  induction vs with
  | nil => exact fun a rem => runEmits_prefix a rem ws
  | cons v vs ih =>
    intro a rem
    simp only [List.cons_append, emitsFrom]
    split
    · exact ih _ _
    · split
      · exact (List.prefix_cons_inj 1).2 (ih _ _)
      · exact (List.prefix_append_right_inj _).2 (ih _ _)

theorem emits_prefix {c : CompContext} (hp : c.aphase.Pulls) (vs ws : List Nat) : c.emits vs <+: c.emits (vs ++ ws) := by
  cases vs with
  | nil => rcases hp with hp | hp | hp <;> simp [CompContext.emits, hp]
  | cons v vs =>
    rcases hp with hp | hp | hp <;> simp only [CompContext.emits, hp, List.cons_append] <;>
      exact emitsFrom_prefix vs ws _ _

theorem length_le_streamLength (xs : List Nat) : xs.length ≤ streamLength xs := by
  induction xs with
  | nil => exact Nat.le_refl 0
  | cons x xs ih =>
    rw [List.length_cons, streamLength_cons, codewordLength]
    omega

/-- No codeword is empty, so only the whole sequence has a stream of its length. -/
theorem eq_of_prefix_of_streamLength {xs ys : List Nat} (h : xs <+: ys) (hl : streamLength xs = streamLength ys) :
    xs = ys := by
  obtain ⟨zs, rfl⟩ := h
  have hzs := length_le_streamLength zs
  rw [streamLength_append] at hl
  rw [List.eq_nil_of_length_eq_zero (show zs.length = 0 by omega), List.append_nil]

/-- Two beginnings of one sequence whose streams are of the same length are the same. -/
theorem eq_of_prefixes_of_streamLength {xs ys zs : List Nat} (hx : xs <+: zs) (hy : ys <+: zs)
    (hl : streamLength xs = streamLength ys) : xs = ys := by
  rcases List.prefix_or_prefix_of_prefix hx hy with h | h
  · exact eq_of_prefix_of_streamLength h hl
  · exact (eq_of_prefix_of_streamLength h hl.symm).symm

end Sys2Proof.Machine
end

section
/-! SUPPORT. What range_merger hands to the automaton, and what running the automaton on it leads to (40_range_merger.md
R110, R116, R117, 41_gap_run_automaton.md R139, R140). -/

namespace Sys2Proof.Machine

/-! ### The flat values of the open range (R116) -/

theorem CompContext.Inv.merger {p : Config.Params} {c : CompContext} (h : c.Inv p) : c.MergerInv := by
  obtain ⟨-, hmerger, -⟩ := h
  exact hmerger

theorem gap_of_open {c : CompContext} (h : c.MergerInv) (hn : c.nhave = true) :
    (c.gap.toNat : Int) = c.ps.toNat - c.lee.toInt - 1 := by
  obtain ⟨hlee, hps, -⟩ := h
  obtain ⟨-, hgt⟩ := hps hn
  exact gap_toNat hlee (by omega)

/-- Once a range has been closed, the gap before the open one is not empty (R116, R118). -/
theorem one_le_gap {c : CompContext} (h : c.MergerInv) (hn : c.nhave = true) (hl : c.lee.toInt ≠ -1) :
    1 ≤ c.gap.toNat := by
  have hgap := gap_of_open h hn
  obtain ⟨-, hps, -⟩ := h
  obtain ⟨-, hgt⟩ := hps hn
  omega

theorem start_le_stop_of_open {c : CompContext} (h : c.MergerInv) (hn : c.nhave = true) : c.ps.toNat ≤ c.pe.toNat := by
  obtain ⟨-, hps, -⟩ := h
  exact (hps hn).1

theorem runLength_of_open {c : CompContext} (h : c.MergerInv) (hn : c.nhave = true) :
    c.runLength.toNat = c.pe.toNat - c.ps.toNat + 1 := runLength_toNat (start_le_stop_of_open h hn)

theorem runLength_of_open_int {c : CompContext} (h : c.MergerInv) (hn : c.nhave = true) :
    (c.runLength.toNat : Int) = c.pe.toNat - c.ps.toNat + 1 := by
  have hle := start_le_stop_of_open h hn
  have hrun := runLength_of_open h hn
  omega

theorem openFlat_eq {c : CompContext} (h : c.MergerInv) (hn : c.nhave = true) :
    c.openFlat = [c.gap.toNat, c.runLength.toNat] := by
  rw [CompContext.openFlat, ← gap_of_open h hn, ← runLength_of_open h hn, Int.toNat_natCast]

/-- The lines R116 and R117 share: the gap and then the length go behind the queue, and the end of the range is kept. -/
theorem closeRange_eq (c : CompContext) :
    c.closeRange = { c with flatq := c.flatq ++ [c.gap, c.runLength], lee := c.pe.setWidth 33 } := by
  simp [CompContext.closeRange, CompContext.push]

/-- With nothing queued, closing a range leaves exactly its flat values queued (R141). -/
theorem closeRange_of_empty {c : CompContext} (h : c.MergerInv) (hn : c.nhave = true) (hq : c.flatq = []) :
    c.closeRange = { c with flatq := c.openFlat.map (BitVec.ofNat 33), lee := c.pe.setWidth 33 } := by
  rw [closeRange_eq, openFlat_eq h hn, hq]
  simp

/-- Below a later element the open range ends before 2^32 - 2, so its codewords are within the encoder's range (R144). -/
theorem emits_openFlat_le_gammaMax {c : CompContext} {start : Word32} (h : c.MergerInv) (hn : c.nhave = true)
    (ha : c.aphase.Pulls) (hs : c.pe.toNat + 1 < start.toNat) : ∀ x ∈ c.emits c.openFlat, x ≤ Config.gammaMax := by
  have hstart := start.isLt
  have hle := start_le_stop_of_open h hn
  have hgap := gap_of_open h hn
  have hrun := runLength_of_open h hn
  have hlee : -1 ≤ c.lee.toInt := by
    obtain ⟨hlee, -⟩ := h
    exact hlee
  refine emits_le (m := 4294967294) ha ?_
  rw [openFlat_eq h hn]
  simp only [List.forall_mem_cons]
  exact ⟨by omega, by omega, by simp⟩

/-- The open range makes the automaton emit something, for it is not empty. -/
theorem emits_openFlat_ne_nil {c : CompContext} (ha : c.aphase.Pulls) : c.emits c.openFlat ≠ [] :=
  emits_pair_ne_nil ha _ (Nat.succ_ne_zero _)

/-! ### What the merger leaves -/

theorem CompContext.PathInv.obuf_wf {p : Config.Params} {c : CompContext} (h : c.PathInv p) : c.obuf.Wf := by
  obtain ⟨-, -, -, -, hwf, -⟩ := h.buffer
  exact hwf

/-- The context `c1` is what range_merger leaves of `c`: only the merger's registers and the queue differ, and the queue
holds the flat values `vs`. -/
structure CompContext.Feeds (p : Config.Params) (c : CompContext) (vs : List Nat) (c1 : CompContext) : Prop where
  frame : c1 = { c with
    nhave := c1.nhave, ps := c1.ps, pe := c1.pe, lee := c1.lee, eoi := c1.eoi, flatq := c1.flatq }
  path : c1.PathInv p
  queued : c1.queued = vs

theorem CompContext.Feeds.bits {p : Config.Params} {c c1 : CompContext} {vs : List Nat} (h : c.Feeds p vs c1) :
    c1.bits = c.bits := by rw [h.frame]; rfl

theorem CompContext.Feeds.bitlen {p : Config.Params} {c c1 : CompContext} {vs : List Nat} (h : c.Feeds p vs c1) :
    c1.bitlen = c.bitlen := by rw [h.frame]

theorem CompContext.Feeds.emits {p : Config.Params} {c c1 : CompContext} {vs : List Nat} (h : c.Feeds p vs c1)
    (ws : List Nat) : c1.emits ws = c.emits ws := by rw [h.frame]; rfl

theorem CompContext.Feeds.packs {p : Config.Params} {c c1 : CompContext} {vs xs : List Nat} {g : Config.Granule}
    (h : c.Feeds p vs c1) : c1.Packs g xs ↔ c.Packs g xs := by rw [h.frame]; rfl

/-- Closing the open range and opening the element's hands over the open range's flat values (R116). -/
theorem closeRange_feeds {p : Config.Params} {c : CompContext} {start stop : Word32} (h : c.Inv p)
    (hp : c.cphase = .opened) (hv : start.toNat ≤ stop.toNat) (hn : c.nhave = true)
    (hs : c.pe.toNat + 1 < start.toNat) :
    c.Feeds p c.openFlat { c.closeRange with ps := start, pe := stop } := by
  refine ⟨rfl, (Accepted.close hv hn hs).pathInv h hp, ?_⟩
  obtain ⟨⟨hq, -, -⟩, -⟩ := h.opened hp
  simp [CompContext.queued, hq, openFlat_eq h.merger hn]

/-- The end of input, in the words of the flat values it adds (R117). -/
theorem mergerEnd_of_empty {c : CompContext} (h : c.MergerInv) (hq : c.flatq = []) :
    mergerEnd c = { c with
      flatq := c.finalFlat.map (BitVec.ofNat 33), eoi := true, nhave := false
      lee := if c.nhave then c.pe.setWidth 33 else c.lee } := by
  unfold mergerEnd CompContext.finalFlat
  split
  next hn => rw [closeRange_of_empty h hn hq]
  next hn =>
    rw [Bool.not_eq_true] at hn
    rw [← hn, List.map_nil, ← hq]

theorem mergerEnd_feeds {p : Config.Params} {c : CompContext} (h : c.Inv p) (hp : c.cphase = .opened) :
    c.Feeds p c.finalFlat (mergerEnd c) := by
  refine ⟨?_, mergerEnd_pathInv h hp, ?_⟩
  · rw [mergerEnd_frame c]
  · obtain ⟨⟨hq, -, -⟩, -⟩ := h.opened hp
    unfold mergerEnd CompContext.finalFlat CompContext.queued
    split
    next hn => simp [hq, openFlat_eq h.merger hn]
    next => simp [hq]

/-! ### Running the automaton on it -/

theorem autoSteps_reaches (g : Config.Granule) (n : Nat) (c : CompContext) :
    Relation.ReflTransGen (fun y z => autoStep g y = .moved z) c (autoSteps g n c).1 := by
  induction n generalizing c with
  | zero => exact .refl
  | succ n ih =>
    unfold autoSteps
    split
    next c' hm => exact .head hm (ih c')
    next => exact .refl
    next => exact .refl

/-- Running the automaton is taking its steps one after another (R139). -/
theorem runAutomaton_reaches {g : Config.Granule} {c c' : CompContext} {o : Option Raised}
    (h : runAutomaton g c = (c', o)) : Relation.ReflTransGen (fun y z => autoStep g y = .moved z) c c' := by
  have hr := autoSteps_reaches g (autoBound c) c
  rwa [← runAutomaton, h] at hr

/-- With nothing to take, running leaves the context as it is (R139). -/
theorem runAutomaton_of_waiting {g : Config.Granule} {c : CompContext} (h : c.Waiting) :
    runAutomaton g c = (c, none) := by
  obtain ⟨hq, he, hp⟩ := h
  exact autoSteps_of_rests (autoStep_rests.2 (.inl ⟨hp, hq, he⟩)) _

section Running

variable {p : Config.Params} {g : Config.Granule} {c c1 c2 : CompContext} {vs : List Nat}

theorem CompContext.Feeds.emits_queued (h : c.Feeds p vs c1) : c1.emits c1.queued = c.emits vs := by
  rw [h.queued, h.emits]

/-- Where every codeword can be packed, the run completes (R139, R140). -/
theorem CompContext.Feeds.completes (h : c.Feeds p vs c1) (hk : c.Packs g (c.emits vs)) :
    ∃ c2, runAutomaton g c1 = (c2, none) := by
  rw [runAutomaton_completes h.path.run h.path.obuf_wf, h.emits_queued]
  exact h.packs.2 hk

/-- A run that completes has appended the codewords of all that the flat values make the automaton emit (R140, R181). -/
theorem CompContext.Feeds.stream (h : c.Feeds p vs c1) (hr : runAutomaton g c1 = (c2, none)) :
    c2.bits = c.bits ++ codewords (c.emits vs) ∧
      c2.bitlen.toNat = c.bitlen.toNat + streamLength (c.emits vs) := by
  obtain ⟨xs, hxs, -, hbits, hlen⟩ :=
    runAutomaton_emits (g := g) h.path.run h.path.obuf_wf (vs := []) (fun _ => rfl)
  have hleft := emits_of_rests (runAutomaton_rests hr)
  rw [hr, List.append_nil, List.append_nil, h.emits_queued, hleft, List.append_nil] at hxs
  rw [hr, ← hxs, h.bits] at hbits
  rw [hr, ← hxs, h.bitlen] at hlen
  exact ⟨hbits, hlen⟩

/-- While more input may come, the run ends waiting for it (R139, R141). -/
theorem CompContext.Feeds.waits (h : c.Feeds p vs c1) (hw : c.Waiting) (he : c1.eoi = false)
    (hr : runAutomaton g c1 = (c2, none)) : c2.Waiting :=
  runAutomaton_waits he (by rw [h.frame]; exact hw.not_done) hr

/-- What later flat values will make the automaton emit, it emits from where it waits (R139). -/
theorem CompContext.Feeds.continues (h : c.Feeds p vs c1) (hp : c.aphase.Pulls) (he : c1.eoi = false)
    (hr : runAutomaton g c1 = (c2, none)) (hw : c2.Waiting) (ws : List Nat) :
    c.emits (vs ++ ws) = c.emits vs ++ c2.emits ws := by
  obtain ⟨xs, hxs, -, -, hlen⟩ :=
    runAutomaton_emits (g := g) h.path.run h.path.obuf_wf (vs := ws) (by simp [he])
  obtain ⟨hempty, -, -⟩ := hw
  have hqueued : c2.queued = [] := by rw [CompContext.queued, hempty, List.map_nil]
  rw [hr, h.queued, h.emits, hqueued, List.nil_append] at hxs
  rw [hr, h.bitlen, (h.stream hr).2] at hlen
  have hsame : c.emits vs = xs :=
    eq_of_prefixes_of_streamLength (emits_prefix hp vs ws) (hxs ▸ List.prefix_append xs _) (by omega)
  rw [hxs, hsame]

/-- Where a codeword cannot be packed, the run raises the error of the first one, and the ones before it are packed
(R140, R256, R261). -/
theorem CompContext.Feeds.fails (h : c.Feeds p vs c1) (hk : ¬ c.Packs g (c.emits vs)) :
    ∃ c2 e before x after, runAutomaton g c1 = (c2, some e) ∧ c.emits vs = before ++ x :: after ∧
      c.Packs g before ∧ c2.PackFails g x e ∧ c2.bits = c.bits ++ codewords before ∧
      c2.bitlen.toNat = c.bitlen.toNat + streamLength before ∧ c2.emits c2.queued = x :: after := by
  have hwf := h.path.obuf_wf
  cases hr : runAutomaton g c1 with
  | mk c2 o =>
    cases o with
    | none =>
      have hpacks := (runAutomaton_completes h.path.run hwf).1 ⟨c2, hr⟩
      rw [h.emits_queued, h.packs] at hpacks
      exact absurd hpacks hk
    | some e =>
      obtain ⟨before, x, after, hemits, hpacks, hbits, hlen, hfails, hleft⟩ :=
        runAutomaton_fails h.path.run hwf hr
      rw [h.emits_queued] at hemits
      rw [h.bits] at hbits
      rw [h.bitlen] at hlen
      exact ⟨c2, e, before, x, after, rfl, hemits, h.packs.1 hpacks, hfails, hbits, hlen, hleft⟩

end Running

end Sys2Proof.Machine
end

section
/-! SUPPORT. C.PUSH and C.FINISH in OPEN, one equation for each way they end (44_compress_commands.md R201, R202, R206). -/

namespace Sys2Proof.Machine

variable {s : State} {c1 c2 : CompContext} {start stop : Word32} {e : Raised}

theorem exec_cPush_of_opened (hp : s.c.cphase = .opened) :
    exec (.cPush start stop) s = .next (s.pushElement start stop) :=
  congrArg Host.Outcome.next (gateC_of_phase _ _ hp (by decide))

theorem exec_cPush_invalid (hp : s.c.cphase = .opened) (hi : s.c.Invalid start stop) :
    exec (.cPush start stop) s = .next (s.raiseC s.c (invalidRange start stop)) := by
  rw [exec_cPush_of_opened hp, State.pushElement, mergerAccept_error.2 ⟨hi, rfl⟩]

theorem exec_cPush_completes (hp : s.c.cphase = .opened) (ha : Accepted s.c start stop c1)
    (hr : runAutomaton s.params.granule c1 = (c2, none)) :
    exec (.cPush start stop) s = .next ({ s with c := c2 }.respondOk c2.bitlen 0) := by
  rw [exec_cPush_of_opened hp, State.pushElement, mergerAccept_ok.2 ha]
  simp only [hr]

theorem exec_cPush_raises (hp : s.c.cphase = .opened) (ha : Accepted s.c start stop c1)
    (hr : runAutomaton s.params.granule c1 = (c2, some e)) :
    exec (.cPush start stop) s = .next (s.raiseC c2 e) := by
  rw [exec_cPush_of_opened hp, State.pushElement, mergerAccept_ok.2 ha]
  simp only [hr]

/-- An element that leaves the automaton nothing to take is stored and answered (R113, R115, R202). -/
theorem exec_cPush_silent (hp : s.c.cphase = .opened) (ha : Accepted s.c start stop c1) (hw : c1.Waiting) :
    exec (.cPush start stop) s = .next ({ s with c := c1 }.respondOk c1.bitlen 0) :=
  exec_cPush_completes hp ha (runAutomaton_of_waiting hw)

theorem exec_cFinish_of_opened (hp : s.c.cphase = .opened) : exec .cFinish s = .next s.finish :=
  congrArg Host.Outcome.next (gateC_of_phase _ _ hp (by decide))

theorem exec_cFinish_completes (hp : s.c.cphase = .opened)
    (hr : runAutomaton s.params.granule (mergerEnd s.c) = (c2, none)) :
    exec .cFinish s =
      .next ({ s with c := c2.complete }.respondOk (zext33 c2.complete.clen) c2.complete.bitlen) := by
  rw [exec_cFinish_of_opened hp, State.finish, hr]

theorem exec_cFinish_raises (hp : s.c.cphase = .opened)
    (hr : runAutomaton s.params.granule (mergerEnd s.c) = (c2, some e)) :
    exec .cFinish s = .next (s.raiseC c2 e) := by
  rw [exec_cFinish_of_opened hp, State.finish, hr]

/-! ### Where the run raises -/

/-- C.PUSH and C.FINISH alike: past the merger, which leaves `merged`, the command is the run of the automaton, and what it
raises is latched (R202, R206, R256). -/
structure Drives (s : State) (i : Instr) (vs : List Nat) (merged : CompContext) : Prop where
  feeds : s.c.Feeds s.params vs merged
  raises : ∀ {c2 e}, runAutomaton s.params.granule merged = (c2, some e) → exec i s = .next (s.raiseC c2 e)

theorem cPush_drives (h : s.Inv) (hp : s.c.cphase = .opened) (hn : s.c.nhave = true)
    (hv : start.toNat ≤ stop.toNat) (hs : s.c.pe.toNat + 1 < start.toNat) :
    Drives s (.cPush start stop) s.c.openFlat { s.c with
      flatq := s.c.openFlat.map (BitVec.ofNat 33), lee := s.c.pe.setWidth 33, ps := start, pe := stop } := by
  obtain ⟨-, hc, -⟩ := h
  obtain ⟨⟨hq, -, -⟩, -⟩ := hc.opened hp
  have hclose : ({ s.c.closeRange with ps := start, pe := stop } : CompContext) = { s.c with
      flatq := s.c.openFlat.map (BitVec.ofNat 33), lee := s.c.pe.setWidth 33, ps := start, pe := stop } := by
    rw [closeRange_of_empty hc.merger hn hq]
  rw [← hclose]
  exact ⟨closeRange_feeds hc hp hv hn hs, exec_cPush_raises hp (.close hv hn hs)⟩

theorem cFinish_drives (h : s.Inv) (hp : s.c.cphase = .opened) :
    Drives s .cFinish s.c.finalFlat { s.c with
      flatq := s.c.finalFlat.map (BitVec.ofNat 33), eoi := true, nhave := false
      lee := if s.c.nhave then s.c.pe.setWidth 33 else s.c.lee } := by
  obtain ⟨-, hc, -⟩ := h
  obtain ⟨⟨hq, -, -⟩, -⟩ := hc.opened hp
  rw [← mergerEnd_of_empty hc.merger hq]
  exact ⟨mergerEnd_feeds hc hp, exec_cFinish_raises hp⟩

end Sys2Proof.Machine
end

section
/-! The statements about range_merger and about the commands that drive it (40_range_merger.md R112 to R117). -/

namespace Sys2Proof.Machine

/-- Settles O17: the merger refuses the element and the error is latched on the context as it was. -/
theorem invalidElementIsLatched : Obligations.InvalidElementIsLatched :=
  fun _ _ _ hp hi => exec_cPush_invalid hp hi

/-- Settles O18: the merger opens the range, and the automaton still waits. -/
theorem firstElementOpensARange : Obligations.FirstElementOpensARange := by
  intro s start stop h hp hn hv
  obtain ⟨-, hc, -⟩ := h
  obtain ⟨hw, -⟩ := hc.opened hp
  exact exec_cPush_silent hp (.first hv hn) hw

/-- Settles O19: the merger extends the range, and the automaton still waits. -/
theorem adjacentElementExtendsTheRange : Obligations.AdjacentElementExtendsTheRange := by
  intro s start stop h hp hn hv hs
  obtain ⟨-, hc, -⟩ := h
  obtain ⟨hw, -⟩ := hc.opened hp
  exact exec_cPush_silent hp (.merge hv hn hs) hw

/-- Settles O20: closing pushes the gap and the length, which fit their registers. -/
theorem mergerClosesAndOpens : Obligations.MergerClosesAndOpens := by
  intro c start stop h hn hv hs
  refine ⟨c.gap, c.runLength, gap_of_open h hn, runLength_of_open_int h hn, one_le_gap h hn, ?_, lee_of_pe c.pe⟩
  rw [mergerAccept_ok.2 (.close hv hn hs), closeRange_eq]

/-- Settles O21, by the two branches of `mergerEnd`. -/
theorem endOfInputClosesTheRange : Obligations.EndOfInputClosesTheRange := by
  intro c h
  refine ⟨fun hn => by simp [mergerEnd, hn], fun hn => ?_⟩
  refine ⟨c.gap, c.runLength, gap_of_open h hn, runLength_of_open_int h hn, ?_⟩
  rw [mergerEnd, if_pos hn, closeRange_eq]

/-- Settles O22: the merger hands over the open range's flat values, and the run over them completes and waits. -/
theorem fartherElementIsEncoded : Obligations.FartherElementIsEncoded := by
  intro s start stop h hp hn hv hs hfits
  obtain ⟨-, hc, -⟩ := h
  obtain ⟨hw, -⟩ := hc.opened hp
  have ⟨hq, heoi, hpull⟩ := hw
  have hfeeds := closeRange_feeds hc hp hv hn hs
  have hpacks : s.c.Packs s.params.granule (s.c.emits s.c.openFlat) :=
    ⟨emits_openFlat_le_gammaMax hc.merger hn hpull hs, .inr hfits⟩
  obtain ⟨c2, hr⟩ := hfeeds.completes hpacks
  obtain ⟨hbits, hlen⟩ := hfeeds.stream hr
  have hwait := hfeeds.waits hw heoi hr
  have hcontinues := hfeeds.continues hpull heoi hr hwait
  obtain ⟨hempty, -, hpull2⟩ := hwait
  refine ⟨c2, exec_cPush_completes hp (.close hv hn hs) hr, hbits, hlen, emits_openFlat_ne_nil hpull, hcontinues,
    hpull2, ?_⟩
  have hf := run_frame hr
  rw [hempty, ← hq] at hf
  exact hf

/-- Settles O23: the run over the last flat values completes in DONE, and finalizing sets the exact size. -/
theorem finishCompletes : Obligations.FinishCompletes := by
  intro s h hp hk
  obtain ⟨-, hc, -⟩ := h
  obtain ⟨hw, -⟩ := hc.opened hp
  have ⟨hq, _, _⟩ := hw
  have hfeeds := mergerEnd_feeds hc hp
  obtain ⟨c2, hr⟩ := hfeeds.completes hk
  obtain ⟨hbits, hlen⟩ := hfeeds.stream hr
  obtain ⟨-, -, hempty, hdone⟩ := mergerEnd_run hw hr
  have hpath := runAutomaton_pathInv hfeeds.path hr
  obtain ⟨-, -, hcap, hclen, -⟩ := complete_bufferInv hpath.buffer
  refine ⟨c2.complete, exec_cFinish_completes hp hr, hbits, hlen, complete_clen_toNat hpath.buffer,
    hclen.trans hcap, rfl, ?_⟩
  have hf := run_frame hr
  rw [mergerEnd_of_empty hc.merger hq, hempty, hdone, ← hq] at hf
  exact congrArg CompContext.complete hf

/-- Settles O24: both commands run the automaton on what the merger handed over; the run stops at the first codeword that
cannot be packed, in phase RUN. -/
theorem failingCodewordIsLatched : Obligations.FailingCodewordIsLatched := by
  intro s i vs merged h hp hi hk
  have ⟨_, hc, _⟩ := h
  obtain ⟨-, hclen0, -⟩ := hc.opened hp
  have hdrives : Drives s i vs merged := by
    rcases hi with ⟨start, stop, rfl, hn, hv, hs, rfl, rfl⟩ | ⟨rfl, rfl, rfl⟩
    · exact cPush_drives h hp hn hv hs
    · exact cFinish_drives h hp
  obtain ⟨c', e, before, x, after, hr, hemits, hpacks, hfails, hbits, hlen, hleft⟩ := hdrives.feeds.fails hk
  have hraised := runAutomaton_raised hr
  obtain ⟨hphase, -, -⟩ := autoStep_raised.1 hraised
  have hf := run_frame hr
  rw [hphase] at hf
  have hclen : c'.clen = 0 := by rw [hf, hdrives.feeds.frame, hclen0]
  have hmax : c'.maxsize = s.c.maxsize := by rw [hf, hdrives.feeds.frame]
  exact ⟨c', before, after, x, e, hemits, hpacks, hfails, hdrives.raises hr, hbits, hlen, runAutomaton_reaches hr,
    hraised, hleft, hf, hclen, hmax⟩

end Sys2Proof.Machine
end

section
/-! The encode automaton's steps and where running it stops (41_gap_run_automaton.md R131 to R139). -/

namespace Sys2Proof.Machine

/-! ### The steps, phase by phase -/

theorem seedSync_eq_decide (v : Word33) : seedSync v = decide (v.toNat ≠ 0) := by
  rw [Bool.eq_iff_iff, seedSync, bne_iff_ne, decide_eq_true_iff, ne_eq, ne_eq, ← BitVec.toNat_inj]
  rfl

/-- The decrement is 0 only for the value 1, in wrapping arithmetic too (log 7). -/
theorem sub_one_eq_zero_iff (v : Word33) : v - 1 = 0 ↔ v.toNat = 1 := by
  rw [← BitVec.toNat_inj, BitVec.toNat_sub]
  have := v.isLt
  simp
  omega

theorem pullSync_eq_decide (v : Word33) : pullSync (v - 1) = decide (v.toNat = 1) := by
  rw [Bool.eq_iff_iff, pullSync, beq_iff_eq, decide_eq_true_iff, sub_one_eq_zero_iff]

theorem unsyncSync_eq_decide (v : Word33) : unsyncSync (v - 1) = decide (v.toNat ≠ 1) := by
  rw [Bool.eq_iff_iff, unsyncSync, bne_iff_ne, decide_eq_true_iff, ne_eq, ne_eq, sub_one_eq_zero_iff]

theorem runStep_of_rem_zero {g : Config.Granule} {c : CompContext} (hr : c.rem.toNat = 0) :
    runStep g c = .moved { c with aphase := .pullTop } :=
  if_pos (BitVec.eq_of_toNat_eq hr)

theorem runStep_of_sync {g : Config.Granule} {c : CompContext} (hr : c.rem.toNat ≠ 0) (ha : c.async = true) :
    runStep g c = emitThen g (c.rem.toNat + 1) c fun c' => { c' with aphase := .pullAfterEmit } := by
  rw [runStep, if_neg (ne_zero_of_toNat hr), if_pos ha]

theorem runStep_of_unsync {g : Config.Granule} {c : CompContext} (hr : c.rem.toNat ≠ 0) (ha : c.async = false) :
    runStep g c = emitThen g 1 c fun c' => { c' with rem := c.rem - 1, async := unsyncSync (c.rem - 1) } := by
  rw [runStep, if_neg (ne_zero_of_toNat hr), if_neg (by simp [ha])]

/-- Settles O43: the pulling phases by what the queue and the end of input give, phase RUN by `C.rem` and `C.async`. -/
theorem automatonTakesTheSpecsSteps : Obligations.AutomatonTakesTheSpecsSteps := by
  intro g c
  refine ⟨fun hp => ?_, fun hp => ?_, fun hp => ?_, fun hp hr => ?_, fun hp hr ha => ?_, fun hp hr ha => ?_, fun hp => ?_⟩
  all_goals rw [autoStep, hp]
  · cases hq : c.flatq with
    | cons v rest => simp only [seedStep, CompContext.pull, hq, seedSync_eq_decide]
    | nil => cases he : c.eoi <;> simp [seedStep, CompContext.pull, hq, he, CompContext.autoDone]
  · cases hq : c.flatq with
    | cons v rest => simp only [refillStep, CompContext.pull, hq]
    | nil => cases he : c.eoi <;> simp [refillStep, CompContext.pull, hq, he, CompContext.autoDone]
  · cases hq : c.flatq with
    | cons v rest => simp only [pullAfterStep, CompContext.pull, hq, pullSync_eq_decide]
    | nil => cases he : c.eoi <;> simp [pullAfterStep, CompContext.pull, hq, he, CompContext.autoDone]
  · exact runStep_of_rem_zero hr
  · exact runStep_of_sync hr ha
  · rw [← unsyncSync_eq_decide]
    exact runStep_of_unsync hr ha

/-! ### Where it stops -/

/-- Settles O44: running takes steps one after another, and its bound is never what ends it. -/
theorem automatonRunsUntilItRests : Obligations.AutomatonRunsUntilItRests := by
  intro g c c' raised h
  refine ⟨runAutomaton_reaches h, fun hn => ?_, fun e he => ?_⟩
  · subst hn
    exact (autoStep_rests.1 (runAutomaton_rests h)).imp_left fun ⟨hp, hq, he⟩ => ⟨hp, hq, he⟩
  · subst he
    exact runAutomaton_raised h

end Sys2Proof.Machine
end

section
/-! What a codeword labels and how D.NEXT ends at the end of the stream (41_gap_run_automaton.md R150 to R155,
45_decompress_commands.md R224). -/

namespace Sys2Proof.Machine

theorem exec_dNext_of_active {s : State} (hp : s.d.dphase = .active) : exec .dNext s = .next (s.decodeRange s.d) := by
  show execDNext s = _
  rw [execDNext, hp]

/-- At the end of the stream the loop of D.NEXT takes no codeword (R165, R224). -/
theorem decodeLoop_of_atEnd {d : DecompContext} (h : d.atEnd = true) (n : Nat) : decodeLoop n d = d.finishStream := by
  cases n with
  | zero => rfl
  | succ n => rw [decodeLoop, if_pos h]

/-- Settles O37: the count of zeros reaches the end of the stream, and the end closes the open run, if there is one. -/
theorem dNextAtTheEndOfTheStream : Obligations.DNextAtTheEndOfTheStream := by
  intro s k hp hz hk
  have hend : s.d.atEnd = true := by
    rw [atEnd_eq_true, (zeros_eq_iff s.d k).2 hz]
    exact hk
  have hn : decodeNext s.d = s.d.finishStream := decodeLoop_of_atEnd hend _
  rw [exec_dNext_of_active hp, State.decodeRange, hn, finishStream_eq]
  refine ⟨fun ho => ?_, fun ho => ?_⟩
  · rw [if_pos ho]
    rfl
  · rw [if_neg (by simp [ho])]
    rfl

/-- The position before the single one of a codeword longer than 1 (R151). -/
theorem word64_sub_one_eq {p v : Nat} (hv : 1 < v) (h : p + v < 2 ^ 64) :
    word64 (p + (v - 1)) - 1 = BitVec.ofNat 64 (p + v - 2) := by
  have hword : (word64 (p + (v - 1))).toNat = p + (v - 1) := word64_toNat (by omega)
  refine BitVec.eq_of_toNat_eq ?_
  rw [word64_sub_one (by omega), hword, BitVec.toNat_ofNat, Nat.mod_eq_of_lt (by omega)]
  omega

/-- Settles O40: one equation for a codeword, read off by the symbol and by whether the codeword is 1. -/
theorem codewordLabelsItsPositions : Obligations.CodewordLabelsItsPositions := by
  intro d v hv hb
  have hstart := decodeValue_dstart d v
  have hrange := decodeValue_range d v
  refine ⟨(d.decodeValue v).1.pos, (d.decodeValue v).1.dstart, decodeValue_pos hv hb, ?_, fun hs h1 => ?_,
    fun hs h1 => ?_, fun hs h1 => ?_, fun hs h1 => ?_⟩
  · have hsym : (if v = 1 then !d.sym else d.sym) = (d.decodeValue v).1.sym := (decodeValue_sym d v).symm
    rw [hsym, ← decodeValue_dopen d v]
    exact decodeValue_frame d v
  · rw [hstart, hrange]
    simp only [hs, h1, Bool.false_eq_true, if_false, if_true, true_and, and_true]
    rw [word64_toNat (by omega)]
    omega
  · rw [hstart, hrange]
    cases ho : d.dopen <;> simp [hs, h1]
  · rw [hrange, if_pos hs, if_pos h1, word64_sub_one_eq h1 hb]
  · rw [hrange, if_pos hs, if_neg (by omega)]

end Sys2Proof.Machine
end

section
/-! When a codeword is out of the encoder's range (41_gap_run_automaton.md R144, 60_exceptions.md R252). -/

namespace Sys2Proof.Machine

/-! ### The integers the end of input makes the automaton emit -/

/-- What the first gap and run of a compression emit: a gap that is not empty is emitted synchronized, which spends the
first position of the run (R132 to R138). -/
theorem emits_pair_of_unseeded {c : CompContext} (ha : c.aphase = .unseeded) (g r : Nat) :
    c.emits [g, r] = if g = 0 then runEmits false r else (g + 1) :: runEmits (r - 1 == 0) (r - 1) := by
  simp only [CompContext.emits, ha]
  split
  next h =>
    subst h
    exact emitsFrom_zero_cons false r []
  next h =>
    rw [bne_iff_ne.2 h, emitsFrom_sync h]
    rfl

/-- What the end of input emits, by whether all of it is in the encoder's range. -/
inductive FinalEmits (c : CompContext) (xs : List Nat) : Prop where
  | inRange (hx : ∀ x ∈ xs, x ≤ Config.gammaMax)
      (hno : ¬ (c.nhave = true ∧ c.lee.toInt = -1 ∧ c.pe.toNat = 4294967295 ∧
        (c.ps.toNat = 4294967295 ∨ c.ps.toNat = 0))) : FinalEmits c xs
  | maxValue (hn : c.nhave = true) (hl : c.lee.toInt = -1) (hpe : c.pe.toNat = 4294967295)
      (hps : c.ps.toNat = 4294967295) (hxs : xs = [4294967296]) : FinalEmits c xs
  | wholeDomain (hn : c.nhave = true) (hl : c.lee.toInt = -1) (hpe : c.pe.toNat = 4294967295)
      (hps : c.ps.toNat = 0) (hxs : xs = [1, 4294967296]) : FinalEmits c xs

/-- Unsynchronized, a count emits no integer above it (R135, R136). -/
theorem runEmits_unsync_le {rem : Nat} (h : rem ≠ 0) : ∀ x ∈ runEmits false rem, x ≤ rem := by
  intro x hx
  rw [runEmits, if_neg h, if_neg Bool.false_ne_true] at hx
  split at hx
  · obtain rfl := List.mem_singleton.1 hx
    omega
  · rcases List.mem_pair.1 hx with rfl | rfl <;> omega

/-- The only range of a compression: its gap is its start (R116, R144). -/
theorem finalEmits_of_first {c : CompContext} (h : c.MergerInv) (hn : c.nhave = true) (hl : c.lee.toInt = -1)
    (ha : c.aphase = .unseeded) : FinalEmits c (c.emits c.openFlat) := by
  have hle := start_le_stop_of_open h hn
  have hgap := gap_of_open h hn
  have hpe := c.pe.isLt
  rw [hl] at hgap
  have hg : c.gap.toNat = c.ps.toNat := by omega
  rw [openFlat_eq h hn, hg, runLength_of_open h hn, emits_pair_of_unseeded ha]
  by_cases hps : c.ps.toNat = 0
  · rw [if_pos hps]
    by_cases hmax : c.pe.toNat = 4294967295
    · exact .wholeDomain hn hl hmax hps (by rw [hps, hmax]; rfl)
    · refine .inRange (fun x hx => ?_) (by omega)
      have hrun := runEmits_unsync_le (Nat.succ_ne_zero _) x hx
      have : Config.gammaMax = 4294967295 := rfl
      omega
  · rw [if_neg hps]
    by_cases hmax : c.ps.toNat = 4294967295
    · exact .maxValue hn hl (by omega) hmax (by rw [hmax, show c.pe.toNat = 4294967295 by omega]; rfl)
    · refine .inRange (fun x hx => ?_) (by omega)
      have : Config.gammaMax = 4294967295 := rfl
      rcases List.mem_cons.1 hx with rfl | hx
      · omega
      · have hrun := runEmits_le _ _ x hx
        omega

/-- After an earlier range, the gap and the run leave out at least two positions of the domain (R116, R144). -/
theorem emits_openFlat_le_of_later {c : CompContext} (h : c.MergerInv) (hn : c.nhave = true) (hl : c.lee.toInt ≠ -1)
    (ha : c.aphase.Pulls) : ∀ x ∈ c.emits c.openFlat, x ≤ Config.gammaMax := by
  have hle := start_le_stop_of_open h hn
  have hgap := gap_of_open h hn
  have hgap1 := one_le_gap h hn hl
  have hrun := runLength_of_open h hn
  have hpe := c.pe.isLt
  have hlee : -1 ≤ c.lee.toInt := by
    obtain ⟨hlee, -⟩ := h
    exact hlee
  refine emits_le (m := 4294967294) ha ?_
  rw [openFlat_eq h hn]
  simp only [List.forall_mem_cons]
  exact ⟨by omega, by omega, by simp⟩

theorem finalEmits {p : Config.Params} {c : CompContext} (h : c.Inv p) (hp : c.cphase = .opened) :
    FinalEmits c (c.emits c.finalFlat) := by
  obtain ⟨⟨-, -, hpull⟩, -, hseed, -⟩ := h.opened hp
  rw [CompContext.finalFlat]
  split
  next hn =>
    by_cases hl : c.lee.toInt = -1
    · exact finalEmits_of_first h.merger hn hl (hseed.2 hl)
    · exact .inRange (emits_openFlat_le_of_later h.merger hn hl hpull) fun ⟨_, h', _⟩ => hl h'
  next hn =>
    have hnil : c.emits [] = [] := by rcases hpull with ha | ha | ha <;> simp [CompContext.emits, ha]
    exact .inRange (by simp [hnil]) fun ⟨h', _⟩ => hn h'

/-! ### The integer that fails -/

/-- The integers `before` are packed, the next one of `xs` is `x`, and packing it raises `e` (R161, R183, R256). -/
structure CompContext.FailsAt (g : Config.Granule) (c : CompContext) (xs before : List Nat) (x : Nat) (e : Raised) :
    Prop where
  split : ∃ after, xs = before ++ x :: after
  packs : c.Packs g before
  fails : (Config.gammaMax < x ∧ e = encodingRangeExceeded x) ∨
    (x ≤ Config.gammaMax ∧ e.status = .bufferCapacityExceeded ∧
      c.maxsize.toNat < requiredBytes g (c.bitlen.toNat + streamLength before + codewordLength x))

theorem CompContext.FailsAt.mem {g : Config.Granule} {c : CompContext} {xs before : List Nat} {x : Nat} {e : Raised}
    (h : c.FailsAt g xs before x e) : x ∈ xs := by
  obtain ⟨after, rfl⟩ := h.split
  simp

/-- Where all integers are in range, only the cap can fail them (R161, R183). -/
theorem CompContext.FailsAt.status_of_le {g : Config.Granule} {c : CompContext} {xs before : List Nat} {x : Nat}
    {e : Raised} (h : c.FailsAt g xs before x e) (hxs : ∀ x ∈ xs, x ≤ Config.gammaMax) :
    e.status = .bufferCapacityExceeded := by
  rcases h.fails with ⟨hx, -⟩ | ⟨-, he, -⟩
  · exact absurd (hxs x h.mem) (by omega)
  · exact he

/-- A run that raises has failed at one of the integers the flat values stand for (R140, R256). -/
theorem CompContext.Feeds.failsAt {p : Config.Params} {g : Config.Granule} {c c1 c2 : CompContext} {vs : List Nat}
    {e : Raised} (h : c.Feeds p vs c1) (hr : runAutomaton g c1 = (c2, some e)) :
    ∃ before x, c.FailsAt g (c.emits vs) before x e := by
  obtain ⟨before, x, after, hemits, hpacks, -, hlen, hfails, -⟩ := runAutomaton_fails h.path.run h.path.obuf_wf hr
  have hmax : c2.maxsize = c.maxsize := by rw [run_frame hr, h.frame]
  rw [h.emits_queued] at hemits
  rw [h.bitlen] at hlen
  refine ⟨before, x, ⟨after, hemits⟩, h.packs.1 hpacks, ?_⟩
  rw [CompContext.PackFails, hlen, hmax] at hfails
  exact hfails.imp_right fun ⟨hx, hneed, he⟩ => ⟨hx, he ▸ rfl, hneed⟩

/-- A run that completes has packed them all (R139). -/
theorem CompContext.Feeds.packs_of_completes {p : Config.Params} {g : Config.Granule} {c c1 c2 : CompContext}
    {vs : List Nat} (h : c.Feeds p vs c1) (hr : runAutomaton g c1 = (c2, none)) : c.Packs g (c.emits vs) := by
  have hpacks := (runAutomaton_completes h.path.run h.path.obuf_wf).1 ⟨c2, hr⟩
  rwa [h.emits_queued, h.packs] at hpacks

/-! ### The two sets -/

theorem after_of_exec {s t : State} {i : Instr} (h : exec i s = .next t) : s.after i = t := by rw [State.after, h]

/-- The whole domain fails at its second codeword, 2^32, or at the first one for the cap. -/
theorem failsAt_wholeDomain {g : Config.Granule} {c : CompContext} {before : List Nat} {x : Nat} {e : Raised}
    (h : c.FailsAt g [1, 4294967296] before x e) :
    (e = encodingRangeExceeded 4294967296 ∧ requiredBytes g (c.bitlen.toNat + 1) ≤ c.maxsize.toNat) ∨
    (e.status = .bufferCapacityExceeded ∧ c.maxsize.toNat < requiredBytes g (c.bitlen.toNat + 1)) := by
  obtain ⟨⟨after, hsplit⟩, hpacks, hfails⟩ := h
  match before, hsplit with
  | [], hsplit =>
    obtain ⟨rfl, -⟩ := List.cons.inj hsplit
    rcases hfails with ⟨hx, -⟩ | ⟨-, he, hneed⟩
    · exact absurd hx (by decide)
    · exact .inr ⟨he, hneed⟩
  | [y], hsplit =>
    obtain ⟨hy, htail⟩ := List.cons.inj hsplit
    obtain ⟨rfl, -⟩ := List.cons.inj htail
    subst hy
    rcases hfails with ⟨-, he⟩ | ⟨hx, -⟩
    · exact .inl ⟨he, (CompContext.packs_single.1 hpacks).2⟩
    · exact absurd hx (by decide)
  | y :: z :: before, hsplit => simp at hsplit

theorem failsAt_maxValue {g : Config.Granule} {c : CompContext} {before : List Nat} {x : Nat} {e : Raised}
    (h : c.FailsAt g [4294967296] before x e) : e = encodingRangeExceeded 4294967296 := by
  obtain rfl := List.mem_singleton.1 h.mem
  rcases h.fails with ⟨-, he⟩ | ⟨hx, -⟩
  · exact he
  · exact absurd hx (by decide)

/-- C.FINISH in OPEN raises EncodingRangeExceeded for the two sets, with 2^32 (R144, R252). -/
theorem cFinish_exceeds {s : State} (h : s.Inv) (hp : s.c.cphase = .opened) :
    ((s.after .cFinish).resp = some { status := 0x9, v0 := 4294967296, v1 := 0 } ↔
      s.c.nhave = true ∧ s.c.lee.toInt = -1 ∧ s.c.pe.toNat = 4294967295 ∧
        (s.c.ps.toNat = 4294967295 ∨
          (s.c.ps.toNat = 0 ∧ requiredBytes s.params.granule (s.c.bitlen.toNat + 1) ≤ s.c.maxsize.toNat))) ∧
    ((s.after .cFinish).c.cerr = 0x9 →
      (s.after .cFinish).resp = some { status := 0x9, v0 := 4294967296, v1 := 0 }) := by
  obtain ⟨-, hc, -⟩ := h
  have hfeeds := mergerEnd_feeds hc hp
  have hfinal := finalEmits hc hp
  match hr : runAutomaton s.params.granule (mergerEnd s.c) with
  | (c2, none) =>
    rw [after_of_exec (exec_cFinish_completes hp hr)]
    have hcerr : c2.cerr = 0 := by
      rw [run_frame hr, hfeeds.frame]
      exact (hc.latch_clear hp).1
    obtain ⟨hall, -⟩ := hfeeds.packs_of_completes hr
    have hno : ¬ (s.c.nhave = true ∧ s.c.lee.toInt = -1 ∧ s.c.pe.toNat = 4294967295 ∧
        (s.c.ps.toNat = 4294967295 ∨ s.c.ps.toNat = 0)) := by
      cases hfinal with
      | inRange hx hno => exact hno
      | maxValue hn hl hpe hps hxs => exact absurd (hall 4294967296 (by simp [hxs])) (by decide)
      | wholeDomain hn hl hpe hps hxs => exact absurd (hall 4294967296 (by simp [hxs])) (by decide)
    refine ⟨iff_of_false (by simp [Status.code]) fun ⟨hn, hl, hpe, hps⟩ => ?_, ?_⟩
    · exact hno ⟨hn, hl, hpe, hps.imp_right And.left⟩
    · simp [hcerr]
  | (c2, some e) =>
    rw [after_of_exec (exec_cFinish_raises hp hr)]
    obtain ⟨before, x, hfails⟩ := hfeeds.failsAt hr
    cases hfinal with
    | inRange hx hno =>
      have he := hfails.status_of_le hx
      refine ⟨iff_of_false (by simp [he, Status.code]) fun ⟨hn, hl, hpe, hps⟩ => ?_, by simp [he, Status.code]⟩
      exact hno ⟨hn, hl, hpe, hps.imp_right And.left⟩
    | maxValue hn hl hpe hps hxs =>
      rw [hxs] at hfails
      obtain rfl := failsAt_maxValue hfails
      exact ⟨iff_of_true rfl ⟨hn, hl, hpe, .inl hps⟩, fun _ => rfl⟩
    | wholeDomain hn hl hpe hps hxs =>
      rw [hxs] at hfails
      rcases failsAt_wholeDomain hfails with ⟨rfl, hfits⟩ | ⟨he, hneed⟩
      · exact ⟨iff_of_true rfl ⟨hn, hl, hpe, .inr ⟨hps, hfits⟩⟩, fun _ => rfl⟩
      · refine ⟨iff_of_false (by simp [he, Status.code]) fun ⟨_, _, _, hor⟩ => ?_, by simp [he, Status.code]⟩
        omega

/-- No C.PUSH in OPEN latches EncodingRangeExceeded: a later element keeps the open range off the domain's end (R144). -/
theorem cPush_never_exceeds {s : State} (h : s.Inv) (hp : s.c.cphase = .opened) (start stop : Word32) :
    (s.after (.cPush start stop)).c.cerr ≠ 0x9 := by
  obtain ⟨-, hc, -⟩ := h
  obtain ⟨hw, -⟩ := hc.opened hp
  obtain ⟨herr, -⟩ := hc.latch_clear hp
  cases hm : mergerAccept start stop s.c with
  | error e =>
    obtain ⟨hi, -⟩ := mergerAccept_error.1 hm
    rw [after_of_exec (exec_cPush_invalid hp hi)]
    simp [invalidRange, Status.code]
  | ok c1 =>
    have ha := mergerAccept_ok.1 hm
    match hr : runAutomaton s.params.granule c1 with
    | (c2, none) =>
      have hcerr : c2.cerr = 0 := by rw [run_frame hr, ha.frame, herr]
      rw [after_of_exec (exec_cPush_completes hp ha hr)]
      simp [hcerr]
    | (c2, some e) =>
      rw [after_of_exec (exec_cPush_raises hp ha hr)]
      have hsilent : ¬ c1.Waiting := fun hw1 => by simp [runAutomaton_of_waiting hw1] at hr
      cases ha with
      | first hv hn => exact absurd hw hsilent
      | merge hv hn hs => exact absurd hw hsilent
      | close hv hn hs =>
        obtain ⟨before, x, hfails⟩ := (closeRange_feeds hc hp hv hn hs).failsAt hr
        obtain ⟨-, -, hpull⟩ := hw
        have he := hfails.status_of_le (emits_openFlat_le_gammaMax hc.merger hn hpull hs)
        simp [he, Status.code]

/-- Settles O25: of all that the end of input emits, only the two sets hold an integer above 2^32 - 1. -/
theorem encodingRangeExceededForTwoSets : Obligations.EncodingRangeExceededForTwoSets :=
  ⟨fun _ h hp => cFinish_exceeds h hp, fun _ start stop h hp => cPush_never_exceeds h hp start stop⟩

end Sys2Proof.Machine
end

section
/-! The headline of the decode direction: for every byte string the ranges returned ascend and are separated by gaps
(41_gap_run_automaton.md R156). -/

namespace Sys2Proof.Machine

/-! ### Where later ranges begin, in exact integers -/

/-- Where the next range begins at the earliest: at the start of the open run, or else at the position not labelled yet. -/
def Labeler.floor (l : Labeler) : Nat := l.open'.getD l.pos

/-- A value that produces no range does not lower the floor, and one that produces a range leaves a gap behind it: a range
ends before a gap position, and the next run opens after that position (R156). -/
theorem Labeler.value_ascends (l : Labeler) (v : Nat) (ho : ∀ a ∈ l.open', a < l.pos) :
    ((l.value v).2 = [] ∧ l.floor ≤ (l.value v).1.floor) ∨
    ∃ r, (l.value v).2 = [r] ∧ l.floor ≤ r.1 ∧ r.1 ≤ r.2 ∧ r.2 + 1 < (l.value v).1.floor := by
  obtain ⟨pos, sym, op⟩ := l
  cases op with
  | none =>
    by_cases h1 : 1 < v
    · cases sym with
      | false => exact .inl (by simp [Labeler.value, Labeler.floor, labelAt, h1])
      | true => exact .inr ⟨(pos, pos + (v - 1) - 1), by simp [Labeler.value, Labeler.floor, labelAt, h1]; omega⟩
    · cases sym <;> exact .inl (by simp [Labeler.value, Labeler.floor, labelAt, h1])
  | some a =>
    have ha : a < pos := ho a rfl
    by_cases h1 : 1 < v
    · cases sym with
      | false => exact .inr ⟨(a, pos - 1), by simp [Labeler.value, Labeler.floor, labelAt, h1]; omega⟩
      | true => exact .inr ⟨(a, pos + (v - 1) - 1), by simp [Labeler.value, Labeler.floor, labelAt, h1]; omega⟩
    · cases sym with
      | false => exact .inl (by simp [Labeler.value, Labeler.floor, labelAt, h1])
      | true => exact .inr ⟨(a, pos - 1), by simp [Labeler.value, Labeler.floor, labelAt, h1]; omega⟩

/-! ### Where later ranges begin, in the registers -/

/-- The registers stand for labels whose next range begins at `n` or later. -/
def DecompContext.OpensFrom (d : DecompContext) (n : Nat) : Prop := ∃ l : Labeler, l.Fits d ∧ n ≤ l.floor

/-- Every range that D.NEXT still returns begins at `n` or later: in DONE it returns none. -/
def DecompContext.ReturnsFrom (d : DecompContext) (n : Nat) : Prop := d.dphase ≠ .done → d.OpensFrom n

theorem DecompContext.OpensFrom.congr {d d' : DecompContext} {n : Nat} (h : d.OpensFrom n) (hp : d'.pos = d.pos)
    (hs : d'.sym = d.sym) (ho : d'.dopen = d.dopen) (hst : d'.dstart = d.dstart) : d'.OpensFrom n := by
  obtain ⟨l, ⟨h1, h2, h3, h4⟩, hn⟩ := h
  exact ⟨l, ⟨hp ▸ h1, hs ▸ h2, ho ▸ h3, hst ▸ h4⟩, hn⟩

/-- Registers in order stand for some labels. -/
theorem opensFrom_zero {d : DecompContext} (ho : d.dopen = true → d.dstart.toNat < d.pos.toNat) : d.OpensFrom 0 := by
  refine ⟨⟨d.pos.toNat, d.sym, if d.dopen then some d.dstart.toNat else none⟩, ⟨rfl, rfl, ?_, ?_⟩, Nat.zero_le _⟩
  · cases d.dopen <;> rfl
  · cases hd : d.dopen with
    | false => simp
    | true =>
      rintro a ⟨⟩
      exact ⟨rfl, ho hd⟩

/-- The run that the end of the stream closes is not empty and begins at the floor (R155). -/
theorem DecompContext.OpensFrom.last {d : DecompContext} {n : Nat} (h : d.OpensFrom n) (ho : d.dopen = true) :
    n ≤ d.dstart.toNat ∧ d.dstart.toNat ≤ (d.pos - 1).toNat := by
  obtain ⟨l, ⟨hpos, -, hopen, hstart⟩, hn⟩ := h
  obtain ⟨a, ha⟩ := Option.isSome_iff_exists.1 (hopen.symm.trans ho)
  obtain ⟨hsa, hlt⟩ := hstart a ha
  rw [Labeler.floor, ha, Option.getD_some] at hn
  rw [word64_sub_one (by omega)]
  omega

/-- What `d'` and the range returned with it, if there is one, say of the ranges in order, where they begin from `n` on. -/
inductive Ascends (n : Nat) (d' : DecompContext) : Option Span → Prop where
  | silent (h : d'.ReturnsFrom n) : Ascends n d' none
  | range {r : Span} (hn : n ≤ r.1) (hr : r.1 ≤ r.2) (h : d'.ReturnsFrom (r.2 + 2)) : Ascends n d' (some r)

/-- What a codeword returns and leaves (R150 to R154, R156). -/
theorem codeword_ascends {d d' : DecompContext} {o : Option Range} {n : Nat} (hi : d.LoopInv) (hn : d.OpensFrom n)
    (hz : d.zeros ≠ 32) (hd : d.advance.decodeValue d.codewordValue = (d', o)) :
    (o = none ∧ d'.OpensFrom n) ∨
    ∃ r, o = some r ∧ n ≤ r.1.toNat ∧ r.1.toNat ≤ r.2.toNat ∧ d'.OpensFrom (r.2.toNat + 2) := by
  obtain ⟨l, hf, hn⟩ := hn
  have hv := codewordValue_pos hz
  have hfa : l.Fits d.advance := ⟨hf.pos, hf.sym, hf.dopen, hf.dstart⟩
  have hb : l.pos + d.codewordValue < 2 ^ 64 := by
    have := hi.pos_lt
    have := codewordValue_lt d hz
    have := hf.pos
    omega
  obtain ⟨hf', hrange⟩ := hfa.value hv hb
  rw [hd] at hf' hrange
  rcases l.value_ascends d.codewordValue (fun a ha => (hf.dstart a ha).2) with ⟨hnil, hle⟩ | ⟨q, hq, hlo, hin, hgap⟩
  · rw [hnil] at hrange
    cases o with
    | none => exact .inl ⟨rfl, _, hf', hn.trans hle⟩
    | some r => simp at hrange
  · rw [hq] at hrange
    cases o with
    | none => simp at hrange
    | some r =>
      obtain ⟨rfl, -⟩ := List.cons.inj hrange
      exact .inr ⟨r, rfl, hn.trans hlo, hin, _, hf', hgap⟩

/-! ### What D.NEXT returns -/

/-- The range that a command returns with its response: D.NEXT returns one with status OK (R85, R224). -/
def returned : Instr → Option Response → Option Span
  | .dNext, some r => if r.status = Status.ok.code then some (r.v0.toNat, r.v1.toNat) else none
  | _, _ => none

theorem returned_of_status_ne {r : Response} (i : Instr) (h : r.status ≠ Status.ok.code) :
    returned i (some r) = none := by
  cases i with
  | dNext => exact if_neg h
  | _ => rfl

theorem ranges_cons (s : State) (i : Instr) (is : List Instr) :
    s.ranges (i :: is) = (returned i (s.after i).resp).toList ++ (s.after i).ranges is := by
  cases i with
  | dNext =>
    cases hr : (s.after .dNext).resp with
    | none => simp only [State.ranges, hr, returned, Option.toList_none, List.nil_append]
    | some r =>
      simp only [State.ranges, hr, returned]
      split <;> rfl
  | _ => rfl

/-- Decoding returns ranges in order: the passes of its loop before the last one keep the floor (R156, R225). -/
theorem decodeRange_ascends (s : State) {d : DecompContext} {n : Nat} (hi : d.LoopInv) (hn : d.OpensFrom n) :
    Ascends n (s.decodeRange d).d (returned .dNext (s.decodeRange d).resp) := by
  have hpass : ∀ x y, x.LoopInv ∧ x.OpensFrom n → SilentPass x y → y.LoopInv ∧ y.OpensFrom n := by
    rintro x y ⟨hx, hxn⟩ hs
    obtain ⟨hy, -, -⟩ := hx.codeword hs.notEnd hs.short
    rw [hs.decoded] at hy
    rcases codeword_ascends hx hxn hs.short hs.decoded with ⟨-, hyn⟩ | ⟨r, hr, -⟩
    · exact ⟨hy, hyn⟩
    · cases hr
  cases hd : decodeNext d with
  | mk d' e =>
    obtain ⟨x, ⟨hx, hxn⟩, hlast⟩ := decodeNext_cases (P := fun x => x.LoopInv ∧ x.OpensFrom n) hpass ⟨hi, hn⟩ hd
    rw [State.decodeRange, hd]
    cases hlast with
    | ended hend =>
      rw [finishStream_eq]
      by_cases ho : x.dopen = true
      · rw [if_pos ho]
        obtain ⟨hlo, hin⟩ := hxn.last ho
        exact .range hlo hin fun hdone => absurd rfl hdone
      · rw [if_neg ho]
        exact .silent fun hdone => absurd rfl hdone
    | longZeros hend hz => exact .silent fun _ => hxn.congr rfl rfl rfl rfl
    | range hend hz hv =>
      rcases codeword_ascends hx hxn hz hv with ⟨ho, -⟩ | ⟨r, hr, hlo, hin, hnext⟩
      · cases ho
      · cases hr
        exact .range hlo hin fun _ => hnext.congr rfl rfl rfl rfl

/-! ### The commands -/

theorem DecompContext.Inv.returnsFrom_zero {p : Config.Params} {d : DecompContext} (h : d.Inv p) : d.ReturnsFrom 0 := by
  obtain ⟨-, ⟨-, -, -, -, hopen⟩, -⟩ := h
  exact fun _ => opensFrom_zero hopen

/-- A D.LOAD writes no register of the decode direction (R221). -/
theorem loadByte_returnsFrom {s : State} {n : Nat} (h : s.d.ReturnsFrom n) (addr : Word32) (byte : Byte) :
    (s.loadByte addr byte).d.ReturnsFrom n := by
  unfold State.loadByte
  split
  · exact h
  · exact fun hd => (h hd).congr rfl rfl rfl rfl

/-- D.NEXT returns its range from `n` on, and leaves a gap behind it (R156, R223, R224). -/
theorem dNext_ascends {s : State} {n : Nat} (h : s.Inv) (hn : s.d.ReturnsFrom n) :
    Ascends n (s.after .dNext).d (returned .dNext (s.after .dNext).resp) := by
  obtain ⟨hw, -, hd⟩ := h
  have silent : ∀ {t : State} {r : Response}, r.status ≠ Status.ok.code → t.d.ReturnsFrom n → t.resp = some r →
      Ascends n t.d (returned .dNext t.resp) := by
    intro t r hr ht hresp
    rw [hresp, returned_of_status_ne _ hr]
    exact .silent ht
  rw [after_of_exec (t := _) rfl]
  split
  next hp => exact silent (by decide) hn rfl
  next hp =>
    have hopen := hn (by simp [hp])
    have hloop := hd.loopInv hw (by simp [hp])
    unfold State.startDecode
    split
    next a _ => exact silent (by simp [unwrittenInput, Status.code]) (fun _ => hopen.congr rfl rfl rfl rfl) rfl
    next _ =>
      exact decodeRange_ascends s ⟨hloop.len, hloop.cursor, hloop.reach, hloop.count, hloop.opened⟩
        (hopen.congr rfl rfl rfl rfl)
  next hp => exact decodeRange_ascends s (hd.loopInv hw (by simp [hp])) (hn (by simp [hp]))
  next hp => exact silent (by decide) hn rfl
  next hp =>
    obtain ⟨⟨hlatch, -⟩, -⟩ := hd
    exact silent (hlatch.1 hp) hn rfl

/-- Every command but D.INIT keeps what D.NEXT still returns in order. -/
theorem after_ascends {s : State} {n : Nat} {i : Instr} (h : s.Inv) (hi : ∀ len, i ≠ .dInit len)
    (hn : s.d.ReturnsFrom n) : Ascends n (s.after i).d (returned i (s.after i).resp) := by
  have comp : i.op ∈ ([0x01, 0x02, 0x03, 0x04] : List Byte) → (s.after i).d.ReturnsFrom n := by
    intro hop
    obtain ⟨t, ht, hd, -⟩ := compression_independent hop s s.d
    rw [after_of_exec ht, hd]
    exact hn
  cases i with
  | dInit len => exact absurd rfl (hi len)
  | dNext => exact dNext_ascends h hn
  | cInit _ => exact .silent (comp (by simp [Instr.op]))
  | cPush _ _ => exact .silent (comp (by simp [Instr.op]))
  | cFinish => exact .silent (comp (by simp [Instr.op]))
  | cRdbyte _ => exact .silent (comp (by simp [Instr.op]))
  | nop => exact .silent hn
  | dLoad addr byte =>
    refine .silent ?_
    rw [after_of_exec (t := _) rfl]
    split
    next => exact loadByte_returnsFrom hn addr byte
    all_goals exact hn
  | rdreg index =>
    obtain ⟨r, hr⟩ := rdreg_answers index s
    rw [after_of_exec hr]
    exact .silent hn

/-- From a state that returns ranges from `n` on, they are canonical and begin from `n` on; by induction on the commands. -/
theorem ranges_ascend {s : State} {n : Nat} {is : List Instr} (h : s.Inv) (hi : ∀ i ∈ is, ∀ len, i ≠ .dInit len)
    (hn : s.d.ReturnsFrom n) : Canonical (s.ranges is) ∧ ∀ r ∈ s.ranges is, n ≤ r.1 := by
  induction is generalizing s n with
  | nil => exact ⟨⟨by simp [State.ranges], by simp [State.ranges]⟩, by simp [State.ranges]⟩
  | cons i is ih =>
    obtain ⟨hi0, his⟩ := List.forall_mem_cons.1 hi
    have ha := after_ascends h hi0 hn
    rw [ranges_cons]
    cases hr : returned i (s.after i).resp with
    | none =>
      rw [hr] at ha
      cases ha with
      | silent hnext => exact ih (State.after_inv h i) his hnext
    | some r =>
      rw [hr] at ha
      cases ha with
      | range hlo hin hnext =>
        obtain ⟨hcanon, hfrom⟩ := ih (State.after_inv h i) his hnext
        rw [Option.toList_some, List.singleton_append, Canonical.cons, List.forall_mem_cons]
        exact ⟨⟨hin, hfrom, hcanon⟩, hlo, fun q hq => by have := hfrom q hq; omega⟩

/-- Settles O41: a state in order returns ranges from 0 on. -/
theorem rangesAscendWithGaps : Obligations.RangesAscendWithGaps := by
  intro s is h hi
  have ⟨_, _, hd⟩ := h
  exact (ranges_ascend h hi hd.returnsFrom_zero).1

end Sys2Proof.Machine
end

section
/-! SUPPORT. What the commands of one compression leave: the codewords of the canonical run sequence of its elements
(00_scope.md R17, R19, 40_range_merger.md R110, 41_gap_run_automaton.md R143). -/

namespace Sys2Proof.Machine

/-! ### Canonical run sequences -/

theorem Canonical.append_singleton {rs : List Span} {q : Span} :
    Canonical (rs ++ [q]) ↔ Canonical rs ∧ q.1 ≤ q.2 ∧ ∀ r ∈ rs, r.2 + 1 < q.1 := by
  simp only [Canonical, List.pairwise_append, List.mem_append, List.mem_singleton, or_imp, forall_and, forall_eq,
    List.pairwise_singleton, true_and]
  tauto

theorem covers_append_singleton {rs : List Span} {q : Span} {n : Nat} :
    covers (rs ++ [q]) n ↔ covers rs n ∨ (q.1 ≤ n ∧ n ≤ q.2) := by
  simp only [covers, List.mem_append, List.mem_singleton, or_and_right, exists_or, exists_eq_left]

theorem nextAfter_append_singleton (next : Nat) (rs : List Span) (q : Span) :
    nextAfter next (rs ++ [q]) = q.2 + 1 := by
  induction rs generalizing next with
  | nil => rfl
  | cons r rs ih => exact ih (r.2 + 1)

/-! ### What the stream stands for -/

/-- The integers that a compression of the ranges emits, from its beginning. -/
def streamOf (rs : List Span) : List Nat := CompContext.reset.emits (flatsFrom 0 rs)

/-- The open range, if there is one. -/
def CompContext.openSpans (c : CompContext) : List Span := if c.nhave then [(c.ps.toNat, c.pe.toNat)] else []

/-- The stream holds the codewords of the ranges `closed`, and the context goes on behind them. -/
structure CompContext.Encodes (c : CompContext) (closed : List Span) : Prop where
  bits : c.bits = codewords (streamOf closed)
  inRange : ∀ x ∈ streamOf closed, x ≤ Config.gammaMax
  continues : ∀ vs, CompContext.reset.emits (flatsFrom 0 closed ++ vs) = streamOf closed ++ c.emits vs
  lee : c.lee.toInt + 1 = nextAfter 0 closed

/-- A context with the same stream and automaton, and no later range closed, encodes the same ranges. -/
theorem CompContext.Encodes.congr {c c' : CompContext} {closed : List Span} (h : c.Encodes closed)
    (hb : c'.bits = c.bits) (he : ∀ vs, c'.emits vs = c.emits vs) (hl : c'.lee = c.lee) : c'.Encodes closed :=
  ⟨hb.trans h.bits, h.inRange, fun vs => by rw [he, h.continues], by rw [hl, h.lee]⟩

/-- The open range's flat values are the next ones of the flat sequence (R17, R116). -/
theorem CompContext.Encodes.openFlat {c : CompContext} {closed : List Span} (h : c.Encodes closed) :
    flatsFrom 0 (closed ++ [(c.ps.toNat, c.pe.toNat)]) = flatsFrom 0 closed ++ c.openFlat := by
  have hgap : c.ps.toNat - nextAfter 0 closed = ((c.ps.toNat : Int) - c.lee.toInt - 1).toNat := by
    have hlee := h.lee
    omega
  rw [flatsFrom_append, flatsFrom, flatsFrom, hgap]
  rfl

theorem CompContext.Encodes.finalFlat {c : CompContext} {closed : List Span} (h : c.Encodes closed) :
    flatsFrom 0 (closed ++ c.openSpans) = flatsFrom 0 closed ++ c.finalFlat := by
  unfold CompContext.openSpans CompContext.finalFlat
  split
  · exact h.openFlat
  · simp

/-- Where the flat values `vs` extend the flat sequence to that of `rs`, a completed run over them leaves the stream of
`rs` (R140, R143). -/
theorem CompContext.Encodes.run {p : Config.Params} {g : Config.Granule} {c c1 c2 : CompContext} {closed rs : List Span}
    {vs : List Nat} (h : c.Encodes closed) (hrs : flatsFrom 0 rs = flatsFrom 0 closed ++ vs) (hf : c.Feeds p vs c1)
    (hr : runAutomaton g c1 = (c2, none)) :
    streamOf rs = streamOf closed ++ c.emits vs ∧ c2.bits = codewords (streamOf rs) ∧
      ∀ x ∈ streamOf rs, x ≤ Config.gammaMax := by
  have hstream : streamOf rs = streamOf closed ++ c.emits vs := by rw [streamOf, hrs, h.continues]
  obtain ⟨hbits, -⟩ := hf.stream hr
  obtain ⟨hpacks, -⟩ := hf.packs_of_completes hr
  refine ⟨hstream, ?_, ?_⟩
  · rw [hstream, codewords_append, ← h.bits, hbits]
  · rw [hstream, List.forall_mem_append]
    exact ⟨h.inRange, hpacks⟩

/-! ### The elements -/

/-- The state after the elements: their canonical run sequence is the ranges closed and the open one. -/
structure Pushed (s : State) (elements closed : List Span) : Prop where
  inv : s.Inv
  opened : s.c.cphase = .opened
  encodes : s.c.Encodes closed
  fresh : s.c.nhave = false → closed = []
  canonical : Canonical (closed ++ s.c.openSpans)
  covered : ∀ n, covers (closed ++ s.c.openSpans) n ↔ covers elements n

theorem openSpans_of_open {c : CompContext} (hn : c.nhave = true) : c.openSpans = [(c.ps.toNat, c.pe.toNat)] := if_pos hn

/-- After an accepted C.INIT nothing has been pushed (R200). -/
theorem cInit_pushed {s : State} {maxsize : Word32} (h : s.Inv) (hm : maxsize.toNat ≤ s.params.obufBytes) :
    Pushed (s.after (.cInit maxsize)) [] [] := by
  have hinv := State.after_inv h (.cInit maxsize)
  have hafter : s.after (.cInit maxsize) = { s with c := s.c.init maxsize }.respondOk 0 0 := by
    refine after_of_exec (congrArg Host.Outcome.next (if_neg ?_))
    rw [byteCount_eq]
    omega
  rw [hafter] at hinv ⊢
  exact ⟨hinv, rfl, ⟨rfl, by simp [streamOf, flatsFrom, CompContext.emits, CompContext.reset],
    fun _ => rfl, s.c.init_lee_toInt maxsize ▸ rfl⟩, fun _ => rfl, by simp [Canonical, CompContext.openSpans], fun _ => Iff.rfl⟩

/-- The first element opens the first range (R113). -/
theorem Pushed.first {s t : State} {elements closed : List Span} {start stop : Word32} (h : Pushed s elements closed)
    (ht : t.Inv) (hv : start.toNat ≤ stop.toNat) (hn : s.c.nhave = false)
    (hc : t.c = { s.c with ps := start, pe := stop, nhave := true }) :
    Pushed t (elements ++ [(start.toNat, stop.toNat)]) closed := by
  obtain rfl := h.fresh hn
  have hopen : t.c.openSpans = [(start.toNat, stop.toNat)] := by rw [hc]; rfl
  have hcovered := h.covered
  rw [CompContext.openSpans, hn] at hcovered
  refine ⟨ht, by rw [hc]; exact h.opened, ?_, fun _ => rfl, ?_, fun n => ?_⟩
  · rw [hc]
    exact h.encodes.congr rfl (fun _ => rfl) rfl
  · rw [hopen]
    exact Canonical.append_singleton.2 ⟨⟨by simp, by simp⟩, hv, by simp⟩
  · rw [hopen, covers_append_singleton, covers_append_singleton, ← hcovered]
    rfl

/-- An element right after the open range extends it (R115). -/
theorem Pushed.merge {s t : State} {elements closed : List Span} {start stop : Word32} (h : Pushed s elements closed)
    (ht : t.Inv) (hv : start.toNat ≤ stop.toNat) (hn : s.c.nhave = true) (hs : start.toNat = s.c.pe.toNat + 1)
    (hc : t.c = { s.c with pe := stop }) : Pushed t (elements ++ [(start.toNat, stop.toNat)]) closed := by
  have hopen : t.c.openSpans = [(s.c.ps.toNat, stop.toNat)] := by rw [hc]; exact openSpans_of_open hn
  have hcanonical := h.canonical
  have hcovered := h.covered
  rw [openSpans_of_open hn] at hcanonical hcovered
  obtain ⟨hclosed, hle, hlast⟩ := Canonical.append_singleton.1 hcanonical
  simp only at hle
  refine ⟨ht, by rw [hc]; exact h.opened, ?_, by simp [hc, hn], ?_, fun n => ?_⟩
  · rw [hc]
    exact h.encodes.congr rfl (fun _ => rfl) rfl
  · rw [hopen]
    exact Canonical.append_singleton.2 ⟨hclosed, by simp only; omega, hlast⟩
  · have hn := hcovered n
    rw [covers_append_singleton] at hn
    rw [hopen, covers_append_singleton, covers_append_singleton, ← hn, or_assoc]
    refine or_congr_right ?_
    simp only
    omega

/-- An element beyond the open range closes it, and its codewords join the stream (R116, R139). -/
theorem Pushed.close {s t : State} {elements closed : List Span} {start stop : Word32} (h : Pushed s elements closed)
    (ht : t.Inv) (hv : start.toNat ≤ stop.toNat) (hn : s.c.nhave = true) (hs : s.c.pe.toNat + 1 < start.toNat)
    (hr : runAutomaton s.params.granule { s.c.closeRange with ps := start, pe := stop } = (t.c, none)) :
    Pushed t (elements ++ [(start.toNat, stop.toNat)]) (closed ++ [(s.c.ps.toNat, s.c.pe.toNat)]) := by
  obtain ⟨-, hinv, -⟩ := h.inv
  obtain ⟨hw, -⟩ := hinv.opened h.opened
  have ⟨_, heoi, hpull⟩ := hw
  have hfeeds := closeRange_feeds hinv h.opened hv hn hs
  have hframe := run_frame hr
  have hopen : t.c.openSpans = [(start.toNat, stop.toNat)] := by rw [hframe]; exact openSpans_of_open hn
  have hcanonical := h.canonical
  have hcovered := h.covered
  rw [openSpans_of_open hn] at hcanonical hcovered
  obtain ⟨hstream, hbits, hrange⟩ := h.encodes.run h.encodes.openFlat hfeeds hr
  have hcontinues := hfeeds.continues hpull heoi hr (hfeeds.waits hw heoi hr)
  refine ⟨ht, by rw [hframe]; exact h.opened, ⟨hbits, hrange, fun vs => ?_, ?_⟩, ?_, ?_, fun n => ?_⟩
  · rw [h.encodes.openFlat, hstream, List.append_assoc, List.append_assoc, h.encodes.continues, hcontinues]
  · have hlee : t.c.lee = s.c.closeRange.lee := by rw [hframe]
    rw [hlee, closeRange_lee_toInt, nextAfter_append_singleton]
    rfl
  · have hnhave : t.c.nhave = true := by rw [hframe]; exact hn
    simp [hnhave]
  · rw [hopen]
    refine Canonical.append_singleton.2 ⟨hcanonical, hv, fun r hr => ?_⟩
    obtain ⟨-, hle, hlast⟩ := Canonical.append_singleton.1 hcanonical
    rcases List.mem_append.1 hr with hr | hr
    · have := hlast r hr
      simp only at this hle ⊢
      omega
    · obtain rfl := List.mem_singleton.1 hr
      exact hs
  · rw [hopen]
    exact covers_append_singleton.trans ((or_congr_left (hcovered n)).trans covers_append_singleton.symm)

/-- An element that is accepted in OPEN joins the canonical run sequence (R113, R115, R116). -/
theorem cPush_pushed {s : State} {elements closed : List Span} (h : Pushed s elements closed) (start stop : Word32) :
    (s.after (.cPush start stop)).c.cphase = .error ∨
    ∃ closed', Pushed (s.after (.cPush start stop)) (elements ++ [(start.toNat, stop.toNat)]) closed' := by
  have ht := State.after_inv h.inv (.cPush start stop)
  obtain ⟨-, hinv, -⟩ := h.inv
  obtain ⟨hw, -⟩ := hinv.opened h.opened
  cases hm : mergerAccept start stop s.c with
  | error e =>
    rw [after_of_exec (exec_cPush_invalid h.opened (mergerAccept_error.1 hm).1)]
    exact .inl rfl
  | ok c1 =>
    have ha := mergerAccept_ok.1 hm
    match hr : runAutomaton s.params.granule c1 with
    | (c2, some e) =>
      rw [after_of_exec (exec_cPush_raises h.opened ha hr)]
      exact .inl rfl
    | (c2, none) =>
      rw [after_of_exec (exec_cPush_completes h.opened ha hr)] at ht ⊢
      have hsilent (hw1 : c1.Waiting) : c2 = c1 := by
        rw [runAutomaton_of_waiting hw1] at hr
        exact (congrArg Prod.fst hr).symm
      cases ha with
      | first hv hn => exact .inr ⟨closed, h.first ht hv hn (hsilent hw)⟩
      | merge hv hn hs => exact .inr ⟨closed, h.merge ht hv hn hs (hsilent hw)⟩
      | close hv hn hs => exact .inr ⟨_, h.close ht hv hn hs hr⟩

/-! ### The whole compression -/

/-- The commands that push the elements. -/
def pushes (elements : List (Word32 × Word32)) : List Instr := elements.map fun e => .cPush e.1 e.2

/-- The elements as ranges of integers. -/
def elementSpans (elements : List (Word32 × Word32)) : List Span := elements.map fun e => (e.1.toNat, e.2.toNat)

theorem afterAll_append (s : State) (is js : List Instr) : s.afterAll (is ++ js) = (s.afterAll is).afterAll js :=
  List.foldl_append

/-- In ERROR, C.PUSH and C.FINISH leave the compression context (R201). -/
theorem after_of_error {s : State} {i : Instr} (hi : i.op ∈ ([0x02, 0x03] : List Byte)) (h : s.c.cphase = .error) :
    (s.after i).c = s.c := by
  have repeats (want : CPhase) (op : Byte) (run : State) : (s.gateC want op run).c = s.c := by
    rw [State.gateC, if_pos h, State.repeatC_c]
  cases i with
  | cPush start stop => exact repeats _ _ _
  | cFinish => exact repeats _ _ _
  | _ => exact absurd hi (by simp [Instr.op])

theorem afterAll_of_error {s : State} {is : List Instr} (hi : ∀ i ∈ is, i.op ∈ ([0x02, 0x03] : List Byte))
    (h : s.c.cphase = .error) : (s.afterAll is).c.cphase = .error := by
  induction is generalizing s with
  | nil => exact h
  | cons i is ih =>
    obtain ⟨hi0, his⟩ := List.forall_mem_cons.1 hi
    exact ih his (by rw [after_of_error hi0 h]; exact h)

/-- Elements pushed one after another are all accepted, or an error stands at the end. -/
theorem pushes_pushed (elements : List (Word32 × Word32)) : ∀ {s : State} {before closed : List Span},
    Pushed s before closed → (s.afterAll (pushes elements)).c.cphase = .error ∨
      ∃ closed', Pushed (s.afterAll (pushes elements)) (before ++ elementSpans elements) closed' := by
  induction elements with
  | nil => exact fun {_ _ closed} h => .inr ⟨closed, by rw [elementSpans, List.map_nil, List.append_nil]; exact h⟩
  | cons e elements ih =>
    intro s before closed h
    rcases cPush_pushed h e.1 e.2 with herr | ⟨closed', h'⟩
    · refine .inl (afterAll_of_error (s := s.after (.cPush e.1 e.2)) (fun i hi => ?_) herr)
      obtain ⟨e', -, rfl⟩ := List.mem_map.1 hi
      simp [Instr.op]
    · have hrest := ih h'
      rw [List.append_assoc] at hrest
      exact hrest

/-- What C.FINISH completes: the stream of the ranges, at its exact size (R185, R206). -/
structure CompContext.Finished (c : CompContext) (rs : List Span) : Prop where
  bits : c.bits = codewords (streamOf rs)
  inRange : ∀ x ∈ streamOf rs, x ≤ Config.gammaMax
  size : c.clen.toNat = (c.bitlen.toNat + 7) / 8

/-- C.FINISH closes the open range, and the stream is that of the whole canonical run sequence (R117, R206). -/
theorem cFinish_finished {s : State} {elements closed : List Span} (h : Pushed s elements closed)
    (hd : (s.after .cFinish).c.cphase = .done) : (s.after .cFinish).c.Finished (closed ++ s.c.openSpans) := by
  have ⟨_, hinv, _⟩ := h.inv
  have hfeeds := mergerEnd_feeds hinv h.opened
  match hr : runAutomaton s.params.granule (mergerEnd s.c) with
  | (c2, some e) =>
    rw [after_of_exec (exec_cFinish_raises h.opened hr)] at hd
    cases hd
  | (c2, none) =>
    rw [after_of_exec (exec_cFinish_completes h.opened hr)]
    obtain ⟨-, hbits, hrange⟩ := h.encodes.run h.encodes.finalFlat hfeeds hr
    exact ⟨hbits, hrange, complete_clen_toNat (runAutomaton_pathInv hfeeds.path hr).buffer⟩

/-- A compression that ends in DONE leaves the stream of the canonical run sequence of its elements (R19, R143). -/
theorem compression_finished {s : State} {maxsize : Word32} {elements : List (Word32 × Word32)} (h : s.Inv)
    (hm : maxsize.toNat ≤ s.params.obufBytes)
    (hd : (s.afterAll (compression maxsize elements)).c.cphase = .done) :
    ∃ rs, Canonical rs ∧ (∀ n, covers rs n ↔ covers (elementSpans elements) n) ∧
      (s.afterAll (compression maxsize elements)).c.Finished rs := by
  have hsplit : s.afterAll (compression maxsize elements) =
      ((s.after (.cInit maxsize)).afterAll (pushes elements)).after .cFinish := afterAll_append s _ _
  rw [hsplit] at hd ⊢
  rcases pushes_pushed elements (cInit_pushed h hm) with herr | ⟨closed, hpushed⟩
  · rw [after_of_error (by simp [Instr.op]) herr, herr] at hd
    cases hd
  · exact ⟨_, hpushed.canonical, hpushed.covered, cFinish_finished hpushed hd⟩

end Sys2Proof.Machine
end

section
/-! SUPPORT. That the output of a compression, loaded into IBUF, reads as the stream and its padding (20_memory.md R62, R63,
43_bitstream.md R189). -/

namespace Sys2Proof.Machine

/-! ### Loading bytes -/

/-- The first `k` bytes of `f` are loaded after a D.INIT of `len` bytes, and decoding has not begun. -/
structure Loaded (s : State) (len : Word32) (f : Nat → Byte) (k : Nat) : Prop where
  inv : s.Inv
  ready : s.d.dphase = .ready
  len : s.d.ilen = len
  bytes : ∀ j < k, s.d.ibuf.read j = f j
  written : ∀ j < k, j ∈ s.d.written

theorem dInit_loaded {s : State} {len : Word32} (h : s.Inv) (hl : len.toNat ≤ s.params.ibufBytes) (f : Nat → Byte) :
    Loaded (s.after (.dInit len)) len f 0 := by
  have hinv := State.after_inv h (.dInit len)
  have hafter : s.after (.dInit len) = { s with d := s.d.init len }.respondOk 0 0 := by
    refine after_of_exec (congrArg Host.Outcome.next (if_neg ?_))
    rw [byteCount_eq]
    omega
  rw [hafter] at hinv ⊢
  exact ⟨hinv, rfl, rfl, by simp, by simp⟩

/-- D.LOAD of the next byte (R221). -/
theorem Loaded.load {s : State} {len : Word32} {f : Nat → Byte} {k : Nat} (h : Loaded s len f k) (hk : k < len.toNat) :
    Loaded (s.after (.dLoad (BitVec.ofNat 32 k) (f k))) len f (k + 1) := by
  have hinv := State.after_inv h.inv (.dLoad (BitVec.ofNat 32 k) (f k))
  have haddr : (BitVec.ofNat 32 k).toNat = k := by
    have := len.isLt
    rw [BitVec.toNat_ofNat, Nat.mod_eq_of_lt (by omega)]
  have hwf : s.d.ibuf.Wf := by
    obtain ⟨-, -, -, -, -, -, -, -, hwf, -⟩ := h.inv
    exact hwf
  rw [after_of_exec (exec_dLoad_of_ready h.ready _ _), loadByte_below _ (by rw [haddr, h.len]; exact hk), haddr] at hinv ⊢
  refine ⟨hinv, h.ready, h.len, fun j hj => ?_, fun j hj => ?_⟩
  · refine (Memory.read_write hwf k j (f k)).trans ?_
    split
    next hjk => rw [hjk]
    next hjk => exact h.bytes j (by omega)
  · refine mem_markWritten.2 ?_
    by_cases hjk : j = k
    · exact .inl hjk
    · exact .inr (h.written j (by omega))

theorem loads_loaded {s : State} {len : Word32} {f : Nat → Byte} (h : Loaded s len f 0) {k : Nat} (hk : k ≤ len.toNat) :
    Loaded (s.afterAll ((List.range k).map fun j => .dLoad (BitVec.ofNat 32 j) (f j))) len f k := by
  induction k with
  | zero => exact h
  | succ k ih =>
    rw [List.range_succ, List.map_append, afterAll_append]
    exact (ih (by omega)).load hk

/-- The output of a compression is loaded byte by byte. -/
theorem reload_loaded {s : State} (h : s.Inv) (hfits : s.c.clen.toNat ≤ s.params.ibufBytes) :
    Loaded (s.afterAll s.c.reload) (s.c.clen.setWidth 32) s.c.outByte s.c.clen.toNat ∧
      (s.c.clen.setWidth 32).toNat = s.c.clen.toNat := by
  have hlen : (s.c.clen.setWidth 32).toNat = s.c.clen.toNat := by
    obtain ⟨⟨-, -, -, hibuf⟩, -⟩ := h
    rw [BitVec.toNat_setWidth, Nat.mod_eq_of_lt (by omega)]
  exact ⟨loads_loaded (dInit_loaded h (by omega) _) (by omega), hlen⟩

/-! ### Reading them -/

/-- A stream bit read back is the output bit (R189). -/
theorem inBit_eq_outBit {c : CompContext} {d : DecompContext} (hb : c.bitlen.toNat ≤ 8 * c.clen.toNat)
    (hl : d.ilen.toNat = c.clen.toNat) (hr : ∀ j < c.clen.toNat, d.ibuf.read j = c.outByte j) (i : Nat) :
    d.inBit i = c.outBit i := by
  unfold DecompContext.inBit
  split
  next hi =>
    rw [Memory.streamBit, hr _ (by omega), outByte_getLsbD c _ (by omega), Nat.div_add_mod]
  next hi =>
    rw [CompContext.outBit, if_neg (by omega)]

/-- The stream read back is the output stream and its padding (R189). -/
theorem bits_of_reload {c : CompContext} {d : DecompContext} (hb : c.bitlen.toNat ≤ 8 * c.clen.toNat)
    (hl : d.ilen.toNat = c.clen.toNat) (hr : ∀ j < c.clen.toNat, d.ibuf.read j = c.outByte j) :
    d.bits = c.bits ++ List.replicate (8 * c.clen.toNat - c.bitlen.toNat) false := by
  have hin := inBit_eq_outBit hb hl hr
  apply List.ext_getElem
  · rw [d.bits_length, List.length_append, c.bits_length, List.length_replicate]
    omega
  · intro i h1 h2
    rw [d.bits_getElem, hin, CompContext.outBit]
    by_cases hi : i < c.bitlen.toNat
    · rw [if_pos hi, List.getElem_append_left (by rwa [c.bits_length])]
      simp [CompContext.bits]
    · rw [if_neg hi, List.getElem_append_right (by rw [c.bits_length]; omega), List.getElem_replicate]

end Sys2Proof.Machine
end

section
/-! The headline: decoding the output of a compression returns the canonical run sequence of its input
(41_gap_run_automaton.md R157). -/

namespace Sys2Proof.Machine

/-! ### D.NEXT over a stream of codewords -/

/-- What a D.NEXT leaves, of which `ss` were the ranges still to come: its response, and where the next one goes on
(R155, R224, R225). -/
inductive Answers (t : State) : List Span → Prop where
  | ended (hr : t.resp = some endResponse) : Answers t []
  | last (r : Span) (hr : t.resp = some (spanResponse r)) (hd : t.d.dphase = .done) : Answers t [r]
  | more (r : Span) {l : Labeler} {xs : List Nat} (hr : t.resp = some (spanResponse r)) (hd : t.d.dphase = .active)
      (hi : t.d.LoopInv) (hh : t.d.Holds xs) (hf : l.Fits t.d) : Answers t (r :: l.spans xs)

/-- Decoding answers the next range of the stream (R157, R224). -/
theorem decodeRange_answers (s : State) {d : DecompContext} {l : Labeler} {xs : List Nat} (hd : d.dphase = .active)
    (hi : d.LoopInv) (hh : d.Holds xs) (hf : l.Fits d) : Answers (s.decodeRange d) (l.spans xs) := by
  have hnext : NextSpan d (l.spans xs) (decodeNext d) := decodeLoop_span hi hh hf (by omega)
  unfold State.decodeRange
  generalize l.spans xs = ss, decodeNext d = res at hnext
  cases hnext with
  | none hdone => exact .ended rfl
  | last r hdone => exact .last r rfl hdone
  | more r xs l hp hi hh hf => exact .more r rfl (hp.trans hd) hi hh hf

/-- In DONE, D.NEXT answers END (R223). -/
theorem dNext_of_done {s : State} (hd : s.d.dphase = .done) : (s.after .dNext).resp = some endResponse := by
  have hexec : exec .dNext s = .next (s.respond Status.endOfRanges.code 0 0) := by
    show execDNext s = _
    rw [execDNext, hd]
  rw [after_of_exec hexec]
  rfl

theorem responses_cons (s : State) (i : Instr) (is : List Instr) :
    s.responses (i :: is) = (s.after i).resp :: (s.after i).responses is := rfl

/-- D.NEXT returns the ranges still to come one after another, and then END (R155, R157, R224). -/
theorem responses_of_answers {ss : List Span} : ∀ {s : State}, Answers (s.after .dNext) ss →
    s.responses (List.replicate (ss.length + 1) .dNext) =
      ss.map (fun r => some (spanResponse r)) ++ [some endResponse] := by
  induction ss with
  | nil =>
    intro s h
    cases h with
    | ended hr => exact congrArg (fun r => [r]) hr
  | cons r ss ih =>
    intro s h
    rw [List.length_cons, List.replicate_succ, responses_cons, List.map_cons, List.cons_append]
    cases h with
    | last _ hr hd => exact congrArg₂ List.cons hr (congrArg (fun r => [r]) (dNext_of_done hd))
    | more _ hr hd hi hh hf =>
      refine congrArg₂ List.cons hr (ih ?_)
      rw [after_of_exec (exec_dNext_of_active hd)]
      exact decodeRange_answers _ hd hi hh hf

/-! ### The round trip -/

/-- No command changes a parameter (R282). -/
theorem after_params (s : State) (i : Instr) : (s.after i).params = s.params := by
  obtain ⟨t, ht, he⟩ := exec_effect i s
  rw [after_of_exec ht]
  exact he.frame.1

theorem afterAll_params (s : State) (is : List Instr) : (s.afterAll is).params = s.params := by
  induction is generalizing s with
  | nil => rfl
  | cons i is ih => exact (ih (s.after i)).trans (after_params s i)

/-- The labels before the first codeword (R33, R220). -/
def Labeler.start : Labeler := { pos := 0, sym := false, open' := none }

/-- The first D.NEXT after every byte has been loaded begins to decode (R224). -/
theorem Loaded.starts {s : State} {len : Word32} {f : Nat → Byte} (h : Loaded s len f len.toNat) :
    s.after .dNext = s.decodeRange { s.d with dphase := .active } := by
  have hall : firstUnwritten s.d.written s.d.ilen.toNat 0 = none := by
    rw [firstUnwritten_eq_none, h.len]
    exact fun b _ hb => h.written b (by omega)
  have hexec : exec .dNext s = .next s.startDecode := by
    show execDNext s = _
    rw [execDNext, h.ready]
  rw [after_of_exec hexec, State.startDecode, hall]

/-- The first D.NEXT decodes the integers that the loaded stream holds, from the beginning of the domain (R220, R224). -/
theorem Loaded.answers {s : State} {len : Word32} {f : Nat → Byte} {xs : List Nat} (h : Loaded s len f len.toNat)
    (hh : s.d.bpos = 0 → s.d.Holds xs) : Answers (s.after .dNext) (Labeler.start.spans xs) := by
  obtain ⟨hw, -, hd⟩ := h.inv
  have hloop := hd.loopInv hw (by simp [h.ready])
  obtain ⟨-, -, ⟨hready, -, -⟩, -⟩ := hd
  obtain ⟨hbpos, hpos, hsym, hopen, -, -⟩ := hready (.inr h.ready)
  rw [h.starts]
  refine decodeRange_answers s rfl ⟨hloop.len, hloop.cursor, hloop.reach, hloop.count, hloop.opened⟩
    ((hh hbpos).congr rfl rfl rfl) ⟨?_, hsym, hopen, by simp [Labeler.start]⟩
  show s.d.pos.toNat = 0
  rw [hpos]
  rfl

/-- A loaded output holds the integers of its stream, with less than a byte of padding (R95, R189). -/
theorem CompContext.Finished.holds {c : CompContext} {rs : List Span} {d : DecompContext} (h : c.Finished rs)
    (hb : d.bpos = 0) (hl : d.ilen.toNat = c.clen.toNat) (hr : ∀ j < c.clen.toNat, d.ibuf.read j = c.outByte j) :
    d.Holds (streamOf rs) := by
  have hsize := h.size
  refine ⟨fun x hx => ⟨emits_pos _ _ x hx, h.inRange x hx⟩, 8 * c.clen.toNat - c.bitlen.toNat, by omega, ?_⟩
  rw [hb, bits_of_reload (by omega) hl hr, h.bits]
  rfl

/-- Settles O54: the compression leaves the stream of the canonical run sequence, reloading keeps its bits, and the labels
of the integers read back are the ranges of that sequence. -/
theorem decompressionInvertsCompression : Obligations.DecompressionInvertsCompression := by
  intro s maxsize elements h hm hd hfits
  obtain ⟨rs, hcanonical, hcovers, hfinished⟩ := compression_finished h hm hd
  refine ⟨rs, hcanonical, hcovers, ?_⟩
  have hinv := State.afterAll_inv h (compression maxsize elements)
  rw [← afterAll_params s (compression maxsize elements)] at hfits
  generalize s.afterAll (compression maxsize elements) = t at *
  obtain ⟨hloaded, hlen⟩ := reload_loaded hinv hfits
  rw [← hlen] at hloaded
  refine responses_of_answers ?_
  have hspans : Labeler.start.spans (streamOf rs) = rs := spans_emits rfl hcanonical
  rw [← hspans]
  exact hloaded.answers fun hb => hfinished.holds hb (by rw [hloaded.len, hlen]) (by rw [← hlen]; exact hloaded.bytes)

end Sys2Proof.Machine
end

section
/-! The Elias gamma codec: which error the encoder raises, what it appends to the stream, and that the decoder reads it back
(42_elias_gamma.md R160 to R168). -/

namespace Sys2Proof.Machine

/-! ### The required size and the growth, written out (43_bitstream.md R182, R184) -/

theorem requiredBytes_eq_match (g : Config.Granule) (b : Nat) :
    requiredBytes g b = match g with | .one => (b + 7) / 8 | .four => 4 * ((b + 31) / 32) := by
  cases g with
  | one => exact requiredBytes_one b
  | four => exact requiredBytes_four b

theorem grow_eq_min (cap need maxsize : Nat) :
    grow cap need maxsize = min (4 * ((max (2 * cap) need + 3) / 4)) maxsize := by
  rw [grow, roundUp_four, Nat.mul_comm]

/-! ### Errors of the encoder (R161, R183) -/

/-- Settles O46: the encoder's two errors in their order, with the required size written out for each granule. -/
theorem codewordErrorsComeInOrder : Obligations.CodewordErrorsComeInOrder := by
  intro g c x bits need e hbits hneed
  have hsize : need = requiredBytes g bits := hneed.trans (requiredBytes_eq_match g bits).symm
  subst hsize hbits
  exact gammaEncode_error

/-! ### The codeword appended (R160, R181) -/

/-- Above its marker bit an integer has only zeros. -/
theorem testBit_of_log2_lt {x i : Nat} (h : Nat.log2 x < i) : x.testBit i = false :=
  Nat.testBit_lt_two_pow (Nat.lt_log2_self.trans_le (Nat.pow_le_pow_right (by omega) h))

/-- The appended bits, counted from the old end of the stream. -/
theorem bitAppend_cbit_new (v n : Nat) {c : CompContext} (hw : c.obuf.Wf) (h : c.bitlen.toNat + n < 2 ^ 64) {j : Nat}
    (hj : j < n) : (bitAppend v n c).cbit (c.bitlen.toNat + j) = v.testBit (n - 1 - j) := by
  rw [bitAppend_cbit v n hw h, if_pos (by omega)]
  congr 1
  omega

/-- An integer in range whose codeword fits writes OBUF, `C.bitlen` and `C.cap`, nothing else. -/
theorem gammaEncode_eq_ok {g : Config.Granule} {x : Nat} {c : CompContext} (hx : x ≤ Config.gammaMax)
    (hc : requiredBytes g (c.bitlen.toNat + codewordLength x) ≤ c.maxsize.toNat) :
    gammaEncode g x c = .ok { c with
      obuf := (bitAppend x (codewordLength x) c).obuf
      bitlen := (bitAppend x (codewordLength x) c).bitlen
      cap := c.packedCap g (codewordLength x) } := by
  have hframe := bitAppend_frame x (codewordLength x) c
  rw [gammaEncode_completes hx hc]
  generalize bitAppend x (codewordLength x) c = c' at hframe ⊢
  rw [hframe]

/-- Settles O45: packing appends the `2k + 1` low bits of the integer, of which the first `k` lie above its marker bit. -/
theorem codewordIsAppended : Obligations.CodewordIsAppended := by
  intro g c x bits need hw _ hx hbits hneed hfits
  have hsize : need = requiredBytes g bits := hneed.trans (requiredBytes_eq_match g bits).symm
  have hcode : bits = c.bitlen.toNat + codewordLength x := hbits
  have hlen : codewordLength x = 2 * Nat.log2 x + 1 := rfl
  subst hsize hcode
  have hlt := bitlen_lt_of_required hfits
  refine ⟨_, _, _, gammaEncode_eq_ok hx hfits, bitAppend_bitlen _ _ _ hlt, ?_, fun j hj => ?_, fun j hj => ?_,
    fun j hj => ?_, fun a ha => bitAppend_read _ _ hlt ha⟩
  · rw [packedCap_toNat, grow_eq_min]
  · exact (bitAppend_cbit_new _ _ hw hlt (by omega)).trans (testBit_of_log2_lt (by omega))
  · rw [Nat.add_assoc]
    refine (bitAppend_cbit_new _ _ hw hlt (by omega)).trans ?_
    congr 1
    omega
  · exact (bitAppend_cbit _ _ hw hlt j).trans (if_neg (by omega))

/-! ### Reading it back (R165 to R168) -/

/-- Past the codeword at the cursor stands the rest of the stream (R166, R168). -/
theorem drop_advance_of_codeword {d : DecompContext} {x : Nat} {rest : List Bool} (h1 : 1 ≤ x) (hx : x ≤ Config.gammaMax)
    (h : d.bits.drop d.bpos.toNat = codeword x ++ rest) : d.advance.bits.drop d.advance.bpos.toNat = rest := by
  obtain ⟨-, -, -, -, hbpos⟩ := decoder_at_codeword h1 hx h
  have hbits : d.advance.bits = d.bits := rfl
  rw [hbits, hbpos, ← List.drop_drop, h, List.drop_left' (codeword_length x)]

/-- Settles O49: what the decoder reads at a codeword and at the padding, which is shorter than a window. -/
theorem decoderReadsBackCodewords : Obligations.DecoderReadsBackCodewords := by
  intro d
  refine ⟨fun x rest h1 hx h => ?_, fun p hp h => decoder_at_padding (by omega) h⟩
  obtain ⟨hzeros, -, hend, hvalue, -⟩ := decoder_at_codeword h1 hx h
  exact ⟨hzeros, hend, hvalue, drop_advance_of_codeword h1 hx h⟩

end Sys2Proof.Machine
end

section
/-! D.NEXT inside the stream: the passes of its loop, a long run of zeros and a codeword (42_elias_gamma.md R164 to R167,
45_decompress_commands.md R224, R225). -/

namespace Sys2Proof.Machine

/-! ### One pass of the loop -/

theorem atEnd_eq_false_of_lt {d : DecompContext} (h : d.bpos.toNat + d.zeros < 8 * d.ilen.toNat) : d.atEnd = false := by
  rw [Bool.eq_false_iff, Ne, atEnd_eq_true]
  omega

theorem decodeLoop_of_longZeros {d : DecompContext} (he : d.atEnd = false) (hz : d.zeros = 32) (n : Nat) :
    decodeLoop (n + 1) d = (d, .raised (longZeroRun d)) := by
  have hwindow : d.zeros = Config.window := hz
  rw [decodeLoop, if_neg (by simp [he]), if_pos hwindow]

/-- A pass that takes a codeword returns the range it produces, or goes on where there is none (R225). -/
theorem decodeLoop_of_codeword {d d' : DecompContext} {o : Option Range} (he : d.atEnd = false) (hz : d.zeros ≠ 32)
    (hd : d.advance.decodeValue d.codewordValue = (d', o)) (n : Nat) :
    decodeLoop (n + 1) d =
      o.elim (decodeLoop n d') fun r => ({ d' with nranges := d.nranges + 1 }, .range r) := by
  have hwindow : d.zeros ≠ Config.window := hz
  rw [decodeLoop, if_neg (by simp [he]), if_neg hwindow, hd]
  cases o with
  | none => rfl
  | some r => rfl

/-! ### The bound on the passes -/

/-- Two bounds that both cover the bits left give one result, so that no bound ends the loop early (log 10). -/
theorem decodeLoop_eq_of_covers {n m : Nat} {d : DecompContext} (hn : 8 * d.ilen.toNat ≤ d.bpos.toNat + n)
    (hm : 8 * d.ilen.toNat ≤ d.bpos.toNat + m) : decodeLoop n d = decodeLoop m d := by
  induction n generalizing m d with
  | zero =>
    have he : d.atEnd = true := atEnd_eq_true.2 (by omega)
    rw [decodeLoop_of_atEnd he, decodeLoop_of_atEnd he]
  | succ n ih =>
    cases he : d.atEnd with
    | true => rw [decodeLoop_of_atEnd he, decodeLoop_of_atEnd he]
    | false =>
      have hleft := atEnd_eq_false he
      obtain ⟨m, rfl⟩ : ∃ k, m = k + 1 := ⟨m - 1, by omega⟩
      by_cases hz : d.zeros = 32
      · rw [decodeLoop_of_longZeros he hz, decodeLoop_of_longZeros he hz]
      · rcases hd : d.advance.decodeValue d.codewordValue with ⟨d', o⟩
        rw [decodeLoop_of_codeword he hz hd, decodeLoop_of_codeword he hz hd]
        cases o with
        | some r => rfl
        | none =>
          have hs : SilentPass d d' := ⟨he, hz, hd⟩
          have hbpos := hs.bpos
          exact ih (by rw [hs.ilen]; omega) (by rw [hs.ilen]; omega)

/-- Before the end of the stream the loop of D.NEXT has a pass to take. -/
theorem decodeNext_eq_succ {d : DecompContext} (he : d.atEnd = false) :
    ∃ n, decodeNext d = decodeLoop (n + 1) d ∧ 8 * d.ilen.toNat ≤ d.bpos.toNat + (n + 1) := by
  have hleft := atEnd_eq_false he
  exact ⟨8 * d.ilen.toNat - d.bpos.toNat - 1, decodeLoop_eq_of_covers (by omega) (by omega), by omega⟩

/-- After a codeword that produces no range, D.NEXT goes on as D.NEXT from there (R225). -/
theorem SilentPass.decodeNext_eq {d d' : DecompContext} (h : SilentPass d d') : decodeNext d = decodeNext d' := by
  obtain ⟨n, hn, hcovers⟩ := decodeNext_eq_succ h.notEnd
  have hbpos := h.bpos
  rw [hn, decodeLoop_of_codeword h.notEnd h.short h.decoded]
  exact decodeLoop_eq_of_covers (by rw [h.ilen]; omega) (by omega)

theorem SilentPass.dphase {d d' : DecompContext} (h : SilentPass d d') : d'.dphase = d.dphase := by
  have hf := codeword_frame d
  rw [h.decoded] at hf
  exact congrArg (·.dphase) hf

/-! ### The command -/

/-- Decoding from a given context does not look at the one the state holds. -/
theorem decodeRange_replace_d (s : State) (d d0 : DecompContext) :
    ({ s with d := d } : State).decodeRange d0 = s.decodeRange d0 := by
  unfold State.decodeRange
  obtain ⟨d', e⟩ := decodeNext d0
  cases e with
  | range r => rfl
  | noRange => rfl
  | raised e => rfl

theorem SilentPass.decodeRange_eq {d d' : DecompContext} (h : SilentPass d d') (s : State) :
    s.decodeRange d = s.decodeRange d' := by
  rw [State.decodeRange, State.decodeRange, h.decodeNext_eq]

/-- Settles O38: the 32 zeros do not reach the end of the stream, so the first pass raises. -/
theorem dNextAtALongZeroRun : Obligations.DNextAtALongZeroRun := by
  intro s hp hz hleft
  have hzeros : s.d.zeros = 32 := (zeros_eq_iff s.d 32).2 hz
  have hend : s.d.atEnd = false := atEnd_eq_false_of_lt (by omega)
  obtain ⟨n, hn, -⟩ := decodeNext_eq_succ hend
  rw [exec_dNext_of_active hp, State.decodeRange, hn, decodeLoop_of_longZeros hend hzeros]
  rfl

/-- Settles O39: the first pass takes the codeword; where it produces no range, the passes left decide as D.NEXT would. -/
theorem dNextTakesACodeword : Obligations.DNextTakesACodeword := by
  intro s k d' produced hp hz hleft hk hdecoded
  obtain rfl : s.d.zeros = k := (zeros_eq_iff s.d k).2 hz
  have hd : s.d.advance.decodeValue s.d.codewordValue = (d', produced) := hdecoded
  have hshort : s.d.zeros ≠ 32 := by omega
  have hend : s.d.atEnd = false := atEnd_eq_false_of_lt hleft
  obtain ⟨hlow, hhigh⟩ := codewordValue_bounds hshort
  refine ⟨hlow, hhigh, fun r hr => ?_, fun hnone => ?_⟩
  · subst hr
    obtain ⟨n, hn, -⟩ := decodeNext_eq_succ hend
    rw [exec_dNext_of_active hp, State.decodeRange, hn, decodeLoop_of_codeword hend hshort hd]
    rfl
  · subst hnone
    have hs : SilentPass s.d d' := ⟨hend, hshort, hd⟩
    rw [exec_dNext_of_active hp, hs.decodeRange_eq, ← decodeRange_replace_d s d' d']
    exact (exec_dNext_of_active (hs.dphase.trans hp)).symm

end Sys2Proof.Machine
end

section
/-! The bitstream: the growth of the output buffer and the output bytes read back (43_bitstream.md R184, R189). -/

namespace Sys2Proof.Machine

/-! ### Growth (R184) -/

theorem roundUp_four_le (a : Nat) : roundUp a 4 ≤ a + 3 := by
  rw [roundUp_four]
  omega

theorem roundUp_four_mod (a : Nat) : roundUp a 4 % 4 = 0 := Nat.mul_mod_left _ _

/-- Growth doubles the capacity where the cap allows it. -/
theorem double_le_grow {cap maxsize : Nat} (need : Nat) (h : 2 * cap ≤ maxsize) : 2 * cap ≤ grow cap need maxsize :=
  le_min ((Nat.le_max_left _ _).trans (le_roundUp_four _)) h

/-- Growth ends on a multiple of 4, unless the cap cuts it off. -/
theorem grow_aligned_or_capped (cap need maxsize : Nat) :
    grow cap need maxsize % 4 = 0 ∨ grow cap need maxsize = maxsize := by
  rcases min_choice (roundUp (max (2 * cap) need) 4) maxsize with h | h
  · exact .inl ((congrArg (· % 4) h).trans (roundUp_four_mod _))
  · exact .inr h

/-- Growth passes the larger of the doubled capacity and the need only by the rounding. -/
theorem grow_le_add_three (cap need maxsize : Nat) : grow cap need maxsize ≤ max (2 * cap) need + 3 :=
  (Nat.min_le_left _ _).trans (roundUp_four_le _)

/-- Settles O47: the formula of R184, and the bounds that its maximum, its rounding and its minimum give. -/
theorem growthIsBounded : Obligations.GrowthIsBounded := by
  intro cap need maxsize
  exact ⟨grow_eq_min cap need maxsize, fun hneed =>
    ⟨le_grow hneed, grow_le cap need maxsize, double_le_grow need, grow_aligned_or_capped cap need maxsize,
      grow_le_add_three cap need maxsize⟩⟩

/-! ### The output bytes read back (R189) -/

theorem outBit_of_lt {c : CompContext} {i : Nat} (h : i < c.bitlen.toNat) : c.outBit i = c.cbit i := if_pos h

theorem outBit_of_ge {c : CompContext} {i : Nat} (h : c.bitlen.toNat ≤ i) : c.outBit i = false := if_neg (by omega)

/-- Settles O48: every bit read back is the output bit at its position, which is the packer's bit below `C.bitlen` and 0
from there on. -/
theorem unpackerReadsWhatThePackerWrote : Obligations.UnpackerReadsWhatThePackerWrote := by
  intro c d hbits hlen hread
  have hin := inBit_eq_outBit hbits hlen hread
  exact ⟨fun i hi => (hin i).trans (outBit_of_lt hi), fun i hi => (hin i).trans (outBit_of_ge hi)⟩

end Sys2Proof.Machine
end

section
/-! The compression commands at their gates: C.INIT's bound, the phase gate, and the latched error that repeats
(44_compress_commands.md R200, R201, R205). -/

namespace Sys2Proof.Machine

variable {s : State}

/-! ### C.INIT (R200) -/

theorem exec_cInit_refused {maxsize : Word32} (h : s.params.obufBytes < maxsize.toNat) :
    exec (.cInit maxsize) s = .next (s.refuse 0x01) :=
  congrArg Host.Outcome.next (if_pos (by rwa [byteCount_eq]))

theorem exec_cInit_accepted {maxsize : Word32} (h : maxsize.toNat ≤ s.params.obufBytes) :
    exec (.cInit maxsize) s = .next ({ s with c := s.c.init maxsize }.respondOk 0 0) :=
  congrArg Host.Outcome.next (if_neg (by rwa [byteCount_eq, Nat.not_lt]))

/-- Settles O15: the two sides of the bound OBUF_BYTES; the accepted operand leaves `CompContext.init`, with OBUF as it was. -/
theorem cInitStartsAnew : Obligations.CInitStartsAnew :=
  fun s _ => ⟨exec_cInit_refused, fun h => ⟨s.c.obuf, exec_cInit_accepted h⟩⟩

/-! ### The phase gate (R201) -/

theorem gateC_of_error (want : CPhase) (op : Byte) (run : State) (h : s.c.cphase = .error) :
    s.gateC want op run = s.repeatC := if_pos h

theorem gateC_of_other {want : CPhase} (op : Byte) (run : State) (he : s.c.cphase ≠ .error)
    (hw : s.c.cphase ≠ want) : s.gateC want op run = s.refuse op := by
  rw [State.gateC, if_neg he, if_neg hw]

theorem exec_cPush_refused (start stop : Word32) (he : s.c.cphase ≠ .error) (ho : s.c.cphase ≠ .opened) :
    exec (.cPush start stop) s = .next (s.refuse 0x02) :=
  congrArg Host.Outcome.next (gateC_of_other _ _ he ho)

theorem exec_cFinish_refused (he : s.c.cphase ≠ .error) (ho : s.c.cphase ≠ .opened) :
    exec .cFinish s = .next (s.refuse 0x03) :=
  congrArg Host.Outcome.next (gateC_of_other _ _ he ho)

theorem exec_cRdbyte_refused (addr : Word32) (he : s.c.cphase ≠ .error) (hd : s.c.cphase ≠ .done) :
    exec (.cRdbyte addr) s = .next (s.refuse 0x04) :=
  congrArg Host.Outcome.next (gateC_of_other _ _ he hd)

/-- In ERROR, every gated command of the compression repeats the latched error. -/
theorem exec_of_error {i : Instr} (hi : i.op ∈ ([0x02, 0x03, 0x04] : List Byte)) (h : s.c.cphase = .error) :
    exec i s = .next s.repeatC := by
  cases i with
  | cPush start stop => exact congrArg Host.Outcome.next (gateC_of_error _ _ _ h)
  | cFinish => exact congrArg Host.Outcome.next (gateC_of_error _ _ _ h)
  | cRdbyte addr => exact congrArg Host.Outcome.next (gateC_of_error _ _ _ h)
  | _ => exact absurd hi (by simp [Instr.op])

/-- Settles O16, phase by phase: each command runs in its own phase, repeats in ERROR and is refused elsewhere. -/
theorem compressionPhaseGate : Obligations.CompressionPhaseGate := by
  intro s start stop addr
  refine ⟨fun hidle => ?_, fun hopened => ?_, fun hdone => ?_, fun herror => ?_⟩
  · exact ⟨exec_cPush_refused _ _ (by simp [hidle]) (by simp [hidle]),
      exec_cFinish_refused (by simp [hidle]) (by simp [hidle]),
      exec_cRdbyte_refused _ (by simp [hidle]) (by simp [hidle])⟩
  · exact ⟨exec_cPush_of_opened hopened, exec_cFinish_of_opened hopened,
      exec_cRdbyte_refused _ (by simp [hopened]) (by simp [hopened])⟩
  · exact ⟨exec_cPush_refused _ _ (by simp [hdone]) (by simp [hdone]),
      exec_cFinish_refused (by simp [hdone]) (by simp [hdone]), exec_cRdbyte_of_done hdone addr⟩
  · exact ⟨exec_of_error (by simp [Instr.op]) herror, exec_of_error (by simp [Instr.op]) herror,
      exec_of_error (by simp [Instr.op]) herror⟩

/-! ### The latched error (R205) -/

/-- In ERROR, no command but C.INIT changes the compression context: its own commands repeat the error, and the others leave
that context in every phase (R201, R262). -/
theorem after_c_of_error {i : Instr} (hi : ∀ m, i ≠ .cInit m) (h : s.c.cphase = .error) : (s.after i).c = s.c := by
  have gated (hg : i.op ∈ ([0x02, 0x03, 0x04] : List Byte)) : (s.after i).c = s.c := by
    rw [after_of_exec (exec_of_error hg h), State.repeatC_c]
  have independent (hd : i.op ∈ ([0x11, 0x12, 0x13] : List Byte)) : (s.after i).c = s.c := by
    obtain ⟨t, ht, hc, -⟩ := decompression_independent hd s s.c
    rw [after_of_exec ht, hc]
  cases i with
  | cInit m => exact absurd rfl (hi m)
  | cPush | cFinish | cRdbyte => exact gated (by simp [Instr.op])
  | nop => rfl
  | dInit | dLoad | dNext => exact independent (by simp [Instr.op])
  | rdreg index =>
    obtain ⟨r, hr⟩ := rdreg_answers index s
    rw [after_of_exec hr]

/-- Until the next C.INIT a latched error keeps the compression context as it is. -/
theorem afterAll_c_of_error {is : List Instr} (hi : ∀ j ∈ is, ∀ m, j ≠ .cInit m) (h : s.c.cphase = .error) :
    (s.afterAll is).c = s.c := by
  induction is generalizing s with
  | nil => rfl
  | cons j is ih =>
    obtain ⟨hj, his⟩ := List.forall_mem_cons.1 hi
    have hstep := after_c_of_error hj h
    exact (ih his (by rwa [hstep])).trans hstep

/-- Settles O27: the commands between leave the context, so the error that stands is the one latched, and it is repeated. -/
theorem compressionErrorRepeats : Obligations.CompressionErrorRepeats := by
  intro s is i h his hi
  have hc := afterAll_c_of_error his h
  refine ⟨?_, hc⟩
  rw [exec_of_error hi (by rwa [hc]), State.repeatC, hc]
  rfl

end Sys2Proof.Machine
end

section
/-! The decompression commands at their gates: D.INIT's bound, the phase gates of D.LOAD and D.NEXT, and the latched error
they repeat (45_decompress_commands.md R220, R222, R223, R228). -/

namespace Sys2Proof.Machine

variable {s : State}

/-! ### D.INIT (R220) -/

theorem exec_dInit_refused {len : Word32} (h : s.params.ibufBytes < len.toNat) :
    exec (.dInit len) s = .next (s.refuse 0x11) :=
  congrArg Host.Outcome.next (if_pos (by rwa [byteCount_eq]))

theorem exec_dInit_accepted {len : Word32} (h : len.toNat ≤ s.params.ibufBytes) :
    exec (.dInit len) s = .next ({ s with d := s.d.init len }.respondOk 0 0) :=
  congrArg Host.Outcome.next (if_neg (by rwa [byteCount_eq, Nat.not_lt]))

/-- Settles O32: the two sides of the bound IBUF_BYTES; the accepted operand leaves `DecompContext.init`. -/
theorem dInitStartsAnew : Obligations.DInitStartsAnew :=
  fun _ _ => ⟨exec_dInit_refused, exec_dInit_accepted⟩

/-! ### The phase gate of D.LOAD (R222) -/

theorem exec_dLoad_refused (addr : Word32) (byte : Byte)
    (h : s.d.dphase = .idle ∨ s.d.dphase = .active ∨ s.d.dphase = .done) :
    exec (.dLoad addr byte) s = .next (s.refuse 0x12) := by
  show execDLoad addr byte s = _
  rcases h with hidle | hactive | hdone
  · rw [execDLoad, hidle]
    rfl
  · rw [execDLoad, hactive]
    rfl
  · rw [execDLoad, hdone]
    rfl

theorem exec_dLoad_of_error (addr : Word32) (byte : Byte) (h : s.d.dphase = .error) :
    exec (.dLoad addr byte) s = .next s.repeatD := by
  show execDLoad addr byte s = _
  rw [execDLoad, h]

/-- Settles O34: D.LOAD runs in READY, repeats the latched error in ERROR and is refused elsewhere. -/
theorem dLoadPhaseGate : Obligations.DLoadPhaseGate :=
  fun _ addr byte => ⟨exec_dLoad_refused addr byte, fun hready => exec_dLoad_of_ready hready addr byte,
    exec_dLoad_of_error addr byte⟩

/-! ### The phase gate of D.NEXT (R223, R228) -/

theorem exec_dNext_of_idle (h : s.d.dphase = .idle) : exec .dNext s = .next (s.refuse 0x13) := by
  show execDNext s = _
  rw [execDNext, h]
  rfl

theorem exec_dNext_of_ready (h : s.d.dphase = .ready) : exec .dNext s = .next s.startDecode := by
  show execDNext s = _
  rw [execDNext, h]

/-- Once the stream has ended, every D.NEXT answers END and changes nothing (R228). -/
theorem exec_dNext_of_done (h : s.d.dphase = .done) :
    exec .dNext s = .next (s.respond Status.endOfRanges.code 0 0) := by
  show execDNext s = _
  rw [execDNext, h]

theorem exec_dNext_of_error (h : s.d.dphase = .error) : exec .dNext s = .next s.repeatD := by
  show execDNext s = _
  rw [execDNext, h]

/-- Settles O35, phase by phase: refused in IDLE, the input check in READY, decoding in ACTIVE, END in DONE, and the latched
error in ERROR. -/
theorem dNextPhaseGate : Obligations.DNextPhaseGate :=
  fun _ => ⟨exec_dNext_of_idle, exec_dNext_of_ready, exec_dNext_of_active, exec_dNext_of_done, exec_dNext_of_error⟩

end Sys2Proof.Machine
end

section
/-! The two latches and what clears them, the input check of the first D.NEXT, and the idle CORE (60_exceptions.md R260,
R265, R272). -/

namespace Sys2Proof.Machine

variable {s t : State}

/-! ### The idle CORE (R272) -/

/-- Settles O8: the case of a step with no input to take. -/
theorem idleStepHoldsTheState : Obligations.IdleStepHoldsTheState := fun _ => step_idle

/-! ### The first D.NEXT (R224, R260) -/

theorem startDecode_of_unwritten {a : Nat} (hlt : a < s.d.ilen.toNat) (ha : a ∉ s.d.written)
    (hlow : ∀ b < a, b ∈ s.d.written) : s.startDecode = s.raiseD s.d (unwrittenInput a) := by
  have hfirst : firstUnwritten s.d.written s.d.ilen.toNat 0 = some a :=
    firstUnwritten_eq_some.2 ⟨Nat.zero_le a, by omega, ha, fun b _ hb => hlow b hb⟩
  rw [State.startDecode, hfirst]

theorem startDecode_of_written (h : ∀ a < s.d.ilen.toNat, a ∈ s.d.written) :
    s.startDecode = s.decodeRange { s.d with dphase := .active } := by
  have hall : firstUnwritten s.d.written s.d.ilen.toNat 0 = none :=
    firstUnwritten_eq_none.2 fun b _ hb => h b (by omega)
  rw [State.startDecode, hall]

/-- Settles O36: the search for an unwritten byte decides between the raise and the decoding that ACTIVE does. -/
theorem firstDNextChecksTheInput : Obligations.FirstDNextChecksTheInput := by
  intro s hready
  refine ⟨fun a hlt ha hlow => ?_, fun hall => ?_⟩
  · rw [exec_dNext_of_ready hready, startDecode_of_unwritten hlt ha hlow]
    rfl
  · rw [exec_dNext_of_ready hready, startDecode_of_written hall,
      ← decodeRange_replace_d s { s.d with dphase := .active }]
    exact (exec_dNext_of_active rfl).symm

/-! ### Commands from a latched error (R201, R222, R223, R262) -/

/-- In ERROR, no command but D.INIT changes the decompression context. -/
theorem after_d_of_error {i : Instr} (hi : ∀ n, i ≠ .dInit n) (h : s.d.dphase = .error) : (s.after i).d = s.d := by
  have independent (hc : i.op ∈ ([0x01, 0x02, 0x03, 0x04] : List Byte)) : (s.after i).d = s.d := by
    obtain ⟨u, hu, hd, -⟩ := compression_independent hc s s.d
    rw [after_of_exec hu, hd]
  cases i with
  | cInit | cPush | cFinish | cRdbyte => exact independent (by simp [Instr.op])
  | nop => rfl
  | dInit n => exact absurd rfl (hi n)
  | dLoad addr byte => rw [after_of_exec (exec_dLoad_of_error addr byte h), State.repeatD_d]
  | dNext => rw [after_of_exec (exec_dNext_of_error h), State.repeatD_d]
  | rdreg index =>
    obtain ⟨r, hr⟩ := rdreg_answers index s
    rw [after_of_exec hr]

/-- In ERROR, a command leaves the compression context as it is or is an accepted C.INIT. -/
theorem after_c_cases_of_error (i : Instr) (h : s.c.cphase = .error) :
    (s.after i).c = s.c ∨ ∃ m, i = .cInit m ∧ m.toNat ≤ s.params.obufBytes ∧ (s.after i).c = s.c.init m := by
  by_cases hi : ∃ m, i = .cInit m
  · obtain ⟨m, rfl⟩ := hi
    rcases Nat.lt_or_ge s.params.obufBytes m.toNat with hlarge | hfits
    · exact .inl (by rw [after_of_exec (exec_cInit_refused hlarge), State.refuse_c])
    · exact .inr ⟨m, rfl, hfits, by rw [after_of_exec (exec_cInit_accepted hfits), State.respondOk_c]⟩
  · exact .inl (after_c_of_error (not_exists.1 hi) h)

/-- In ERROR, a command leaves the decompression context as it is or is an accepted D.INIT. -/
theorem after_d_cases_of_error (i : Instr) (h : s.d.dphase = .error) :
    (s.after i).d = s.d ∨ ∃ n, i = .dInit n ∧ n.toNat ≤ s.params.ibufBytes ∧ (s.after i).d = s.d.init n := by
  by_cases hi : ∃ n, i = .dInit n
  · obtain ⟨n, rfl⟩ := hi
    rcases Nat.lt_or_ge s.params.ibufBytes n.toNat with hlarge | hfits
    · exact .inl (by rw [after_of_exec (exec_dInit_refused hlarge), State.refuse_d])
    · exact .inr ⟨n, rfl, hfits, by rw [after_of_exec (exec_dInit_accepted hfits), State.respondOk_d]⟩
  · exact .inl (after_d_of_error (not_exists.1 hi) h)

/-! ### Steps from a latched error (R265) -/

/-- The ways a step goes, by what the host's next input is (R8, R87, R88, R272, R280). -/
inductive StepKind (s : State) : State → Prop where
  | idle (hp : s.pending = []) : StepKind s s
  | reset {rest : List HostInput} (hp : s.pending = .reset :: rest) :
      StepKind s { s with pending := rest }.hardwareReset
  | refused {w : CmdWord} {rest : List HostInput} (op : Byte) (hp : s.pending = .command w :: rest) :
      StepKind s ({ s with pending := rest }.refuse op)
  | command {w : CmdWord} {rest : List HostInput} {i : Instr} (hp : s.pending = .command w :: rest)
      (hd : decode w = .ok i) : StepKind s (State.after { s with pending := rest } i)

theorem step_kind (h : step s = .next t) : StepKind s t := by
  cases hp : s.pending with
  | nil =>
    obtain rfl := Host.Outcome.next.inj ((step_idle hp).symm.trans h)
    exact .idle hp
  | cons input rest =>
    cases input with
    | reset =>
      obtain rfl := Host.Outcome.next.inj ((step_reset hp).symm.trans h)
      exact .reset hp
    | command w =>
      cases hd : decode w with
      | error e =>
        obtain rfl := Host.Outcome.next.inj ((step_refused hp hd).symm.trans h)
        exact .refused e.op hp
      | ok i =>
        obtain rfl := after_of_exec ((step_decoded hp hd).symm.trans h)
        exact .command hp hd

/-- From a latched compression error, a step keeps the context, resets it or initialises it. -/
theorem StepKind.c_of_error (hk : StepKind s t) (h : s.c.cphase = .error) :
    t.c = s.c ∨ (∃ rest, s.pending = .reset :: rest ∧ t.c = CompContext.reset) ∨
      ∃ w m rest, s.pending = .command w :: rest ∧ decode w = .ok (.cInit m) ∧ m.toNat ≤ s.params.obufBytes ∧
        t.c = s.c.init m := by
  cases hk with
  | idle => exact .inl rfl
  | reset hp => exact .inr (.inl ⟨_, hp, State.hardwareReset_c _⟩)
  | refused op => exact .inl (State.refuse_c _ _)
  | @command w rest i hp hd =>
    rcases after_c_cases_of_error (s := { s with pending := rest }) i h with hsame | ⟨m, rfl, hfits, hinit⟩
    · exact .inl hsame
    · exact .inr (.inr ⟨w, m, rest, hp, hd, hfits, hinit⟩)

/-- From a latched decompression error, a step keeps the context, resets it or initialises it. -/
theorem StepKind.d_of_error (hk : StepKind s t) (h : s.d.dphase = .error) :
    t.d = s.d ∨ (∃ rest, s.pending = .reset :: rest ∧ t.d = DecompContext.reset) ∨
      ∃ w n rest, s.pending = .command w :: rest ∧ decode w = .ok (.dInit n) ∧ n.toNat ≤ s.params.ibufBytes ∧
        t.d = s.d.init n := by
  cases hk with
  | idle => exact .inl rfl
  | reset hp => exact .inr (.inl ⟨_, hp, State.hardwareReset_d _⟩)
  | refused op => exact .inl (State.refuse_d _ _)
  | @command w rest i hp hd =>
    rcases after_d_cases_of_error (s := { s with pending := rest }) i h with hsame | ⟨n, rfl, hfits, hinit⟩
    · exact .inl hsame
    · exact .inr (.inr ⟨w, n, rest, hp, hd, hfits, hinit⟩)

/-- A step that takes an accepted C.INIT initialises the compression context, whatever its phase. -/
theorem step_cInit_accepted {w : CmdWord} {m : Word32} {rest : List HostInput} (h : step s = .next t)
    (hp : s.pending = .command w :: rest) (hd : decode w = .ok (.cInit m)) (hm : m.toNat ≤ s.params.obufBytes) :
    t.c = s.c.init m := by
  rw [step_decoded hp hd, exec_cInit_accepted (s := { s with pending := rest }) hm] at h
  obtain rfl := Host.Outcome.next.inj h
  exact State.respondOk_c _ _ _

/-- A step that takes an accepted D.INIT initialises the decompression context, whatever its phase. -/
theorem step_dInit_accepted {w : CmdWord} {n : Word32} {rest : List HostInput} (h : step s = .next t)
    (hp : s.pending = .command w :: rest) (hd : decode w = .ok (.dInit n)) (hn : n.toNat ≤ s.params.ibufBytes) :
    t.d = s.d.init n := by
  rw [step_decoded hp hd, exec_dInit_accepted (s := { s with pending := rest }) hn] at h
  obtain rfl := Host.Outcome.next.inj h
  exact State.respondOk_d _ _ _

/-- Settles O28: per context, the kinds of step from ERROR; then each of the three inputs that clear a latch. -/
theorem onlyInitAndResetClearALatch : Obligations.OnlyInitAndResetClearALatch := by
  intro s t hstep
  refine ⟨fun herror => ?_, fun herror => ?_, fun w m rest hp hd hm => ?_, fun w n rest hp hd hn => ?_,
    fun rest hp => ?_⟩
  · rcases (step_kind hstep).c_of_error herror with hsame | ⟨rest, hp, hc⟩ | ⟨w, m, rest, hp, hd, hm, hc⟩
    · exact .inl hsame
    · exact .inr (.inl ⟨rest, hp, by rw [hc]; exact ⟨rfl, rfl⟩⟩)
    · exact .inr (.inr ⟨w, m, rest, hp, hd, hm, by simp [hc]⟩)
  · rcases (step_kind hstep).d_of_error herror with hsame | ⟨rest, hp, hd⟩ | ⟨w, n, rest, hp, hw, hn, hd⟩
    · exact .inl hsame
    · exact .inr (.inl ⟨rest, hp, by rw [hd]; exact ⟨rfl, rfl⟩⟩)
    · exact .inr (.inr ⟨w, n, rest, hp, hw, hn, by simp [hd]⟩)
  · simp [step_cInit_accepted hstep hp hd hm]
  · simp [step_dInit_accepted hstep hp hd hn]
  · obtain rfl := Host.Outcome.next.inj ((step_reset hp).symm.trans hstep)
    exact ⟨rfl, rfl⟩

end Sys2Proof.Machine
end
